-- ==== Sys2Proof/Word.lean ====
section
/-! DEFINITION. The word and byte types (spec/00_scope.md R13, R14). A register, a command word, a bus word and an
int32 of the datapath are all 32 bits; whether they are read signed is said where they are used. -/

namespace Sys2Proof

/-- One byte of a byte memory. -/
abbrev Byte := BitVec 8

/-- One 32-bit word: a register, a command word, a host bus word, an int32 datapath value. -/
abbrev Word := BitVec 32

end Sys2Proof
end

