-- ==== Sys2Proof/Config.lean ====
section
/-! DEFINITION. What is not state but configuration (spec/00_scope.md R10, R11, R20; spec/42_dequant_fixed.md R195,
R196), and the free values of the model. -/

namespace Sys2Proof

/-- HT_TAIL_MODE: how HT_DECODE treats a lookahead that runs past the end of the buffer (R11, R168). -/
inductive TailMode where
  | strict
  | zeroFill
deriving DecidableEq, Repr

/-- The parameters of R11 that a model takes as arguments. CMD_LATENCY is not among them: commands are single steps
(R311, R313; log 3). -/
structure Config where
  /-- PASS1_BITS: the extra pass-2 descale. -/
  pass1Bits   : Nat
  /-- NHT: the number of decode-table slots. -/
  nht         : Nat
  /-- BUF_MAX_BYTES: the capacity of the stream buffer. -/
  bufMaxBytes : Nat
  /-- HT_TAIL_MODE. -/
  tailMode    : TailMode
  /-- HDTE_BASE: the base address of the host aperture. -/
  hdteBase    : Nat
deriving DecidableEq, Repr

namespace Config

/-- The size of the host aperture in bytes (R70). -/
def apertureBytes : Nat := 0x80000

/-- The legal ranges of R11. -/
abbrev Legal (c : Config) : Prop :=
  c.pass1Bits ≤ 7 ∧ (2 ≤ c.nht ∧ c.nht ≤ 16) ∧
  (4 ≤ c.bufMaxBytes ∧ c.bufMaxBytes ≤ 262140 ∧ c.bufMaxBytes % 4 = 0) ∧
  c.hdteBase % apertureBytes = 0

/-- The `default` column of R11. HDTE_BASE is OPEN there; DESIGN CHOICE (log 1): 0, which only `State.reset` uses. -/
def standard : Config :=
  { pass1Bits := 2, nht := 2, bufMaxBytes := 65536, tailMode := .strict, hdteBase := 0 }

/-- CONST_BITS (R10). -/
def constBits : Nat := 8

/-- MAX_CODE_LEN and LOOKAHEAD_BITS (R10). -/
def lookaheadBits : Nat := 16

/-- HV_CAP, the capacity of the HUFFVAL memory (R12). -/
def hvCap : Nat := 256

/-- BLOCK: the entries of an 8x8 block (R10). -/
def blockSize : Nat := 64

/-- K_1_082 (R196). -/
def k1082 : Word := 277

/-- K_1_414 (R196). -/
def k1414 : Word := 362

/-- K_1_847 (R196). -/
def k1847 : Word := 473

/-- K_2_613 (R196). -/
def k2613 : Word := 669

/-- The negation of K_2_613, which the butterfly multiplies by as a signed constant (R196, R221). -/
def negK2613 : Word := -669

/-- fix(x) = floor(x·256 + 0.5), the design-time conversion that defines the constants above (R195). -/
def fix (x : ℚ) : Int := (x * 256 + 1 / 2).floor

/-- FREE VALUE (log 5): the word that the n-th draw of an unspecified value gives. It stands for what a host read of an
unmapped offset or of an unwritten entry returns (R78, R53) and for the bits of an unwritten buffer word in the hidden
prefetch state (log 10). It has no body: no statement can rest on what it is. -/
opaque freeWord : Nat → Word

end Config

end Sys2Proof
end

