-- ==== Sys2Proof/Machine/State.lean ====
section
/-! DEFINITION. The state of the block as plain data (spec/10_state.md R30 to R53), the reasons a step can stop, and the
state after reset. -/

namespace Sys2Proof.Machine

/-- The bit reader's state (R48). The value 3 of STATUS.RSTATE does not occur, and the type has no fourth value. -/
inductive RState where
  | idle
  | ready
  | faulted
deriving DecidableEq, Repr

/-- The error codes 1 to 7 of 60_exceptions.md R261; the reserved codes 8 to 15 do not occur. -/
inductive ErrCode where
  | malformedTable
  | streamOverrun
  | argRange
  | invalidCode
  | illegalCommand
  | notReady
  | badBufferLength
deriving DecidableEq, Repr

/-- The memories of the host aperture (R41 to R47). -/
inductive MemName where
  | htBits
  | huffval
  | qt
  | coef
  | ws
  | out
  | buf
deriving DecidableEq, Repr

/-- The bit reader: its architectural state (R48) and its prefetch state (R49). -/
structure Reader where
  rstate     : RState
  /-- P, the number of stream bits consumed since BR_INIT. -/
  p          : Word
  /-- LEN_LATCHED, the copy of BR_LEN taken at BR_INIT. -/
  lenLatched : Word
  /-- W, the read-ahead word; its valid bits are left-aligned. -/
  w          : Word
  /-- NW, the number of valid bits in W. -/
  nw         : Nat
  /-- RS, the reservoir; its valid bits are left-aligned. -/
  rs         : Word
  /-- NR, the number of valid bits in RS. -/
  nr         : Nat
  /-- IDX, the index of the next dword to load. -/
  idx        : Nat
deriving DecidableEq, Repr

/-- The reader as reset and SOFT_RESET leave it (R52, 44_control.md R252). -/
def Reader.initial : Reader :=
  { rstate := .idle, p := 0, lenLatched := 0, w := 0, nw := 0, rs := 0, nr := 0, idx := 0 }

/-- A run of equal entries of a slot's LEN and SYM arrays: the 2^(16−len) lookaheads from `base` on, which share one
codeword of length `len` (41_huffman.md R165). -/
structure LutRun where
  base : Nat
  len  : Nat
  sym  : Byte
deriving DecidableEq, Repr

/-- One decode-table slot (R51): VALID(s) with the contents of LEN(s) and SYM(s) as a list of runs, every lookahead
outside the runs holding (0, 0) (log 6). An invalid slot's arrays are read by no command; `none` is "unspecified" (after
reset and after a failed build), `some` is what SOFT_RESET left there (R52; log 7). -/
inductive Slot where
  | invalid (contents : Option (List LutRun))
  | valid (table : List LutRun)
deriving DecidableEq, Repr

/-- VALID(s) (R51). -/
def Slot.isValid : Slot → Bool
  | .invalid _ => false
  | .valid _ => true

/-- VALID(s) ← 0 with LEN(s) and SYM(s) unchanged (44_control.md R252). -/
def Slot.invalidate : Slot → Slot
  | .invalid t => .invalid t
  | .valid t => .invalid (some t)

/-- What the outside world does to the block: a host access, by absolute address and number of bytes (20_memory.md R70,
R71), or the platform's hardware reset (70_reset_and_hazards.md R300; log 13). -/
inductive HostRequest where
  | read (addr : Nat) (bytes : Nat)
  | write (addr : Nat) (bytes : Nat) (value : Word)
  | reset
deriving DecidableEq, Repr

/-- The byte memories and word memories of the aperture as (offset, byte) pairs in one canonical form: offsets strictly
rising (`Memory.wf`). An offset that is not listed is unwritten (R53) and has no value (log 4). The four bytes of a word
are listed most significant first (20_memory.md R79; for the word memories, which have no visible byte order, log 12). -/
abbrev Memory := List Host.Cell

/-- The canonical form: offsets strictly rising. An unlisted offset has no value, so no entry can equal it. -/
abbrev Memory.wf (m : Memory) : Prop := m.Pairwise (fun c d => c.1 < d.1)

/-- Why the machine stops with a fault. Every one is a fault of the model in the spec's sense ("a fault recorded for the
whole run", 70_reset_and_hazards.md R313), not an error that the hardware reports. -/
inductive Fault where
  /-- A command read an entry that nothing has written since reset (10_state.md R53, U5). Raised by DQ_COEF, HT_BUILD,
  HT_DECODE, BR_PEEK, BR_READ and the transforms. Safe: the hardware goes on with a value no rule fixes. -/
  | unwritten (m : MemName)
  /-- A reader command ran on a primed reader after the host had written a word of its buffer (70_reset_and_hazards.md
  R304, U11; log 8). Raised by BR_PEEK, BR_READ, BR_SKIP, BR_POS and HT_DECODE. Safe: the hardware goes on with stale or
  new bits, and the host cannot tell which. -/
  | bufChangedWhilePrimed
  /-- A host access outside the aperture (20_memory.md R70; log 14). Raised by the host bus. Safe: such an access is none
  of the block's. -/
  | outsideAperture
deriving DecidableEq, Repr

/-- Why a step has no meaning. -/
inductive Refusal where
  /-- A command without a meaning in this model. Raised only by an arm of `exec`; there is none left. Safe. -/
  | notModelled (mnemonic : String)
  /-- A host access that is not a 32-bit access or not aligned to 4 bytes: "A model refuses it (the host step has no
  meaning)" (20_memory.md R71, U1). Raised by the host bus. Safe. -/
  | unsupportedAccess
deriving DecidableEq, Repr

/-- The machine's state. -/
structure State where
  /-- The configuration (00_scope.md R20). No step changes it (log 1). -/
  cfg       : Config
  /-- ARG (R33). -/
  arg       : Word
  /-- ARG2 (R34). -/
  arg2      : Word
  /-- RESULT (R36). -/
  result    : Word
  /-- ERRINFO (R37). -/
  errInfo   : Word
  /-- HVLEN (R38). -/
  hvlen     : Word
  /-- BR_LEN (R39). -/
  brLen     : Word
  /-- STATUS.BUSY (R35, 20_memory.md R86; log 3). -/
  busy      : Bool
  /-- STATUS.ERR and STATUS.ERRCODE: ERR = 1 exactly when there is a code (R35, "ERR = 0 implies ERRCODE = 0"). -/
  err       : Option ErrCode
  /-- The bit reader (R48, R49). -/
  reader    : Reader
  /-- The NHT decode-table slots (R51). -/
  slots     : List Slot
  /-- HT_BITS, HUFFVAL, QT, COEF, WS, OUT and BUF (R41 to R47). -/
  mem       : Memory
  /-- The model's own: the host wrote a word of the primed reader's buffer (log 8). -/
  bufDirty  : Bool
  /-- The model's own: what the outside world does next, oldest first (log 2). -/
  requests  : List HostRequest
  /-- The model's own: what the host's reads returned, newest first (log 2). -/
  replies   : List Word
  /-- The model's own: how many free values have been drawn (log 5). -/
  freeCount : Nat
deriving DecidableEq, Repr

/-- The block with the given parameters right after hardware reset (R52, 70_reset_and_hazards.md R300). -/
def State.resetWith (c : Config) : State :=
  { cfg := c, arg := 0, arg2 := 0, result := 0, errInfo := 0, hvlen := 0, brLen := 0, busy := false, err := none,
    reader := Reader.initial, slots := List.replicate c.nht (.invalid none), mem := [], bufDirty := false,
    requests := [], replies := [], freeCount := 0 }

/-- The machine right after reset, with the default parameters of 00_scope.md R11. -/
def State.reset : State := State.resetWith Config.standard

end Sys2Proof.Machine
end

