-- ==== Sys2Proof/Machine/Map.lean ====
section
/-! DEFINITION. The map of the host aperture (spec/20_memory.md R72 to R77): what stands at an offset, and where an entry
of a memory stands. -/

namespace Sys2Proof.Machine

/-- The registers of the aperture (R72). -/
inductive Reg where
  | cmd
  | arg
  | arg2
  | status
  | result
  | errInfo
  | brLen
  | hvlen
  | config
deriving DecidableEq, Repr

/-- The offset of a register (R72). -/
def Reg.offset : Reg → Nat
  | .cmd => 0x000
  | .arg => 0x004
  | .arg2 => 0x008
  | .status => 0x00C
  | .result => 0x010
  | .errInfo => 0x014
  | .brLen => 0x018
  | .hvlen => 0x01C
  | .config => 0x020

/-- The first offset of a memory's window (R72 to R77). -/
def MemName.base : MemName → Nat
  | .htBits => 0x100
  | .huffval => 0x200
  | .qt => 0x400
  | .coef => 0x500
  | .ws => 0x600
  | .out => 0x700
  | .buf => 0x40000

/-- The bytes of a memory's window (R73 to R77). Words of the BUF window at or beyond BUF_MAX_BYTES/4 are unmapped. -/
def MemName.bytes (c : Config) : MemName → Nat
  | .htBits => 64
  | .huffval => 256
  | .qt => 256
  | .coef => 256
  | .ws => 256
  | .out => 64
  | .buf => c.bufMaxBytes

/-- Whether the host may write the memory (the access column of R72). -/
def MemName.hostWritable : MemName → Bool
  | .htBits | .huffval | .qt | .coef | .buf => true
  | .ws | .out => false

/-- The offset lies in the memory's window. -/
abbrev MemName.Holds (c : Config) (m : MemName) (off : Nat) : Prop := m.base ≤ off ∧ off < m.base + m.bytes c

/-- The offset of 32-bit entry i of a word memory (R73, R75): for HT_BITS, entry i of 0..15 is BITS[i+1]. -/
abbrev MemName.wordAddr (m : MemName) (i : Nat) : Nat := m.base + 4 * i

/-- The offset of byte j of a byte memory (R74, R76, R77, R79). -/
abbrev MemName.byteAddr (m : MemName) (j : Nat) : Nat := m.base + j

/-- What stands at an offset. -/
inductive Place where
  | reg (r : Reg)
  | mem (m : MemName)
  | unmapped
deriving DecidableEq, Repr

/-- The register at an offset, if there is one (R72). -/
def regAt (off : Nat) : Option Reg :=
  [Reg.cmd, .arg, .arg2, .status, .result, .errInfo, .brLen, .hvlen, .config].find? (fun r => r.offset == off)

/-- The memory whose window holds an offset, if there is one (R72). -/
def memAt (c : Config) (off : Nat) : Option MemName :=
  [MemName.htBits, .huffval, .qt, .coef, .ws, .out, .buf].find? (fun m => decide (m.Holds c off))

/-- What stands at an offset (R72). -/
def placeAt (c : Config) (off : Nat) : Place :=
  match regAt off with
  | some r => .reg r
  | none =>
    match memAt c off with
    | some m => .mem m
    | none => .unmapped

/-- The offset of an absolute address, if it lies in the aperture (R70). -/
def offsetOf (c : Config) (addr : Nat) : Option Nat :=
  if c.hdteBase ≤ addr ∧ addr < c.hdteBase + Config.apertureBytes then some (addr - c.hdteBase) else none

end Sys2Proof.Machine
end

