-- ==== Sys2Proof/Machine/Memory.lean ====
section
/-! DEFINITION. Reading and writing the memories: one byte, one big-endian word (spec/20_memory.md R79), a block of
bytes. A byte that nothing has written has no value (spec/10_state.md R53). -/

namespace Sys2Proof.Machine

/-- The byte at an offset, or none where nothing has been written. -/
def Memory.read (m : Memory) (a : Nat) : Option Byte := m.lookup a

/-- The number of an entry's bytes each with its offset, from offset a on. -/
def cellsFrom (a : Nat) : List Byte → List Host.Cell
  | [] => []
  | b :: bs => (a, b) :: cellsFrom (a + 1) bs

/-- Write bytes at consecutive offsets from a on. The result keeps the canonical form (`Memory.store_wf`). -/
def Memory.store (m : Memory) (a : Nat) (bs : List Byte) : Memory :=
  m.filter (fun c => decide (c.1 < a)) ++ cellsFrom a bs ++ m.filter (fun c => decide (a + bs.length ≤ c.1))

/-- The four bytes of a word, most significant first (R79). -/
def wordBytes (v : Word) : List Byte :=
  [v.extractLsb' 24 8, v.extractLsb' 16 8, v.extractLsb' 8 8, v.extractLsb' 0 8]

/-- The word of four bytes, most significant first (R79, R81). -/
def wordOfBytes (b0 b1 b2 b3 : Byte) : Word := ((b0 ++ b1) ++ b2) ++ b3

/-- The word at an offset, or none if one of its bytes is unwritten. -/
def Memory.readWord (m : Memory) (a : Nat) : Option Word :=
  match m.read a, m.read (a + 1), m.read (a + 2), m.read (a + 3) with
  | some b0, some b1, some b2, some b3 => some (wordOfBytes b0 b1 b2 b3)
  | _, _, _, _ => none

/-- The word at an offset, each unwritten byte taken from the same byte of `free`. -/
def Memory.readWordOr (m : Memory) (a : Nat) (free : Word) : Word :=
  wordOfBytes ((m.read a).getD (free.extractLsb' 24 8)) ((m.read (a + 1)).getD (free.extractLsb' 16 8))
    ((m.read (a + 2)).getD (free.extractLsb' 8 8)) ((m.read (a + 3)).getD (free.extractLsb' 0 8))

/-- Write one word (R79, R84: the whole word). -/
def Memory.storeWord (m : Memory) (a : Nat) (v : Word) : Memory := m.store a (wordBytes v)

/-- The n words from offset a on, or none if a byte of them is unwritten. -/
def Memory.readWords (m : Memory) (a : Nat) : Nat → Option (List Word)
  | 0 => some []
  | n + 1 =>
    match m.readWord a, Memory.readWords m (a + 4) n with
    | some v, some vs => some (v :: vs)
    | _, _ => none

/-- Write words at consecutive offsets from a on. -/
def Memory.storeWords (m : Memory) (a : Nat) (vs : List Word) : Memory := m.store a (vs.flatMap wordBytes)

end Sys2Proof.Machine
end

