-- ==== Sys2Proof/Machine/Ops.lean ====
section
/-! DEFINITION. The named operations over the state that the meanings share: sequencing of outcomes, error entry (the
block's one exceptional event, spec/60_exceptions.md R263) and its return, register and slot updates, the two resets. -/

namespace Sys2Proof.Machine

/-- The outcome of a command or of a host step. -/
abbrev Result := Host.Outcome State Fault Refusal

/-- Go on from the next state; a fault or a refusal ends there. -/
def andThen (r : Result) (f : State → Result) : Result :=
  match r with
  | .next s => f s
  | .fault e => .fault e
  | .refused e => .refused e

/-- Change the next state. -/
def mapNext (f : State → State) (r : Result) : Result := andThen r (fun s => .next (f s))

/-- Error entry (R263): STATUS.ERR ← 1, STATUS.ERRCODE ← code(E), ERRINFO ← info. Nothing else is saved or changed. The
command ends here: a meaning answers `.next (s.raise …)`. -/
def State.raise (s : State) (e : ErrCode) (info : Word) : State := { s with err := some e, errInfo := info }

/-- The return from an error (CLEAR_ERR, 44_control.md R251): ERR ← 0, ERRCODE ← 0, ERRINFO ← 0. -/
def State.clearError (s : State) : State := { s with err := none, errInfo := 0 }

/-- RESULT ← v. -/
def State.setResult (s : State) (v : Word) : State := { s with result := v }

/-- Replace the memories. -/
def State.setMem (s : State) (m : Memory) : State := { s with mem := m }

/-- Replace the bit reader. -/
def State.setReader (s : State) (r : Reader) : State := { s with reader := r }

/-- RSTATE ← FAULTED (40_bitreader.md R132, 41_huffman.md R167). -/
def State.faultReader (s : State) : State := s.setReader { s.reader with rstate := .faulted }

/-- One free value has been drawn (log 5). -/
def State.drawFree (s : State) : State := { s with freeCount := s.freeCount + 1 }

/-- Slot s; a slot that does not exist reads as one that is not valid. -/
def State.slot (s : State) (i : Nat) : Slot := s.slots.getD i (.invalid none)

/-- Replace slot i. -/
def State.setSlot (s : State) (i : Nat) (t : Slot) : State := { s with slots := s.slots.set i t }

/-- STATUS.BUSY ← b (20_memory.md R86). -/
def State.setBusy (s : State) (b : Bool) : State := { s with busy := b }

/-- SOFT_RESET (44_control.md R252): registers, error record, reader and slot validity at their reset values; the
memories, the slots' arrays and CONFIG unchanged. The reader is IDLE, so no buffer is primed any more (log 8). -/
def State.softReset (s : State) : State :=
  { s with
    arg := 0, arg2 := 0, result := 0, errInfo := 0, brLen := 0, hvlen := 0, err := none,
    reader := Reader.initial, slots := s.slots.map Slot.invalidate, bufDirty := false }

/-- Hardware reset (70_reset_and_hazards.md R300, R301): the reset state of the same block. What is outside the block, and
the count of drawn free values, stay (log 13). -/
def State.hardReset (s : State) : State :=
  { State.resetWith s.cfg with requests := s.requests, replies := s.replies, freeCount := s.freeCount }

end Sys2Proof.Machine
end

