-- ==== Sys2Proof/Machine/Control.lean ====
section
/-! DEFINITION. The control commands (spec/44_control.md R250 to R252). -/

namespace Sys2Proof.Machine

/-- NOP (R250): no state is read or written. -/
def execNop (s : State) : Result := .next s

/-- CLEAR_ERR (R251): acknowledge the recorded error. -/
def execClearErr (s : State) : Result := .next s.clearError

/-- SOFT_RESET (R252). -/
def execSoftReset (s : State) : Result := .next s.softReset

end Sys2Proof.Machine
end

