-- ==== Sys2Proof/Machine/Datapath.lean ====
section
/-! DEFINITION. The arithmetic of the datapath (spec/42_dequant_fixed.md R190 to R194) and the butterfly of the transform
(spec/43_idct.md R221), on int32 values held as 32-bit words. -/

namespace Sys2Proof.Machine

/-- add32(a, b) = wrap32(a + b) (R190). -/
def add32 (a b : Word) : Word := a + b

/-- sub32(a, b) = wrap32(a − b) (R190). -/
def sub32 (a b : Word) : Word := a - b

/-- mul32(a, b) = wrap32(a · b), the low 32 bits of the product (R190). -/
def mul32 (a b : Word) : Word := a * b

/-- descale(x, n) = asr(x, n), the arithmetic right shift (R191). -/
def descale (x : Word) (n : Nat) : Word := x.sshiftRight n

/-- fixed_mul(a, b) = descale(mul32(a, b), CONST_BITS) (R192). -/
def fixedMul (a b : Word) : Word := descale (mul32 a b) Config.constBits

/-- range_limit(x) = clamp(x + 128, 0, 255), the sum taken without wrapping (R194). -/
def rangeLimit (x : Word) : Byte :=
  if x.toInt + 128 < 0 then 0
  else if x.toInt + 128 > 255 then 255
  else BitVec.ofInt 8 (x.toInt + 128)

/-- The eight values of a column or row of the transform. -/
structure Oct where
  c0 : Word
  c1 : Word
  c2 : Word
  c3 : Word
  c4 : Word
  c5 : Word
  c6 : Word
  c7 : Word
deriving DecidableEq, Repr

/-- The eight values as a list, entry 0 first. -/
def Oct.toList (o : Oct) : List Word := [o.c0, o.c1, o.c2, o.c3, o.c4, o.c5, o.c6, o.c7]

/-- Entry r of eight. -/
def Oct.get (o : Oct) (r : Nat) : Word := o.toList.getD r 0

/-- Butterfly(c0, …, c7) → (o0, …, o7), with + and − wrapping and M(a, k) = fixed_mul(a, k) (R221). The equations are the
spec's, which takes them from general knowledge (spec/93_implementation_defined.md G1). -/
def butterfly (c : Oct) : Oct :=
  -- even part
  let t10 := add32 c.c0 c.c4
  let t11 := sub32 c.c0 c.c4
  let t13 := add32 c.c2 c.c6
  let t12 := sub32 (fixedMul (sub32 c.c2 c.c6) Config.k1414) t13
  let e0 := add32 t10 t13
  let e3 := sub32 t10 t13
  let e1 := add32 t11 t12
  let e2 := sub32 t11 t12
  -- odd part
  let z13 := add32 c.c5 c.c3
  let z10 := sub32 c.c5 c.c3
  let z11 := add32 c.c1 c.c7
  let z12 := sub32 c.c1 c.c7
  let d7 := add32 z11 z13
  let d11 := fixedMul (sub32 z11 z13) Config.k1414
  let z5 := fixedMul (add32 z10 z12) Config.k1847
  let d10 := sub32 (fixedMul z12 Config.k1082) z5
  let d12 := add32 (fixedMul z10 Config.negK2613) z5
  let d6 := sub32 d12 d7
  let d5 := sub32 d11 d6
  let d4 := add32 d10 d5
  -- combine
  { c0 := add32 e0 d7, c7 := sub32 e0 d7,
    c1 := add32 e1 d6, c6 := sub32 e1 d6,
    c2 := add32 e2 d5, c5 := sub32 e2 d5,
    c4 := add32 e3 d4, c3 := sub32 e3 d4 }

end Sys2Proof.Machine
end

