-- ==== Sys2Proof/Syntax.lean ====
section
/-! DEFINITION. The commands of the block, one constructor for each row of the opcode table (spec/30_encoding.md R108).
The fields are the fields of the command word (R102 to R107), each an unsigned number of its format's width. -/

namespace Sys2Proof

/-- A command of HDTE-CMD revision 1. -/
inductive Instr where
  /-- NOP (R250). -/
  | nop
  /-- BR_INIT: prime the reader (R134). -/
  | brInit
  /-- BR_PEEK n (R135). -/
  | brPeek (n : BitVec 6)
  /-- BR_READ n (R136). -/
  | brRead (n : BitVec 6)
  /-- BR_SKIP: skip ARG bits (R137). -/
  | brSkip
  /-- BR_POS (R138). -/
  | brPos
  /-- HT_BUILD s (R162). -/
  | htBuild (s : BitVec 4)
  /-- HT_DECODE s (R167). -/
  | htDecode (s : BitVec 4)
  /-- HT_PROBE s, v (R169). -/
  | htProbe (s : BitVec 4) (v : BitVec 16)
  /-- DQ_COEF i (R198). -/
  | dqCoef (i : BitVec 6)
  /-- FX_MUL (R199). -/
  | fxMul
  /-- FX_DESCALE n (R200). -/
  | fxDescale (n : BitVec 6)
  /-- FX_RLIMIT (R201). -/
  | fxRlimit
  /-- IDCT_PASS1 (R222). -/
  | idctPass1
  /-- IDCT_PASS2 (R224). -/
  | idctPass2
  /-- IDCT_BLOCK (R225). -/
  | idctBlock
  /-- CLEAR_ERR (R251). -/
  | clearErr
  /-- SOFT_RESET (R252). -/
  | softReset
deriving DecidableEq, Repr

/-- The decode-table slot a command names, if its format has one (formats S and SP, R104, R105). -/
def Instr.slot : Instr → Option (BitVec 4)
  | .htBuild s => some s
  | .htDecode s => some s
  | .htProbe s _ => some s
  | .nop | .brInit | .brPeek _ | .brRead _ | .brSkip | .brPos | .dqCoef _ | .fxMul | .fxDescale _
  | .fxRlimit | .idctPass1 | .idctPass2 | .idctBlock | .clearErr | .softReset => none

end Sys2Proof
end

