-- ==== Sys2Proof/Decode.lean ====
section
/-! DEFINITION. The encoding of commands (spec/30_encoding.md R100 to R113): the opcode map, a decoder total on every
32-bit word that rejects by name, an encoder written from the formats, and the assembler's text (R114). Whether a slot
exists (R111) depends on NHT and is checked in the meanings (Machine/Operands.lean, `requireSlot`). -/

namespace Sys2Proof

/-- The command formats N, B, S, SP and I (R101 to R106). -/
inductive Format where
  | none
  | count
  | slot
  | slotProbe
  | index
deriving DecidableEq, Repr

/-- Why a word is no command. -/
inductive Reject where
  /-- The opcode is not in the map (R109). -/
  | reservedOpcode
  /-- A bit that the format marks 0 is set (R110). -/
  | reservedBits
deriving DecidableEq, Repr

/-- Bits [31:24] of a command word (R101). -/
def opcodeField (v : Word) : BitVec 8 := v.extractLsb' 24 8

/-- n = v[5:0] of format B (R103, R107). -/
def countField (v : Word) : BitVec 6 := v.extractLsb' 0 6

/-- s = v[3:0] of format S (R104, R107). -/
def slotField (v : Word) : BitVec 4 := v.extractLsb' 0 4

/-- s = v[23:20] of format SP (R105, R107). -/
def probeSlotField (v : Word) : BitVec 4 := v.extractLsb' 20 4

/-- v[15:0] of format SP (R105, R107). -/
def probeValueField (v : Word) : BitVec 16 := v.extractLsb' 0 16

/-- i = v[5:0] of format I (R106, R107). -/
def indexField (v : Word) : BitVec 6 := v.extractLsb' 0 6

/-- One row of the opcode map (R108), with the command its fields give. -/
structure OpcodeRow where
  opcode  : BitVec 8
  format  : Format
  pattern : Word
  mask    : Word
  read    : Word → Instr

/-- A word selects the row when its fixed bits are the row's (R108). -/
abbrev OpcodeRow.Selects (r : OpcodeRow) (v : Word) : Prop := v &&& r.mask = r.pattern

/-- The rows of the reader and of the Huffman decoder, as R108 lists them. -/
def opcodeMapStream : List OpcodeRow :=
  [ ⟨0x00, .none,      0x00000000, 0xFFFFFFFF, fun _ => .nop⟩,
    ⟨0x01, .none,      0x01000000, 0xFFFFFFFF, fun _ => .brInit⟩,
    ⟨0x02, .count,     0x02000000, 0xFFFFFFC0, fun v => .brPeek (countField v)⟩,
    ⟨0x03, .count,     0x03000000, 0xFFFFFFC0, fun v => .brRead (countField v)⟩,
    ⟨0x04, .none,      0x04000000, 0xFFFFFFFF, fun _ => .brSkip⟩,
    ⟨0x05, .none,      0x05000000, 0xFFFFFFFF, fun _ => .brPos⟩,
    ⟨0x10, .slot,      0x10000000, 0xFFFFFFF0, fun v => .htBuild (slotField v)⟩,
    ⟨0x11, .slot,      0x11000000, 0xFFFFFFF0, fun v => .htDecode (slotField v)⟩,
    ⟨0x12, .slotProbe, 0x12000000, 0xFF0F0000, fun v => .htProbe (probeSlotField v) (probeValueField v)⟩ ]

/-- The rows of the datapath and of control, as R108 lists them. -/
def opcodeMapBlock : List OpcodeRow :=
  [ ⟨0x20, .index,     0x20000000, 0xFFFFFFC0, fun v => .dqCoef (indexField v)⟩,
    ⟨0x21, .none,      0x21000000, 0xFFFFFFFF, fun _ => .fxMul⟩,
    ⟨0x22, .count,     0x22000000, 0xFFFFFFC0, fun v => .fxDescale (countField v)⟩,
    ⟨0x23, .none,      0x23000000, 0xFFFFFFFF, fun _ => .fxRlimit⟩,
    ⟨0x30, .none,      0x30000000, 0xFFFFFFFF, fun _ => .idctPass1⟩,
    ⟨0x31, .none,      0x31000000, 0xFFFFFFFF, fun _ => .idctPass2⟩,
    ⟨0x32, .none,      0x32000000, 0xFFFFFFFF, fun _ => .idctBlock⟩,
    ⟨0xF0, .none,      0xF0000000, 0xFFFFFFFF, fun _ => .clearErr⟩,
    ⟨0xFF, .none,      0xFF000000, 0xFFFFFFFF, fun _ => .softReset⟩ ]

/-- The opcode map (R108). -/
def opcodeMap : List OpcodeRow := opcodeMapStream ++ opcodeMapBlock

/-- Decode a command word in the order of R113: the opcode, then the reserved bits. -/
def decode (v : Word) : Except Reject Instr :=
  match opcodeMap.find? (fun r => r.opcode == opcodeField v) with
  | none => .error .reservedOpcode
  | some r => if r.Selects v then .ok (r.read v) else .error .reservedBits

/-- The word of a format N command (R102). -/
def formatN (op : BitVec 8) : Word := op ++ (0 : BitVec 24)

/-- The word of a format B or I command: a 6-bit field in bits 5:0 (R103, R106). -/
def formatB (op : BitVec 8) (n : BitVec 6) : Word := (op ++ (0 : BitVec 18)) ++ n

/-- The word of a format S command: a slot in bits 3:0 (R104). -/
def formatS (op : BitVec 8) (s : BitVec 4) : Word := (op ++ (0 : BitVec 20)) ++ s

/-- The word of a format SP command: a slot in bits 23:20 and a lookahead value in bits 15:0 (R105). -/
def formatSP (op : BitVec 8) (s : BitVec 4) (v : BitVec 16) : Word := ((op ++ s) ++ (0 : BitVec 4)) ++ v

/-- The command word of a command, from the formats (R102 to R106) and the opcodes (R108). -/
def encode : Instr → Word
  | .nop => formatN 0x00
  | .brInit => formatN 0x01
  | .brPeek n => formatB 0x02 n
  | .brRead n => formatB 0x03 n
  | .brSkip => formatN 0x04
  | .brPos => formatN 0x05
  | .htBuild s => formatS 0x10 s
  | .htDecode s => formatS 0x11 s
  | .htProbe s v => formatSP 0x12 s v
  | .dqCoef i => formatB 0x20 i
  | .fxMul => formatN 0x21
  | .fxDescale n => formatB 0x22 n
  | .fxRlimit => formatN 0x23
  | .idctPass1 => formatN 0x30
  | .idctPass2 => formatN 0x31
  | .idctBlock => formatN 0x32
  | .clearErr => formatN 0xF0
  | .softReset => formatN 0xFF

/-- The command word in the low `nbits` bits of `w`; every bit above is 0. -/
def tableWord (nbits w : Nat) : Word := BitVec.ofNat 32 (w % 2 ^ nbits)

/-- The command the decoder reads from an opcode-table row's bits. A command is one 32-bit word of the host's bus, so it
has no bytes of its own to lay out (R100). -/
def decodeTableWord (nbits w : Nat) : Option Instr :=
  match decode (tableWord nbits w) with
  | .ok i => some i
  | .error _ => none

/-- The command's assembler text (R114): the mnemonic and its fields in decimal, separated by commas. -/
def Instr.text : Instr → String
  | .nop => "NOP"
  | .brInit => "BR_INIT"
  | .brPeek n => "BR_PEEK " ++ toString n.toNat
  | .brRead n => "BR_READ " ++ toString n.toNat
  | .brSkip => "BR_SKIP"
  | .brPos => "BR_POS"
  | .htBuild s => "HT_BUILD " ++ toString s.toNat
  | .htDecode s => "HT_DECODE " ++ toString s.toNat
  | .htProbe s v => "HT_PROBE " ++ toString s.toNat ++ ", " ++ toString v.toNat
  | .dqCoef i => "DQ_COEF " ++ toString i.toNat
  | .fxMul => "FX_MUL"
  | .fxDescale n => "FX_DESCALE " ++ toString n.toNat
  | .fxRlimit => "FX_RLIMIT"
  | .idctPass1 => "IDCT_PASS1"
  | .idctPass2 => "IDCT_PASS2"
  | .idctBlock => "IDCT_BLOCK"
  | .clearErr => "CLEAR_ERR"
  | .softReset => "SOFT_RESET"

end Sys2Proof
end

