-- ==== Sys2Proof/Machine/Flags.lean ====
section
/-! DEFINITION. The block has no arithmetic flags (spec/42_dequant_fixed.md R190: "No operation saturates, traps or sets a
flag on overflow"). Its status word (spec/10_state.md R35), its CONFIG word (R40) and the codes in them are here. -/

namespace Sys2Proof.Machine

/-- STATUS.RSTATE (R35). -/
def RState.code : RState → BitVec 2
  | .idle => 0
  | .ready => 1
  | .faulted => 2

/-- STATUS.ERRCODE of an error (60_exceptions.md R261). -/
def ErrCode.code : ErrCode → BitVec 4
  | .malformedTable => 1
  | .streamOverrun => 2
  | .argRange => 3
  | .invalidCode => 4
  | .illegalCommand => 5
  | .notReady => 6
  | .badBufferLength => 7

/-- STATUS.ERRCODE: 0 when ERR = 0 (R35). -/
def errCodeField : Option ErrCode → BitVec 4
  | none => 0
  | some e => e.code

/-- The VALID bits of the slots from slot i on, at bits i and up. -/
def validBits : List Slot → Nat → BitVec 16
  | [], _ => 0
  | t :: ts, i => (if t.isValid then 1#16 <<< i else 0) ||| validBits ts (i + 1)

/-- STATUS.HT_VALID: bit s is VALID(s), and bits for s ≥ NHT read 0 (R35, R51). -/
def State.htValid (s : State) : BitVec 16 := validBits s.slots 0

/-- STATUS (R35): HT_VALID in 31:16, RSTATE in 9:8, ERRCODE in 7:4, ERR in 1, BUSY in 0; reserved bits read 0. -/
def State.statusWord (s : State) : Word :=
  (((((s.htValid ++ 0#6) ++ s.reader.rstate.code) ++ errCodeField s.err) ++ 0#2) ++ BitVec.ofBool s.err.isSome) ++
    BitVec.ofBool s.busy

/-- CONFIG (R40): BUF_WORDS in 31:16, TAIL in 8, PASS1_BITS in 7:5, NHT in 4:0; bits 15:9 read 0. -/
def configWord (c : Config) : Word :=
  (((BitVec.ofNat 16 (c.bufMaxBytes / 4) ++ 0#7) ++ BitVec.ofBool (decide (c.tailMode = .zeroFill))) ++
    BitVec.ofNat 3 c.pass1Bits) ++ BitVec.ofNat 5 c.nht

end Sys2Proof.Machine
end

