-- ==== Sys2Proof/Machine/Operands.lean ====
section
/-! DEFINITION. The operands of commands and the checks on them that come before anything else (spec/30_encoding.md R107,
R111; spec/60_exceptions.md R265 points 1 to 3). Every field is an unsigned integer, zero-extended; none is sign-extended,
scaled or shifted. -/

namespace Sys2Proof.Machine

/-- The count n of BR_PEEK, BR_READ and FX_DESCALE: 0 to 63 (R103, R107). -/
abbrev countOperand (n : BitVec 6) : Nat := n.toNat

/-- The slot s of a format S or SP command: 0 to 15 (R104, R105, R107). -/
abbrev slotOperand (s : BitVec 4) : Nat := s.toNat

/-- The lookahead value v of HT_PROBE: 0 to 65535 (R105, R107). -/
abbrev lookaheadOperand (v : BitVec 16) : Nat := v.toNat

/-- The coefficient index i of DQ_COEF: 0 to 63 (R106, R107). -/
abbrev indexOperand (i : BitVec 6) : Nat := i.toNat

/-- ARG as BR_SKIP reads it: an unsigned 32-bit count (R107, 10_state.md R33). FX_MUL, FX_DESCALE and FX_RLIMIT read
ARG and ARG2 as int32 words, which `State.arg` and `State.arg2` are. -/
abbrev State.skipCount (s : State) : Nat := s.arg.toNat

/-- The slot check of a format S or SP command i with slot field b: ILLEGAL_COMMAND with the command word if the slot does
not exist (R111, R113). -/
def requireSlot (i : Instr) (b : BitVec 4) (s : State) (k : Result) : Result :=
  if slotOperand b ≥ s.cfg.nht then .next (s.raise .illegalCommand (encode i)) else k

/-- The field check of BR_PEEK, BR_READ and FX_DESCALE: ARG_RANGE(n) for n ≥ 32 (40_bitreader.md R135, R136,
42_dequant_fixed.md R200). -/
def requireCount (n : BitVec 6) (s : State) (k : Result) : Result :=
  if countOperand n ≥ 32 then .next (s.raise .argRange (BitVec.ofNat 32 (countOperand n))) else k

/-- The slot's table, or NOT_READY(0x100 + s) if slot s is not valid (41_huffman.md R167, R169). -/
def requireTable (b : BitVec 4) (s : State) (k : List LutRun → Result) : Result :=
  match s.slot (slotOperand b) with
  | .invalid _ => .next (s.raise .notReady (BitVec.ofNat 32 (0x100 + slotOperand b)))
  | .valid t => k t

end Sys2Proof.Machine
end

