-- ==== Sys2Proof/Machine/FixedPoint.lean ====
section
/-! DEFINITION. The dequantizer and the fixed-point commands (spec/42_dequant_fixed.md R193, R198 to R201). -/

namespace Sys2Proof.Machine

/-- dequantize(i) = fixed_mul(QT[i], COEF[i]) (R193), or the fault of 10_state.md R53 if an entry is unwritten. -/
def withDequantized (i : Nat) (s : State) (k : Word → Result) : Result :=
  match s.mem.readWord (MemName.qt.wordAddr i), s.mem.readWord (MemName.coef.wordAddr i) with
  | some q, some c => k (fixedMul q c)
  | none, _ => .fault (.unwritten .qt)
  | some _, none => .fault (.unwritten .coef)

/-- DQ_COEF i (R198): RESULT ← dequantize(i). -/
def execDqCoef (i : BitVec 6) (s : State) : Result :=
  withDequantized (indexOperand i) s fun v => .next (s.setResult v)

/-- FX_MUL (R199): RESULT ← fixed_mul(ARG, ARG2). -/
def execFxMul (s : State) : Result := .next (s.setResult (fixedMul s.arg s.arg2))

/-- FX_DESCALE n (R200): RESULT ← descale(ARG, n). -/
def execFxDescale (n : BitVec 6) (s : State) : Result :=
  requireCount n s <| .next (s.setResult (descale s.arg (countOperand n)))

/-- FX_RLIMIT (R201): RESULT ← zext_32(range_limit(ARG)). -/
def execFxRlimit (s : State) : Result := .next (s.setResult ((rangeLimit s.arg).setWidth 32))

end Sys2Proof.Machine
end

