-- ==== Sys2Proof/Machine/Prefetch.lean ====
section
/-! DEFINITION. The stream, the reader's prefetch procedures and its checks (spec/20_memory.md R80, R81;
spec/40_bitreader.md R130 to R132). The bits a command returns are StreamBits of the buffer; the prefetch state is kept
beside it by the procedures of R131 and agrees with it (10_state.md R50, `State.PrefetchHolds`). -/

namespace Sys2Proof.Machine

/-- StreamBit(k) = Byte(k div 8)[7 − (k mod 8)] (R80), or none where the byte is unwritten. -/
def streamBit (m : Memory) (k : Nat) : Option Bool :=
  (m.read (MemName.buf.byteAddr (k / 8))).map (fun b => b.getLsbD (7 - k % 8))

/-- StreamBits(p, n) (00_scope.md R15): n bits from bit p on, the first the most significant; none if a byte of them is
unwritten. -/
def streamBits (m : Memory) (p : Nat) : Nat → Option Nat
  | 0 => some 0
  | n + 1 =>
    match streamBits m p n, streamBit m (p + n) with
    | some hi, some b => some (2 * hi + b.toNat)
    | _, _ => none

/-- 8·LEN_LATCHED, the number of bits of the stream. -/
abbrev Reader.streamLen (r : Reader) : Nat := 8 * r.lenLatched.toNat

/-- REM = 8·LEN_LATCHED − P (R130). -/
abbrev Reader.remaining (r : Reader) : Nat := r.streamLen - r.p.toNat

/-- RS ← Word(IDX); NR ← 32; IDX ← IDX + 1 (R131). The bits of a byte that nothing has written are free values, and a free
value is drawn only if there is such a byte (log 10). -/
def State.loadReservoir (s : State) : State :=
  let a := MemName.buf.wordAddr s.reader.idx
  let filled (v : Word) : State := s.setReader { s.reader with rs := v, nr := 32, idx := s.reader.idx + 1 }
  match s.mem.readWord a with
  | some v => filled v
  | none => (filled (s.mem.readWordOr a (Config.freeWord s.freeCount))).drawFree

/-- The top k = min(32 − NW, NR) bits of RS placed under W's valid bits (R131). -/
def Reader.transfer (r : Reader) : Reader :=
  let k := min (32 - r.nw) r.nr
  { r with
    w := r.w + BitVec.ofNat 32 (r.rs.toNat / 2 ^ (32 - k) * 2 ^ (32 - r.nw - k))
    rs := BitVec.ofNat 32 (r.rs.toNat * 2 ^ k)
    nr := r.nr - k
    nw := r.nw + k }

/-- The loop of TopUp (R131), for at most the given number of rounds. -/
def State.topUpLoop : Nat → State → State
  | 0, s => s
  | fuel + 1, s =>
    if s.reader.nw = 32 then s
    else if s.reader.nr = 0 then
      if s.reader.idx = s.reader.lenLatched.toNat / 4 then s
      else
        let s1 := s.loadReservoir
        State.topUpLoop fuel (s1.setReader s1.reader.transfer)
    else State.topUpLoop fuel (s.setReader s.reader.transfer)

/-- TopUp (R131). Three rounds are enough: a round that does not fill W empties RS, and the next one fills W from a whole
dword. -/
def State.topUp (s : State) : State := s.topUpLoop 3

/-- Consume(n) (R131): W ← (W · 2^n) mod 2^32; NW ← NW − n; P ← P + n; TopUp. -/
def State.consume (n : Nat) (s : State) : State :=
  (s.setReader { s.reader with
    w := BitVec.ofNat 32 (s.reader.w.toNat * 2 ^ n)
    nw := s.reader.nw - n
    p := s.reader.p + BitVec.ofNat 32 n }).topUp

/-- Lookahead(n): the top n bits of W (R131). -/
def Reader.lookahead (r : Reader) (n : Nat) : Nat := r.w.toNat / 2 ^ (32 - n)

/-- Prime the reader over a buffer of the given length (R134): the old position and prefetch are discarded, and with them
the mark that the buffer changed under the reader (R304; log 8). -/
def State.prime (s : State) (len : Word) : State :=
  State.topUp { s with reader := { Reader.initial with rstate := .ready, lenLatched := len }, bufDirty := false }

/-- RequireReady (R132): NOT_READY(RSTATE) unless the reader is READY. A reader whose buffer the host changed since it was
primed has no defined content, and the model stops (70_reset_and_hazards.md R304; log 8). -/
def requireReady (s : State) (k : Result) : Result :=
  match s.reader.rstate with
  | .ready => if s.bufDirty then .fault .bufChangedWhilePrimed else k
  | .idle => .next (s.raise .notReady 0)
  | .faulted => .next (s.raise .notReady 2)

/-- RSTATE ← FAULTED; raise STREAM_OVERRUN(P) (R132). -/
def State.overrun (s : State) : State := s.faultReader.raise .streamOverrun s.reader.p

/-- RequireBits(n) (R132): STREAM_OVERRUN if P + n > 8·LEN_LATCHED, the sum taken without wrapping. -/
def requireBits (n : Nat) (s : State) (k : Result) : Result :=
  if s.reader.p.toNat + n > s.reader.streamLen then .next s.overrun else k

/-- The next n bits of the stream, or the fault of 10_state.md R53 if a byte of them is unwritten. -/
def withStreamBits (n : Nat) (s : State) (k : Nat → Result) : Result :=
  match streamBits s.mem s.reader.p.toNat n with
  | some v => k v
  | none => .fault (.unwritten .buf)

end Sys2Proof.Machine
end

