-- ==== Sys2Proof/Machine/Huffman.lean ====
section
/-! DEFINITION. The Huffman decoder: building a decode table (spec/41_huffman.md R160 to R166), decoding (R167, R168) and
probing (R169). -/

namespace Sys2Proof.Machine

/-- Why a build ends without a table. -/
inductive BuildStop where
  /-- MALFORMED_TABLE with the reason and the detail of R163 and R164. -/
  | malformed (reason detail : Nat)
  /-- An unwritten entry was read (10_state.md R53). -/
  | unwritten (m : MemName)
deriving DecidableEq, Repr

/-- info = reason·2^24 + detail (R163, 60_exceptions.md R262). -/
def malformedInfo (reason detail : Nat) : Word := BitVec.ofNat 32 (reason * 2 ^ 24 + detail)

/-- BITS[i] for the listed lengths i, stopping at the least i with BITS[i] ≥ 2^i (R163 check 2). The entries are read in
order, so an entry after the failing one is not read (log 11). -/
def readCounts (m : Memory) : List Nat → Except BuildStop (List Nat)
  | [] => .ok []
  | i :: is =>
    match m.readWord (MemName.htBits.wordAddr (i - 1)) with
    | none => .error (.unwritten .htBits)
    | some c =>
      if c.toNat ≥ 2 ^ i then .error (.malformed 2 i)
      else
        match readCounts m is with
        | .ok cs => .ok (c.toNat :: cs)
        | .error e => .error e

/-- The lengths 1 to 16. -/
def codeLengths : List Nat := List.range' 1 16

/-- Validate() (R163): checks 1, 2 and 3 in this order; the counts BITS[1..16] if all pass. -/
def validateCounts (m : Memory) (hvlen : Word) : Except BuildStop (List Nat) :=
  if hvlen.toNat > Config.hvCap then .error (.malformed 1 (hvlen.toNat % 2 ^ 24))
  else
    match readCounts m codeLengths with
    | .error e => .error e
    | .ok cs => if cs.sum ≠ hvlen.toNat then .error (.malformed 3 (cs.sum % 2 ^ 24)) else .ok cs

/-- Fill(s, L, code, sym): the 2^(16−L) lookaheads from code·2^(16−L) on hold (L, sym) (R165). -/
def fillRun (len code : Nat) (sym : Byte) : LutRun :=
  { base := code * 2 ^ (Config.lookaheadBits - len), len := len, sym := sym }

/-- The inner loop of Assign (R164) at length len: the given number of consecutive codewords from `code` on, their symbols
from HUFFVAL[k] on. Raises reason 4 when the code space of the length is exhausted. -/
def assignLength (m : Memory) (len : Nat) : Nat → Nat → Nat → Except BuildStop (List LutRun)
  | 0, _, _ => .ok []
  | j + 1, code, k =>
    if code ≥ 2 ^ len then .error (.malformed 4 len)
    else
      match m.read (MemName.huffval.byteAddr k) with
      | none => .error (.unwritten .huffval)
      | some sym =>
        match assignLength m len j (code + 1) (k + 1) with
        | .ok rest => .ok (fillRun len code sym :: rest)
        | .error e => .error e

/-- Assign(s) (R164) for the lengths from len on, with their counts: within a length consecutive integers, the code value
doubled at the step to the next length (the spec's own reading, 93_implementation_defined.md G2). -/
def assignCodes (m : Memory) : Nat → List Nat → Nat → Nat → Except BuildStop (List LutRun)
  | _, [], _, _ => .ok []
  | len, c :: cs, code, k =>
    match assignLength m len c code k with
    | .error e => .error e
    | .ok runs =>
      match assignCodes m (len + 1) cs ((code + c) * 2) (k + c) with
      | .ok rest => .ok (runs ++ rest)
      | .error e => .error e

/-- Validate and Assign (R162): the new table, or why there is none. Every lookahead outside the runs holds (0, 0). -/
def buildTable (m : Memory) (hvlen : Word) : Except BuildStop (List LutRun) :=
  match validateCounts m hvlen with
  | .error e => .error e
  | .ok cs => assignCodes m 1 cs 0 0

/-- The run covers lookahead v. -/
abbrev LutRun.Covers (r : LutRun) (v : Nat) : Prop :=
  r.base ≤ v ∧ v < r.base + 2 ^ (Config.lookaheadBits - r.len)

/-- Lookup(s, v) = (LEN(s)[v], SYM(s)[v]) (R161): (0, 0) where no codeword is a prefix of v. -/
def lookup (t : List LutRun) (v : Nat) : Nat × Byte :=
  match t.find? (fun r => decide (r.Covers v)) with
  | some r => (r.len, r.sym)
  | none => (0, 0)

/-- HT_BUILD s (R162): build slot s from HT_BITS, HVLEN and HUFFVAL. After a failure the slot is not valid and its arrays
are unspecified (log 7). -/
def execHtBuild (b : BitVec 4) (s : State) : Result :=
  requireSlot (.htBuild b) b s <|
    match buildTable s.mem s.hvlen with
    | .ok t => .next (s.setSlot (slotOperand b) (.valid t))
    | .error (.malformed reason detail) =>
      .next ((s.setSlot (slotOperand b) (.invalid none)).raise .malformedTable (malformedInfo reason detail))
    | .error (.unwritten m) => .fault (.unwritten m)

/-- DecodeLookahead() (R168), by HT_TAIL_MODE: 16 stream bits, or with ZERO_FILL the remaining bits and then zeros. -/
def decodeLookahead (s : State) (k : Nat → Result) : Result :=
  if s.reader.remaining ≥ 16 then withStreamBits 16 s k
  else
    match s.cfg.tailMode with
    | .strict => requireBits 16 s <| withStreamBits 16 s k
    | .zeroFill =>
      withStreamBits s.reader.remaining s fun v => k (v * 2 ^ (16 - s.reader.remaining))

/-- HT_DECODE after the lookahead v is known (R167): what the table says of it, and the reader moved on. -/
def finishDecode (t : List LutRun) (s : State) (v : Nat) : Result :=
  let e := lookup t v
  if e.1 = 0 then
    if s.reader.remaining < 16 then .next s.overrun
    else .next (s.faultReader.raise .invalidCode (BitVec.ofNat 32 v))
  else if e.1 > s.reader.remaining then .next s.overrun
  else .next ((s.setResult (BitVec.ofNat 32 (e.1 * 2 ^ 8 + e.2.toNat))).consume e.1)

/-- HT_DECODE s (R167): decode the next codeword. -/
def execHtDecode (b : BitVec 4) (s : State) : Result :=
  requireSlot (.htDecode b) b s <| requireTable b s fun t =>
    requireReady s <| decodeLookahead s fun v => finishDecode t s v

/-- RESULT of HT_PROBE: bit 31 "filled", bits 12:8 the length, bits 7:0 the symbol (R169). -/
def probeResult (e : Nat × Byte) : Word :=
  BitVec.ofNat 32 ((if e.1 ≠ 0 then 2 ^ 31 else 0) + e.1 * 2 ^ 8 + e.2.toNat)

/-- HT_PROBE s, v (R169): look up one lookahead value; the reader is not touched. -/
def execHtProbe (b : BitVec 4) (v : BitVec 16) (s : State) : Result :=
  requireSlot (.htProbe b v) b s <| requireTable b s fun t =>
    .next (s.setResult (probeResult (lookup t (lookaheadOperand v))))

end Sys2Proof.Machine
end

