-- ==== Sys2Proof/Machine/Idct.lean ====
section
/-! DEFINITION. The separable IDCT: pass 1 over the columns of the dequantized coefficients into WS, pass 2 over the rows
of WS into OUT (spec/43_idct.md R220 to R225). A block of 64 entries is a list in row-major order: entry (row r, column c)
is at index 8·r + c (R220). -/

namespace Sys2Proof.Machine

/-- Entry i of a block. -/
def entry (block : List Word) (i : Nat) : Word := block.getD i 0

/-- dequantize(i) = fixed_mul(QT[i], COEF[i]) (42_dequant_fixed.md R193). -/
def dequantized (qt coef : List Word) (i : Nat) : Word := fixedMul (entry qt i) (entry coef i)

/-- All AC coefficients (rows 1 to 7) of column x are zero: the fast path's test, on the raw coefficients (R222). -/
def acZero (coef : List Word) (x : Nat) : Bool :=
  (List.range' 1 7).all (fun r => entry coef (8 * r + x) == 0)

/-- The eight dequantized values of column x. -/
def dequantizedColumn (qt coef : List Word) (x : Nat) : Oct :=
  { c0 := dequantized qt coef x, c1 := dequantized qt coef (8 + x), c2 := dequantized qt coef (16 + x),
    c3 := dequantized qt coef (24 + x), c4 := dequantized qt coef (32 + x), c5 := dequantized qt coef (40 + x),
    c6 := dequantized qt coef (48 + x), c7 := dequantized qt coef (56 + x) }

/-- Descale each of eight values. -/
def Oct.descale (o : Oct) (n : Nat) : Oct :=
  { c0 := Machine.descale o.c0 n, c1 := Machine.descale o.c1 n, c2 := Machine.descale o.c2 n,
    c3 := Machine.descale o.c3 n, c4 := Machine.descale o.c4 n, c5 := Machine.descale o.c5 n,
    c6 := Machine.descale o.c6 n, c7 := Machine.descale o.c7 n }

/-- Column x of WS after pass 1 (R222): the fast path's one value for all rows, or the general path. -/
def pass1Column (qt coef : List Word) (x : Nat) : Oct :=
  if acZero coef x then
    let dc := descale (dequantized qt coef x) Config.constBits
    { c0 := dc, c1 := dc, c2 := dc, c3 := dc, c4 := dc, c5 := dc, c6 := dc, c7 := dc }
  else (butterfly (dequantizedColumn qt coef x)).descale Config.constBits

/-- WS after pass 1 (R222), in row-major order. -/
def pass1Block (qt coef : List Word) : List Word :=
  let columns := (List.range 8).map (pass1Column qt coef)
  (List.range 8).flatMap (fun r => columns.map (fun o => o.get r))

/-- Row y of WS. -/
def workspaceRow (ws : List Word) (y : Nat) : Oct :=
  { c0 := entry ws (8 * y), c1 := entry ws (8 * y + 1), c2 := entry ws (8 * y + 2), c3 := entry ws (8 * y + 3),
    c4 := entry ws (8 * y + 4), c5 := entry ws (8 * y + 5), c6 := entry ws (8 * y + 6), c7 := entry ws (8 * y + 7) }

/-- Row y of OUT after pass 2: each output descaled by PASS1_BITS + 3 and range-limited (R224). -/
def pass2Row (pass1Bits : Nat) (ws : List Word) (y : Nat) : List Byte :=
  (butterfly (workspaceRow ws y)).toList.map (fun o => rangeLimit (descale o (pass1Bits + 3)))

/-- OUT after pass 2 (R224), in row-major order. -/
def pass2Block (pass1Bits : Nat) (ws : List Word) : List Byte := (List.range 8).flatMap (pass2Row pass1Bits ws)

/-- The 64 entries of a word memory, or none if one is unwritten. -/
def State.block (s : State) (m : MemName) : Option (List Word) := s.mem.readWords m.base Config.blockSize

/-- Pass 1 (R222). Every entry of QT and COEF must have been written (70_reset_and_hazards.md R310: the host must "have
written every QT and COEF entry", also where the fast path uses only one of a column's QT entries; log 9). -/
def runPass1 (s : State) : Result :=
  match s.block .qt, s.block .coef with
  | some qt, some coef => .next (s.setMem (s.mem.storeWords MemName.ws.base (pass1Block qt coef)))
  | none, _ => .fault (.unwritten .qt)
  | some _, none => .fault (.unwritten .coef)

/-- Pass 2 (R224). -/
def runPass2 (s : State) : Result :=
  match s.block .ws with
  | some ws => .next (s.setMem (s.mem.store MemName.out.base (pass2Block s.cfg.pass1Bits ws)))
  | none => .fault (.unwritten .ws)

/-- IDCT_PASS1 (R222). -/
def execIdctPass1 (s : State) : Result := runPass1 s

/-- IDCT_PASS2 (R224). -/
def execIdctPass2 (s : State) : Result := runPass2 s

/-- IDCT_BLOCK (R225): pass 1, then pass 2. -/
def execIdctBlock (s : State) : Result := andThen (runPass1 s) runPass2

end Sys2Proof.Machine
end

