-- ==== Sys2Proof/Machine/Reader.lean ====
section
/-! DEFINITION. The bit reader's commands (spec/40_bitreader.md R134 to R138). -/

namespace Sys2Proof.Machine

/-- BR_INIT (R134): prime the reader over the first BR_LEN bytes of BUF. -/
def execBrInit (s : State) : Result :=
  if s.brLen.toNat % 4 ≠ 0 ∨ s.brLen.toNat > s.cfg.bufMaxBytes then .next (s.raise .badBufferLength s.brLen)
  else .next (s.prime s.brLen)

/-- BR_PEEK n (R135): the next n bits, not consumed. -/
def execBrPeek (n : BitVec 6) (s : State) : Result :=
  requireCount n s <| requireReady s <| requireBits (countOperand n) s <|
    withStreamBits (countOperand n) s fun v => .next (s.setResult (BitVec.ofNat 32 v))

/-- BR_READ n (R136): the next n bits, consumed. -/
def execBrRead (n : BitVec 6) (s : State) : Result :=
  requireCount n s <| requireReady s <| requireBits (countOperand n) s <|
    withStreamBits (countOperand n) s fun v => .next ((s.setResult (BitVec.ofNat 32 v)).consume (countOperand n))

/-- "while m > 0: k <- min(m, 31); Consume(k); m <- m - k" (R137), for at most the given number of chunks. -/
def State.skipLoop : Nat → Nat → State → State
  | 0, _, s => s
  | fuel + 1, m, s => if m = 0 then s else State.skipLoop fuel (m - min m 31) (s.consume (min m 31))

/-- BR_SKIP (R137): skip ARG bits; the whole request is checked before any bit is consumed. -/
def execBrSkip (s : State) : Result :=
  requireReady s <| requireBits s.skipCount s <| .next (State.skipLoop (s.skipCount / 31 + 1) s.skipCount s)

/-- BR_POS (R138): RESULT ← P. -/
def execBrPos (s : State) : Result := requireReady s <| .next (s.setResult s.reader.p)

end Sys2Proof.Machine
end

