-- ==== Sys2Proof/Machine/Dispatch.lean ====
section
/-! DEFINITION. The meaning of every command, one arm for each row of the opcode table (spec/30_encoding.md R108). -/

namespace Sys2Proof.Machine

def exec (i : Instr) (s : State) : Host.Outcome State Fault Refusal :=
  match i with
  | .nop => Sys2Proof.Machine.execNop s
  | .brInit => Sys2Proof.Machine.execBrInit s
  | .brPeek n => Sys2Proof.Machine.execBrPeek n s
  | .brRead n => Sys2Proof.Machine.execBrRead n s
  | .brSkip => Sys2Proof.Machine.execBrSkip s
  | .brPos => Sys2Proof.Machine.execBrPos s
  | .htBuild b => Sys2Proof.Machine.execHtBuild b s
  | .htDecode b => Sys2Proof.Machine.execHtDecode b s
  | .htProbe b v => Sys2Proof.Machine.execHtProbe b v s
  | .dqCoef k => Sys2Proof.Machine.execDqCoef k s
  | .fxMul => Sys2Proof.Machine.execFxMul s
  | .fxDescale n => Sys2Proof.Machine.execFxDescale n s
  | .fxRlimit => Sys2Proof.Machine.execFxRlimit s
  | .idctPass1 => Sys2Proof.Machine.execIdctPass1 s
  | .idctPass2 => Sys2Proof.Machine.execIdctPass2 s
  | .idctBlock => Sys2Proof.Machine.execIdctBlock s
  | .clearErr => Sys2Proof.Machine.execClearErr s
  | .softReset => Sys2Proof.Machine.execSoftReset s

end Sys2Proof.Machine
end

