-- ==== Sys2Proof/Machine/HostBus.lean ====
section
/-! DEFINITION. The host's side of a step: reads and writes of the aperture (spec/20_memory.md R70 to R79), the issue of a
command word (spec/30_encoding.md R113), the busy stall (spec/20_memory.md R86) and hardware reset
(spec/70_reset_and_hazards.md R300). -/

namespace Sys2Proof.Machine

/-- The value of a register as the host reads it (10_state.md R32 to R40): CMD reads 0. -/
def State.regValue (s : State) : Reg → Word
  | .cmd => 0
  | .arg => s.arg
  | .arg2 => s.arg2
  | .status => s.statusWord
  | .result => s.result
  | .errInfo => s.errInfo
  | .brLen => s.brLen
  | .hvlen => s.hvlen
  | .config => configWord s.cfg

/-- The host's read completes with a value (log 2). -/
def State.reply (s : State) (v : Word) : State := { s with replies := v :: s.replies }

/-- A host read of an aligned word (R72 to R78). An unmapped offset gives any value, an unwritten byte of a memory gives
any byte (R78, 10_state.md R53): free values (log 5). Reads change nothing in the block. -/
def State.hostRead (s : State) (off : Nat) : State :=
  match placeAt s.cfg off with
  | .reg r => s.reply (s.regValue r)
  | .mem _ =>
    match s.mem.readWord off with
    | some v => s.reply v
    | none => (s.reply (s.mem.readWordOr off (Config.freeWord s.freeCount))).drawFree
  | .unmapped => (s.reply (Config.freeWord s.freeCount)).drawFree

/-- A host write of a register other than CMD: the read-write registers take the value, the read-only ones ignore it
(R78, 10_state.md R33 to R40). -/
def State.writeReg (s : State) (v : Word) : Reg → State
  | .arg => { s with arg := v }
  | .arg2 => { s with arg2 := v }
  | .brLen => { s with brLen := v }
  | .hvlen => { s with hvlen := v }
  | .cmd | .status | .result | .errInfo | .config => s

/-- The offset is that of a BUF word d < LEN_LATCHED/4 while the reader is READY: the write the host must not make
(70_reset_and_hazards.md R304). -/
abbrev State.PrimedWord (s : State) (off : Nat) : Prop :=
  s.reader.rstate = .ready ∧ MemName.buf.base ≤ off ∧ (off - MemName.buf.base) / 4 < s.reader.lenLatched.toNat / 4

/-- A host write of an aligned word of a memory: stored whole if the host may write the memory, ignored otherwise (R78,
R79, R84). A write under a primed reader is marked (R304; log 8). -/
def State.writeMem (s : State) (m : MemName) (off : Nat) (v : Word) : State :=
  if m.hostWritable then
    { s with mem := s.mem.storeWord off v, bufDirty := s.bufDirty || decide (s.PrimedWord off) }
  else s

/-- The words that execute while STATUS.ERR = 1: NOP, CLEAR_ERR and SOFT_RESET (30_encoding.md R113). -/
abbrev ExecutesUnderError (v : Word) : Prop := v = 0x00000000 ∨ v = 0xF0000000 ∨ v = 0xFF000000

/-- Issue(v) (30_encoding.md R113): while an error is recorded every other word is dropped; an illegal word raises
ILLEGAL_COMMAND(v); a legal one executes. The slot check stands in the meanings (`requireSlot`). -/
def issue (v : Word) (s : State) : Result :=
  if s.err.isSome ∧ ¬ ExecutesUnderError v then .next s
  else
    match decode v with
    | .ok i => exec i s
    | .error _ => .next (s.raise .illegalCommand v)

/-- A host write to CMD (20_memory.md R86): BUSY is 1 from the write until the command's last state change, then 0. -/
def writeCmd (v : Word) (s : State) : Result := mapNext (fun t => t.setBusy false) (issue v (s.setBusy true))

/-- A host write of an aligned word (R72, R78). -/
def hostWrite (off : Nat) (v : Word) (s : State) : Result :=
  match placeAt s.cfg off with
  | .reg .cmd => writeCmd v s
  | .reg r => .next (s.writeReg v r)
  | .mem m => .next (s.writeMem m off v)
  | .unmapped => .next s

/-- The offset of a supported access: in the aperture (R70), 32 bits wide and aligned (R71). -/
def withAccess (addr bytes : Nat) (s : State) (k : Nat → Result) : Result :=
  match offsetOf s.cfg addr with
  | none => .fault .outsideAperture
  | some off => if bytes = 4 ∧ off % 4 = 0 then k off else .refused .unsupportedAccess

/-- One request of the outside world on the block. -/
def serve (r : HostRequest) (s : State) : Result :=
  match r with
  | .read addr bytes => withAccess addr bytes s fun off => .next (s.hostRead off)
  | .write addr bytes v => withAccess addr bytes s fun off => hostWrite off v s
  | .reset => .next s.hardReset

/-- While BUSY = 1 every host access but a read of STATUS waits (R86); a reset does not. -/
def stalls (s : State) (r : HostRequest) : Bool :=
  s.busy &&
    match r with
    | .read addr _ => decide (offsetOf s.cfg addr ≠ some Reg.status.offset)
    | .write _ _ _ => true
    | .reset => false

/-- The block's step: it serves the oldest request; with none it is idle (70_reset_and_hazards.md R300,
60_exceptions.md R277; log 2). -/
def hostStep (s : State) : Result :=
  match s.requests with
  | [] => .next s
  | r :: rest => if stalls s r then .next s else serve r { s with requests := rest }

/-- The host's write of a command word to CMD, as a request (20_memory.md R70, R72). -/
def cmdRequest (c : Config) (v : Word) : HostRequest := .write (c.hdteBase + Reg.cmd.offset) 4 v

end Sys2Proof.Machine
end

