-- ==== Sys2Proof/Machine/Step.lean ====
section
/-! DEFINITION. One step of the machine, and how a command is placed for the next step. The block fetches no instructions
(spec/10_state.md R31, spec/20_memory.md R89): a command comes to run when the host writes its word to CMD. -/

namespace Sys2Proof.Machine

/-- One step: the oldest request of the outside world, a command among them as one step (20_memory.md R86). -/
def step (s : State) : Host.Outcome State Fault Refusal := hostStep s

/-- The next request is a host write of the command word to CMD, and no command is executing (log 2). -/
def State.withFetchWord (s : State) (nbits w : Nat) : State :=
  { s with requests := cmdRequest s.cfg (tableWord nbits w) :: s.requests, busy := false }

end Sys2Proof.Machine
end

