-- ==== Sys2Proof/Machine/HostProgram.lean ====
section
/-! DEFINITION. The host-program notation and the pseudo-instructions of spec/30_encoding.md R115 and R116, as lists of
requests. CHECK is a test of the host on a STATUS it has read, not an access of its own beyond that read. -/

namespace Sys2Proof.Machine.HostProgram

/-- `WR name, value` for a register (R115). -/
def wrReg (c : Config) (r : Reg) (v : Word) : HostRequest := .write (c.hdteBase + r.offset) 4 v

/-- `RD name` for a register (R115). -/
def rdReg (c : Config) (r : Reg) : HostRequest := .read (c.hdteBase + r.offset) 4

/-- `WR name[i], value` for word i of a memory's window: QT[i], COEF[i], HT_BITS[i+1], BUFW[i], HVW[i] (R115). -/
def wrEntry (c : Config) (m : MemName) (i : Nat) (v : Word) : HostRequest := .write (c.hdteBase + m.wordAddr i) 4 v

/-- `RD name[i]` for word i of a memory's window (R115). -/
def rdEntry (c : Config) (m : MemName) (i : Nat) : HostRequest := .read (c.hdteBase + m.wordAddr i) 4

/-- `CMD text` is `WR CMD, <encoding of text>` (R115). -/
def cmd (c : Config) (i : Instr) : HostRequest := cmdRequest c (encode i)

/-- `SKIP m` (R116). -/
def skip (c : Config) (m : Word) : List HostRequest := [wrReg c .arg m, cmd c .brSkip]

/-- `MUL a, b` (R116). -/
def mul (c : Config) (a b : Word) : List HostRequest :=
  [wrReg c .arg a, wrReg c .arg2 b, cmd c .fxMul, rdReg c .result]

/-- `DESCALE x, n` (R116). -/
def descale (c : Config) (x : Word) (n : BitVec 6) : List HostRequest :=
  [wrReg c .arg x, cmd c (.fxDescale n), rdReg c .result]

/-- `RLIM x` (R116). -/
def rlim (c : Config) (x : Word) : List HostRequest := [wrReg c .arg x, cmd c .fxRlimit, rdReg c .result]

/-- `DECODE s` (R116). -/
def decodeSlot (c : Config) (s : BitVec 4) : List HostRequest := [cmd c (.htDecode s), rdReg c .result]

/-- Bytes packed four in a word, most significant first, the last word filled with zeros (R79, R116). -/
def packWords : List Byte → List Word
  | [] => []
  | [b0] => [wordOfBytes b0 0 0 0]
  | [b0, b1] => [wordOfBytes b0 b1 0 0]
  | [b0, b1, b2] => [wordOfBytes b0 b1 b2 0]
  | b0 :: b1 :: b2 :: b3 :: bs => wordOfBytes b0 b1 b2 b3 :: packWords bs

/-- Words written to consecutive entries of a window, from entry i on. -/
def wrWords (c : Config) (m : MemName) : Nat → List Word → List HostRequest
  | _, [] => []
  | i, v :: vs => wrEntry c m i v :: wrWords c m (i + 1) vs

/-- `LOADBUF b0, …` (R116). -/
def loadBuf (c : Config) (bs : List Byte) : List HostRequest :=
  wrWords c .buf 0 (packWords bs) ++ [wrReg c .brLen (BitVec.ofNat 32 bs.length), cmd c .brInit]

/-- `LOADHT s, BITS[1..16], HUFFVAL[0..K−1]` (R116). -/
def loadHt (c : Config) (s : BitVec 4) (bits : List Word) (symbols : List Byte) : List HostRequest :=
  wrWords c .htBits 0 bits ++ wrWords c .huffval 0 (packWords symbols) ++
    [wrReg c .hvlen (BitVec.ofNat 32 symbols.length), cmd c (.htBuild s)]

/-- The read of `CHECK`, and its test on the value read (R116). -/
def check (c : Config) : HostRequest := rdReg c .status

/-- "the program continues only if x[1] = 0" (R116). -/
def checkPasses (x : Word) : Bool := !x.getLsbD 1

end Sys2Proof.Machine.HostProgram
end

