-- ==== Sys2Proof/WellFormed.lean ====
section
/-! DEFINITION. Which commands are legal on a block with given parameters (spec/30_encoding.md R111, R112). The widths of
the fields are in the types of `Instr`; the one check left is that a slot named by the command exists. -/

namespace Sys2Proof

/-- A command is well formed when its slot field, if it has one, is below NHT (R111). -/
def Instr.wellFormed (c : Config) (i : Instr) : Bool :=
  match i.slot with
  | none => true
  | some s => decide (s.toNat < c.nht)

end Sys2Proof
end

