-- ==== Sys2Proof/Safety.lean ====
section
/-! DEFINITION. What claims are stated in: the invariants of the machine, the terms of the stream and of the decode table
that the rules use, and what a safe run is. -/

namespace Sys2Proof.Machine

/-- A run of a decode table is legal: a code length of 1 to 16, an aligned range within the 65536 lookaheads
(10_state.md R51, 41_huffman.md R165). -/
abbrev LutRun.Legal (r : LutRun) : Prop :=
  1 ≤ r.len ∧ r.len ≤ 16 ∧ r.base % 2 ^ (16 - r.len) = 0 ∧ r.base + 2 ^ (16 - r.len) ≤ 65536

/-- The runs of a decode table are legal, and each ends before the next begins: "distinct codewords fill disjoint ranges"
(41_huffman.md R166). -/
abbrev TableLegal (t : List LutRun) : Prop :=
  (∀ r ∈ t, r.Legal) ∧ t.Pairwise (fun r q => r.base + 2 ^ (16 - r.len) ≤ q.base)

/-- The table of a slot, if it holds one. -/
def Slot.table : Slot → List LutRun
  | .invalid none => []
  | .invalid (some t) => t
  | .valid t => t

/-- There are NHT slots (10_state.md R51) and the tables in them are legal. -/
abbrev State.SlotsLegal (s : State) : Prop := s.slots.length = s.cfg.nht ∧ ∀ x ∈ s.slots, TableLegal x.table

/-- The memories keep their canonical form, and every written byte belongs to a wholly written, aligned word of a memory's
window (20_memory.md R72, R84). -/
abbrev State.MemoryLegal (s : State) : Prop :=
  s.mem.wf ∧ ∀ c ∈ s.mem, memAt s.cfg c.1 ≠ none ∧
    ∀ j < 4, (s.mem.read (c.1 / 4 * 4 + j)).isSome

/-- The error record: ERR = 0 leaves ERRCODE and ERRINFO 0 (10_state.md R35, R37). -/
abbrev State.ErrorLegal (s : State) : Prop := s.err = none → s.errInfo = 0

/-- The valid bits of W and RS are the stream bits from P on, wherever those are written; the bits below are zero
(10_state.md R50 (b), 40_bitreader.md R131). -/
abbrev State.PrefetchBits (s : State) : Prop :=
  (∀ i < 32, i < s.reader.nw →
    streamBit s.mem (s.reader.p.toNat + i) = none ∨
    streamBit s.mem (s.reader.p.toNat + i) = some (s.reader.w.getLsbD (31 - i))) ∧
  (∀ i < 32, i < s.reader.nr →
    streamBit s.mem (s.reader.p.toNat + s.reader.nw + i) = none ∨
    streamBit s.mem (s.reader.p.toNat + s.reader.nw + i) = some (s.reader.rs.getLsbD (31 - i)))

/-- The counts of the prefetch state (10_state.md R48, R50 (a) and (c), 40_bitreader.md R131): P = 32·IDX − NW − NR,
NW = min(32, REM), NR = 0 whenever NW < 32, and the invalid low bits of W and RS are zero. -/
abbrev State.PrefetchCounts (s : State) : Prop :=
  s.reader.lenLatched.toNat % 4 = 0 ∧ s.reader.lenLatched.toNat ≤ s.cfg.bufMaxBytes ∧
  s.reader.idx ≤ s.reader.lenLatched.toNat / 4 ∧
  s.reader.p.toNat + s.reader.nw + s.reader.nr = 32 * s.reader.idx ∧
  s.reader.p.toNat ≤ s.reader.streamLen ∧
  s.reader.nw = min 32 (s.reader.streamLen - s.reader.p.toNat) ∧
  (s.reader.nw < 32 → s.reader.nr = 0) ∧ s.reader.nr < 32 ∧
  s.reader.w.toNat % 2 ^ (32 - s.reader.nw) = 0 ∧ s.reader.rs.toNat % 2 ^ (32 - s.reader.nr) = 0

/-- The invariant between the prefetch state and P while RSTATE = READY (10_state.md R50); its part (b) while the host
keeps its duty not to change the primed buffer (70_reset_and_hazards.md R304). -/
abbrev State.PrefetchHolds (s : State) : Prop :=
  s.reader.rstate = .ready → s.PrefetchCounts ∧ (s.bufDirty = false → s.PrefetchBits)

/-- The invariant of the machine between steps. -/
abbrev State.Inv (s : State) : Prop :=
  s.cfg.Legal ∧ s.busy = false ∧ s.ErrorLegal ∧ s.SlotsLegal ∧ s.MemoryLegal ∧ s.PrefetchHolds

/-- The block is idle between commands and the next thing the outside world does is a host write of v to CMD
(20_memory.md R86, 30_encoding.md R113). -/
abbrev State.Issues (s : State) (v : Word) (rest : List HostRequest) : Prop :=
  s.busy = false ∧ s.requests = cmdRequest s.cfg v :: rest

/-- The offset is a word of the aperture that the host can reach (20_memory.md R70, R71). -/
abbrev AlignedOffset (off : Nat) : Prop := off < Config.apertureBytes ∧ off % 4 = 0

/-- The block is idle and the next request is a host write of v to the word at the offset. -/
abbrev State.Writes (s : State) (off : Nat) (v : Word) (rest : List HostRequest) : Prop :=
  s.busy = false ∧ AlignedOffset off ∧ s.requests = .write (s.cfg.hdteBase + off) 4 v :: rest

/-- The block is idle and the next request is a host read of the word at the offset. -/
abbrev State.Reads (s : State) (off : Nat) (rest : List HostRequest) : Prop :=
  s.busy = false ∧ AlignedOffset off ∧ s.requests = .read (s.cfg.hdteBase + off) 4 :: rest

/-- The reader is primed and its buffer has not been changed since (40_bitreader.md R132, 70_reset_and_hazards.md R304). -/
abbrev State.Primed (s : State) : Prop := s.reader.rstate = .ready ∧ s.bufDirty = false

/-- n bits of the stream remain from P on (40_bitreader.md R132). -/
abbrev State.Remain (s : State) (n : Nat) : Prop := s.reader.p.toNat + n ≤ s.reader.streamLen

/-- The n stream bits from bit p on stand in written bytes (10_state.md R53). -/
abbrev StreamWritten (m : Memory) (p n : Nat) : Prop := ∀ k < n, (streamBit m (p + k)).isSome

/-- v is the number whose n bits are the stream bits from bit p on, the first the most significant (00_scope.md R15). -/
abbrev IsStreamBits (m : Memory) (p n : Nat) (v : Word) : Prop :=
  (∀ j < n, streamBit m (p + (n - 1 - j)) = some (v.getLsbD j)) ∧ ∀ j < 32, n ≤ j → v.getLsbD j = false

/-- t is s after the reader has consumed n bits: P + n, the hidden prefetch state and the count of free values as t has
them, and everything else as in s. -/
abbrev MovedBy (n : Word) (s t : State) : Prop :=
  t = { s with
        reader := { s.reader with p := s.reader.p + n, w := t.reader.w, nw := t.reader.nw, rs := t.reader.rs,
                                  nr := t.reader.nr, idx := t.reader.idx }
        freeCount := t.freeCount }

/-- The stream from bit p on begins with the codewords of the listed runs, one after the other (41_huffman.md R170). -/
def SpellsCodewords (m : Memory) : Nat → List LutRun → Prop
  | _, [] => True
  | p, r :: rs => streamBits m p r.len = some (r.base / 2 ^ (16 - r.len)) ∧ SpellsCodewords m (p + r.len) rs

/-- Successive HT_DECODE commands on slot b take s to t and return the listed runs' lengths and symbols, each moving P by
the codeword's length (41_huffman.md R170). -/
def DecodesTo (b : BitVec 4) : List LutRun → State → State → Prop
  | [], s, t => t = s
  | r :: rs, s, t =>
    ∃ u, exec (.htDecode b) s = .next u ∧ u.result = BitVec.ofNat 32 (r.len * 256 + r.sym.toNat) ∧
      u.reader.p.toNat = s.reader.p.toNat + r.len ∧ DecodesTo b rs u t

/-- BITS[L] of a list of the counts of lengths 1 to 16. -/
def countOf (cs : List Nat) (len : Nat) : Nat := cs.getD (len - 1) 0

/-- The first canonical codeword of length len: the sum over the shorter lengths l of BITS[l]·2^(len−l). -/
def firstCode (cs : List Nat) (len : Nat) : Nat :=
  ((List.range (len - 1)).map (fun l => cs.getD l 0 * 2 ^ (len - 1 - l))).sum

/-- The number of codewords shorter than len: where the symbols of length len begin in HUFFVAL. -/
def firstSymbol (cs : List Nat) (len : Nat) : Nat := (cs.take (len - 1)).sum

/-- The code space the counts use up to length len, in codewords of that length: firstCode plus BITS[len]. -/
def codeSpace (cs : List Nat) (len : Nat) : Nat := firstCode cs len + countOf cs len

/-- The counts loaded in memory (10_state.md R42, 41_huffman.md R160): sixteen written entries of HT_BITS, each below 2^L,
whose sum is HVLEN and at most 256. -/
abbrev CountsLoaded (s : State) (cs : List Nat) : Prop :=
  cs.length = 16 ∧
  (∀ i < 16, ∃ c, s.mem.readWord (MemName.htBits.wordAddr i) = some c ∧ c.toNat = cs.getD i 0 ∧
    c.toNat < 2 ^ (i + 1)) ∧
  cs.sum = s.hvlen.toNat ∧ s.hvlen.toNat ≤ 256

/-- The Huffman specification loaded in memory: the counts, and the symbols HUFFVAL[0..HVLEN−1] written. -/
abbrev SpecLoaded (s : State) (cs : List Nat) : Prop :=
  CountsLoaded s cs ∧ ∀ k < s.hvlen.toNat, (s.mem.read (MemName.huffval.byteAddr k)).isSome

/-- The 16-bit lookahead HT_DECODE uses is v (41_huffman.md R168): 16 stream bits where 16 remain; with ZERO_FILL and
fewer, the remaining bits and then zeros. -/
abbrev LookaheadIs (s : State) (v : Nat) : Prop :=
  (16 ≤ s.reader.remaining ∧ streamBits s.mem s.reader.p.toNat 16 = some v) ∨
  (s.reader.remaining < 16 ∧ s.cfg.tailMode = .zeroFill ∧
    ∃ u, streamBits s.mem s.reader.p.toNat s.reader.remaining = some u ∧ v = u * 2 ^ (16 - s.reader.remaining))

/-- The reader's fields have the reset values of 10_state.md R52. -/
abbrev Reader.AtReset (r : Reader) : Prop :=
  r.rstate = .idle ∧ r.p = 0 ∧ r.lenLatched = 0 ∧ r.w = 0 ∧ r.nw = 0 ∧ r.rs = 0 ∧ r.nr = 0 ∧ r.idx = 0

/-- The block's state has the reset values of 10_state.md R52: every register 0, STATUS 0, the reader IDLE, every memory
byte unwritten (R53), and NHT slots, none valid. The arrays of the slots are unspecified (R51; log 7). -/
abbrev State.AtReset (s : State) : Prop :=
  s.arg = 0 ∧ s.arg2 = 0 ∧ s.result = 0 ∧ s.errInfo = 0 ∧ s.brLen = 0 ∧ s.hvlen = 0 ∧ s.statusWord = 0 ∧
  s.reader.AtReset ∧ (∀ a, s.mem.read a = none) ∧ s.slots.length = s.cfg.nht ∧ ∀ k, s.slot k = .invalid none

/-- The offset lies in a word memory that the host may write: HT_BITS, QT or COEF (20_memory.md R72, R73, R75). -/
abbrev InWordWindow (off : Nat) : Prop := (0x100 ≤ off ∧ off < 0x140) ∨ (0x400 ≤ off ∧ off < 0x600)

/-- The offset lies in a byte memory that the host may write: HUFFVAL or the mapped part of BUF (20_memory.md R72, R74,
R77). -/
abbrev InByteWindow (c : Config) (off : Nat) : Prop :=
  (0x200 ≤ off ∧ off < 0x300) ∨ (0x40000 ≤ off ∧ off < 0x40000 + c.bufMaxBytes)

/-- The offset lies in a memory that the host may only read: WS or OUT (20_memory.md R72, R75, R76). -/
abbrev InReadOnlyWindow (off : Nat) : Prop := 0x600 ≤ off ∧ off < 0x740

/-- The offset is unmapped: the unmapped rows of 20_memory.md R72, and the words of the BUF window at or beyond
BUF_MAX_BYTES/4 (R77). -/
abbrev Unmapped (c : Config) (off : Nat) : Prop :=
  (0x024 ≤ off ∧ off < 0x100) ∨ (0x140 ≤ off ∧ off < 0x200) ∨ (0x300 ≤ off ∧ off < 0x400) ∨
  (0x740 ≤ off ∧ off < 0x40000) ∨ 0x40000 + c.bufMaxBytes ≤ off

/-- The memories a command reads: the `reads` column of 20_memory.md R92. -/
def memoriesRead : Instr → List MemName
  | .brInit | .brPeek _ | .brRead _ | .brSkip | .htDecode _ => [.buf]
  | .htBuild _ => [.htBits, .huffval]
  | .dqCoef _ | .idctPass1 | .idctBlock => [.qt, .coef]
  | .idctPass2 => [.ws]
  | .nop | .brPos | .htProbe _ _ | .fxMul | .fxDescale _ | .fxRlimit | .clearErr | .softReset => []

/-- A reserved opcode: the 238 values R109 lists (30_encoding.md). -/
abbrev ReservedOpcode (op : Nat) : Prop :=
  (0x06 ≤ op ∧ op ≤ 0x0F) ∨ (0x13 ≤ op ∧ op ≤ 0x1F) ∨ (0x24 ≤ op ∧ op ≤ 0x2F) ∨ (0x33 ≤ op ∧ op ≤ 0xEF) ∨
  (0xF1 ≤ op ∧ op ≤ 0xFE)

/-- fixed_mul on mathematical integers: wrap32 of the product, then floor division by 2^8 (42_dequant_fixed.md R192). -/
def fixedMulInt (a b : Int) : Int := Int.bmod (a * b) (2 ^ 32) / 2 ^ 8

/-- range_limit on mathematical integers: clamp(x + 128, 0, 255) (42_dequant_fixed.md R194). -/
def rangeLimitInt (x : Int) : Int := max 0 (min 255 (x + 128))

/-- A run of k steps is safe when it ends in a next state: no fault and no refusal on the way. -/
def SafeRun (k : Nat) (s : State) : Prop := ∃ t, Host.Core.run Sys2Proof.core k s = .next t

end Sys2Proof.Machine
end

