-- ==== Sys2Proof/Certificates/Slice0/Obligations.lean ====
section
/-! DEFINITION. The statements for the provers. The docstring of each says which rule of spec/ it formalises; a statement
that rests on a choice of the model's names the log entry. -/

open Sys2Proof Sys2Proof.Machine

/-! ### Encoding -/

/-- Words written out from the formats and opcodes of R102 to R108 (and R114's example) decode to their commands. -/
def Obligations.SpecWordsDecode : Prop :=
  decode 0x00000000 = .ok .nop ∧ decode 0x01000000 = .ok .brInit ∧ decode 0x02000004 = .ok (.brPeek 4) ∧
  decode 0x0300001F = .ok (.brRead 31) ∧ decode 0x04000000 = .ok .brSkip ∧ decode 0x05000000 = .ok .brPos ∧
  decode 0x10000001 = .ok (.htBuild 1) ∧ decode 0x11000001 = .ok (.htDecode 1) ∧
  decode 0x1210BFFF = .ok (.htProbe 1 0xBFFF) ∧ decode 0x20000005 = .ok (.dqCoef 5) ∧
  decode 0x22000008 = .ok (.fxDescale 8) ∧ decode 0x32000000 = .ok .idctBlock ∧
  decode 0xF0000000 = .ok .clearErr ∧ decode 0xFF000000 = .ok .softReset

/-- Decoding the word of any command, with every operand at every value, gives the command back (R101 to R108). -/
def Obligations.DecodeOfEncodeIsIdentity : Prop := ∀ i : Instr, decode (encode i) = .ok i

/-- A word that decodes is the word of the command it decodes to: no bit of a legal word is ignored (R108, R110). -/
def Obligations.EncodeOfDecodeIsIdentity : Prop := ∀ (v : Word) (i : Instr), decode v = .ok i → encode i = v

/-- R108, R112: at most one row of the opcode map selects a word, and the words that decode are those a row selects. -/
def Obligations.OpcodeMapIsUnambiguousAndTotal : Prop :=
  (∀ (v : Word) (r q : OpcodeRow), r ∈ opcodeMap → q ∈ opcodeMap → r.Selects v → q.Selects v → r.opcode = q.opcode) ∧
  ∀ v : Word, (∃ i, decode v = .ok i) ↔ ∃ r ∈ opcodeMap, r.Selects v

/-! ### Issue, errors and control -/

/-- R113, R86: a step on a host write of a legal word to CMD executes the decoded command, with BUSY set around it; and a
command placed by `withFetchWord` is the one the next step runs. -/
def Obligations.StepRunsTheDecodedCommand : Prop :=
  (∀ (s : State) (v : Word) (rest : List HostRequest) (i : Instr),
    s.Issues v rest → (s.err = none ∨ ExecutesUnderError v) → decode v = .ok i →
    step s = mapNext (fun t => t.setBusy false) (exec i { s with requests := rest, busy := true })) ∧
  ∀ (s : State) (nbits w : Nat) (i : Instr), decodeTableWord nbits w = some i → s.err = none →
    step (s.withFetchWord nbits w) = mapNext (fun t => t.setBusy false) (exec i { s with busy := true })

/-- R109, R110: a reserved opcode, or an assigned opcode with a nonzero bit where its format marks `0`, raises
ILLEGAL_COMMAND with ERRINFO = the command word, and changes no other state. -/
def Obligations.IllegalWordRaisesIllegalCommand : Prop :=
  ∀ (s : State) (v : Word) (rest : List HostRequest), s.Issues v rest → s.err = none →
    ReservedOpcode (opcodeField v).toNat ∨
      (∃ r ∈ opcodeMap, ∃ k < 24, opcodeField v = r.opcode ∧ r.mask.getLsbD k = true ∧ v.getLsbD k = true) →
    step s = .next { s with requests := rest, err := some .illegalCommand, errInfo := v }

/-- R111: a command whose slot field is NHT or more raises ILLEGAL_COMMAND with ERRINFO = the command word, and changes no
other state. -/
def Obligations.AbsentSlotRaisesIllegalCommand : Prop :=
  ∀ (s : State) (v : Word) (rest : List HostRequest) (i : Instr),
    s.Issues v rest → s.err = none → decode v = .ok i → i.wellFormed s.cfg = false →
    step s = .next { s with requests := rest, err := some .illegalCommand, errInfo := v }

/-- R264: while ERR = 1 a word other than the three is dropped and changes nothing; NOP, CLEAR_ERR and SOFT_RESET
execute. -/
def Obligations.RecordedErrorBlocksOtherCommands : Prop :=
  ∀ (s : State) (v : Word) (rest : List HostRequest) (e : ErrCode), s.Issues v rest → s.err = some e →
    (v ≠ 0x00000000 → v ≠ 0xF0000000 → v ≠ 0xFF000000 → step s = .next { s with requests := rest }) ∧
    (v = 0x00000000 → step s = .next { s with requests := rest }) ∧
    (v = 0xF0000000 → step s = .next { s with requests := rest, err := none, errInfo := 0 }) ∧
    (v = 0xFF000000 → step s = .next ({ s with requests := rest } : State).softReset)

/-- R250, R251: NOP reads and writes no state; CLEAR_ERR sets ERR, ERRCODE and ERRINFO to 0 and changes nothing else. -/
def Obligations.NopAndClearErr : Prop :=
  decode 0x00000000 = .ok .nop ∧ decode 0xF0000000 = .ok .clearErr ∧
  ∀ s : State, exec .nop s = .next s ∧ exec .clearErr s = .next { s with err := none, errInfo := 0 }

/-- R252, R52: SOFT_RESET takes the registers, the error record, the reader and every VALID bit to their reset values and
leaves the memories, the contents of the slots' arrays and CONFIG. The mark `bufDirty` is the model's (log 8). -/
def Obligations.SoftResetKeepsMemoriesOnly : Prop :=
  ∀ s : State, ∃ t, exec .softReset s = .next t ∧
    t = { s with
          arg := 0, arg2 := 0, result := 0, errInfo := 0, brLen := 0, hvlen := 0, err := none,
          reader := t.reader, slots := t.slots, bufDirty := false } ∧
    t.reader.AtReset ∧
    (∀ k, (t.slot k).isValid = false ∧ (t.slot k).table = (s.slot k).table) ∧
    (s.busy = false → t.statusWord = 0)

/-- R300, R52, R53: hardware reset at any time gives every register, the reader and the slots their reset values, STATUS 0,
and leaves every memory entry unwritten; what is outside the block stays (log 13), and the mark `bufDirty` is taken back
(log 8). `State.reset` has the same values, with the default parameters of R11 and HDTE_BASE 0, which R11 leaves open
(log 1). -/
def Obligations.HardwareResetGivesResetState : Prop :=
  (∀ (s : State) (rest : List HostRequest), s.requests = .reset :: rest → ∃ t, step s = .next t ∧
    t.AtReset ∧ t.bufDirty = false ∧ t.cfg = s.cfg ∧ t.requests = rest ∧ t.replies = s.replies) ∧
  State.reset.AtReset ∧ State.reset.bufDirty = false ∧
  State.reset.cfg = { pass1Bits := 2, nht := 2, bufMaxBytes := 65536, tailMode := .strict, hdteBase := 0 }

/-! ### The bit reader -/

/-- R134: BR_INIT over a legal length primes the reader at P = 0 with the length latched; the prefetch holds the first
dword; the mark of a changed buffer is taken back (log 8); nothing else changes. Over a length that is no multiple of 4 or
exceeds BUF_MAX_BYTES it raises BAD_BUFFER_LENGTH(BR_LEN) and leaves the reader as it was. -/
def Obligations.BrInitPrimesTheReader : Prop :=
  (∀ s : State, s.brLen.toNat % 4 = 0 → s.brLen.toNat ≤ s.cfg.bufMaxBytes → ∃ t, exec .brInit s = .next t ∧
    t = { s with reader := t.reader, bufDirty := false, freeCount := t.freeCount } ∧
    t.reader.rstate = .ready ∧ t.reader.p = 0 ∧ t.reader.lenLatched = s.brLen ∧ t.reader.nr = 0 ∧
    (s.brLen = 0 → t.reader.nw = 0 ∧ t.reader.idx = 0) ∧
    (s.brLen ≠ 0 → t.reader.nw = 32 ∧ t.reader.idx = 1 ∧
      ∀ v, s.mem.readWord MemName.buf.base = some v → t.reader.w = v)) ∧
  ∀ s : State, s.brLen.toNat % 4 ≠ 0 ∨ s.cfg.bufMaxBytes < s.brLen.toNat →
    exec .brInit s = .next { s with err := some .badBufferLength, errInfo := s.brLen }

/-- R135: BR_PEEK n with n < 32 bits remaining returns StreamBits(P, n) in RESULT and changes nothing else. -/
def Obligations.BrPeekReturnsTheNextBits : Prop :=
  ∀ (s : State) (n : BitVec 6), n.toNat < 32 → s.Primed → s.Remain n.toNat →
    StreamWritten s.mem s.reader.p.toNat n.toNat → ∃ v : Word,
      exec (.brPeek n) s = .next { s with result := v } ∧ IsStreamBits s.mem s.reader.p.toNat n.toNat v

/-- R136: BR_READ n with n < 32 bits remaining returns StreamBits(P, n) in RESULT, advances P by exactly n, and changes
nothing else but the prefetch state. -/
def Obligations.BrReadReturnsTheNextBitsAndAdvances : Prop :=
  ∀ (s : State) (n : BitVec 6), n.toNat < 32 → s.Primed → s.Remain n.toNat →
    StreamWritten s.mem s.reader.p.toNat n.toNat → ∃ (v : Word) (t : State),
      exec (.brRead n) s = .next t ∧ MovedBy (n.setWidth 32) { s with result := v } t ∧
      IsStreamBits s.mem s.reader.p.toNat n.toNat v

/-- R137: BR_SKIP with ARG bits remaining advances P by exactly ARG, whatever ARG is, and writes nothing else but the
prefetch state. -/
def Obligations.BrSkipAdvancesByArg : Prop :=
  ∀ s : State, s.Primed → s.Remain s.arg.toNat → ∃ t, exec .brSkip s = .next t ∧ MovedBy s.arg s t

/-- R138: BR_POS returns P. -/
def Obligations.BrPosReturnsThePosition : Prop :=
  ∀ s : State, s.Primed → exec .brPos s = .next { s with result := s.reader.p }

/-- R132, R139 (e): a request past the end of the buffer raises STREAM_OVERRUN(P), faults the reader, and returns and
consumes nothing. -/
def Obligations.RequestPastTheEndOverruns : Prop :=
  ∀ s : State, s.Primed →
    (∀ n : BitVec 6, n.toNat < 32 → ¬ s.Remain n.toNat →
      exec (.brPeek n) s = .next { s with err := some .streamOverrun, errInfo := s.reader.p,
                                          reader := { s.reader with rstate := .faulted } } ∧
      exec (.brRead n) s = .next { s with err := some .streamOverrun, errInfo := s.reader.p,
                                          reader := { s.reader with rstate := .faulted } }) ∧
    (¬ s.Remain s.arg.toNat →
      exec .brSkip s = .next { s with err := some .streamOverrun, errInfo := s.reader.p,
                                      reader := { s.reader with rstate := .faulted } })

/-- R135, R136, R200, R265: a count of 32 or more raises ARG_RANGE(n) in every state, before any other check. -/
def Obligations.CountOutOfRangeRaisesArgRange : Prop :=
  ∀ (s : State) (n : BitVec 6), 32 ≤ n.toNat →
    exec (.brPeek n) s = .next { s with err := some .argRange, errInfo := n.setWidth 32 } ∧
    exec (.brRead n) s = .next { s with err := some .argRange, errInfo := n.setWidth 32 } ∧
    exec (.fxDescale n) s = .next { s with err := some .argRange, errInfo := n.setWidth 32 }

/-- R132, R167, R169, R262, R265: a reader command on a reader that is not READY raises NOT_READY(RSTATE); HT_DECODE and
HT_PROBE on a slot that is not valid raise NOT_READY(0x100 + s) whatever the reader's state; nothing else changes. -/
def Obligations.UnreadyReaderOrSlotRaisesNotReady : Prop :=
  (∀ (s : State) (info : Word),
    (s.reader.rstate = .idle ∧ info = 0) ∨ (s.reader.rstate = .faulted ∧ info = 2) →
    (∀ n : BitVec 6, n.toNat < 32 →
      exec (.brPeek n) s = .next { s with err := some .notReady, errInfo := info } ∧
      exec (.brRead n) s = .next { s with err := some .notReady, errInfo := info }) ∧
    exec .brSkip s = .next { s with err := some .notReady, errInfo := info } ∧
    exec .brPos s = .next { s with err := some .notReady, errInfo := info } ∧
    ∀ (b : BitVec 4) (t : List LutRun), b.toNat < s.cfg.nht → s.slot b.toNat = .valid t →
      exec (.htDecode b) s = .next { s with err := some .notReady, errInfo := info }) ∧
  ∀ (s : State) (b : BitVec 4) (v : BitVec 16), b.toNat < s.cfg.nht → (s.slot b.toNat).isValid = false →
    exec (.htDecode b) s = .next { s with err := some .notReady, errInfo := BitVec.ofNat 32 (0x100 + b.toNat) } ∧
    exec (.htProbe b v) s = .next { s with err := some .notReady, errInfo := BitVec.ofNat 32 (0x100 + b.toNat) }

/-- R139 (c): BR_READ a then BR_READ b give x then y with x·2^b + y = the RESULT of BR_READ (a + b). -/
def Obligations.SplitReadsConcatenate : Prop :=
  ∀ (s : State) (a b c : BitVec 6), s.Inv → c.toNat = a.toNat + b.toNat → c.toNat ≤ 31 → s.Primed →
    s.Remain c.toNat → StreamWritten s.mem s.reader.p.toNat c.toNat → ∃ t1 t2 u,
      exec (.brRead a) s = .next t1 ∧ exec (.brRead b) t1 = .next t2 ∧ exec (.brRead c) s = .next u ∧
      t1.result.toNat * 2 ^ b.toNat + t2.result.toNat = u.result.toNat ∧ t2.reader.p = u.reader.p

/-- R131: for 1 ≤ n ≤ 32 bits remaining, the top n bits of the read-ahead word are the stream's next n bits. -/
def Obligations.LookaheadEqualsStreamBits : Prop :=
  ∀ (s : State) (n v : Nat), s.Inv → s.Primed → 1 ≤ n → n ≤ 32 → s.Remain n →
    streamBits s.mem s.reader.p.toNat n = some v → s.reader.lookahead n = v

/-- R304 and log 8: a host write to a word of the primed buffer is stored; the reader commands then fault until BR_INIT,
which primes the reader again. -/
def Obligations.ChangedBufferStopsTheReader : Prop :=
  ∀ (s : State) (rest : List HostRequest) (d : Nat) (v : Word), s.reader.rstate = .ready →
    d < s.reader.lenLatched.toNat / 4 → 4 * d + 4 ≤ s.cfg.bufMaxBytes → s.cfg.Legal →
    s.Writes (MemName.buf.wordAddr d) v rest → ∃ t, step s = .next t ∧
      t = { s with requests := rest, mem := s.mem.storeWord (MemName.buf.wordAddr d) v, bufDirty := true } ∧
      exec .brPos t = .fault .bufChangedWhilePrimed ∧ exec .brSkip t = .fault .bufChangedWhilePrimed ∧
      (∀ n : BitVec 6, n.toNat < 32 → exec (.brPeek n) t = .fault .bufChangedWhilePrimed ∧
        exec (.brRead n) t = .fault .bufChangedWhilePrimed) ∧
      (∀ (b : BitVec 4) (r : List LutRun), b.toNat < t.cfg.nht → t.slot b.toNat = .valid r →
        exec (.htDecode b) t = .fault .bufChangedWhilePrimed) ∧
      (t.brLen.toNat % 4 = 0 → t.brLen.toNat ≤ t.cfg.bufMaxBytes → ∃ u, exec .brInit t = .next u ∧ u.Primed)

/-! ### The Huffman decoder -/

/-- R162, R164, R165, R161 (R164's doubling is the spec's own reading): a loaded specification whose codewords fit the code
space builds; the j-th codeword of length L is firstCode(L) + j, every lookahead it prefixes holds L and its symbol, and
the lookaheads beyond the last codeword are unfilled. No other slot and nothing else changes. -/
def Obligations.HtBuildMakesTheCanonicalTable : Prop :=
  ∀ (s : State) (b : BitVec 4) (cs : List Nat), b.toNat < s.cfg.nht → SpecLoaded s cs → codeSpace cs 16 ≤ 65536 →
    ∃ t, exec (.htBuild b) s = .next { s with slots := s.slots.set b.toNat (.valid t) } ∧
      (∀ len, 1 ≤ len → len ≤ 16 → ∀ j < countOf cs len, ∀ v, v / 2 ^ (16 - len) = firstCode cs len + j →
        (lookup t v).1 = len ∧ some (lookup t v).2 = s.mem.read (MemName.huffval.byteAddr (firstSymbol cs len + j))) ∧
      ∀ v, codeSpace cs 16 ≤ v → v < 65536 → lookup t v = (0, 0)

/-- R163 (reasons 1 to 3), R262: the checks of Validate, each with its reason and detail; the slot is left invalid (its
arrays unspecified, log 7) and nothing else changes. That reasons 1 and 2 are raised although entries of HT_BITS behind
the failing check are unwritten is the model's reading of R163's order (log 11, DEDUCED), not a rule. -/
def Obligations.HtBuildRejectsMalformedCounts : Prop :=
  ∀ (s : State) (b : BitVec 4), b.toNat < s.cfg.nht →
    let failed (info : Nat) : State :=
      { s with slots := s.slots.set b.toNat (.invalid none), err := some .malformedTable, errInfo := BitVec.ofNat 32 info }
    (256 < s.hvlen.toNat →
      exec (.htBuild b) s = .next (failed (0x01000000 + s.hvlen.toNat % 2 ^ 24))) ∧
    (∀ i < 16, s.hvlen.toNat ≤ 256 →
      (∀ j < i, ∃ c, s.mem.readWord (MemName.htBits.wordAddr j) = some c ∧ c.toNat < 2 ^ (j + 1)) →
      (∃ c, s.mem.readWord (MemName.htBits.wordAddr i) = some c ∧ 2 ^ (i + 1) ≤ c.toNat) →
      exec (.htBuild b) s = .next (failed (0x02000000 + (i + 1)))) ∧
    ∀ cs : List Nat, s.hvlen.toNat ≤ 256 → cs.length = 16 →
      (∀ i < 16, ∃ c, s.mem.readWord (MemName.htBits.wordAddr i) = some c ∧ c.toNat = cs.getD i 0 ∧
        c.toNat < 2 ^ (i + 1)) →
      cs.sum ≠ s.hvlen.toNat →
      exec (.htBuild b) s = .next (failed (0x03000000 + cs.sum % 2 ^ 24))

/-- R164 (reason 4), R262: a loaded specification whose codewords run out of the code space fails at the least length L at
which they do. R164's doubling is the spec's own reading, from general knowledge (93_implementation_defined.md G2), and its
reason 4 is the spec's decision ("not in the source"); the slot's arrays are unspecified (log 7). -/
def Obligations.HtBuildRejectsCodeSpaceOverflow : Prop :=
  ∀ (s : State) (b : BitVec 4) (cs : List Nat) (len : Nat), b.toNat < s.cfg.nht → SpecLoaded s cs →
    1 ≤ len → len ≤ 16 → 2 ^ len < codeSpace cs len → (∀ l, 1 ≤ l → l < len → codeSpace cs l ≤ 2 ^ l) →
    exec (.htBuild b) s = .next
      { s with slots := s.slots.set b.toNat (.invalid none), err := some .malformedTable,
               errInfo := BitVec.ofNat 32 (0x04000000 + len) }

/-- R166: in a legal table every lookahead that shares a codeword's prefix has the codeword's length and symbol. -/
def Obligations.LookupDependsOnTheCodewordOnly : Prop :=
  ∀ (t : List LutRun) (v v' : Nat), TableLegal t → (lookup t v).1 ≠ 0 →
    v' / 2 ^ (16 - (lookup t v).1) = v / 2 ^ (16 - (lookup t v).1) → lookup t v' = lookup t v

/-- R167: HT_DECODE of a lookahead with a codeword that fits returns its length and symbol, moves P by the length, and
changes nothing else but the prefetch state. -/
def Obligations.HtDecodeReturnsLengthAndSymbol : Prop :=
  ∀ (s : State) (b : BitVec 4) (t : List LutRun) (v : Nat), b.toNat < s.cfg.nht → s.slot b.toNat = .valid t →
    s.Primed → LookaheadIs s v → (lookup t v).1 ≠ 0 → (lookup t v).1 ≤ s.reader.remaining → ∃ u,
      exec (.htDecode b) s = .next u ∧
      MovedBy (BitVec.ofNat 32 (lookup t v).1)
        { s with result := BitVec.ofNat 32 ((lookup t v).1 * 256 + (lookup t v).2.toNat) } u

/-- R167, R168: HT_DECODE without a codeword raises INVALID_CODE(v) when 16 bits remain; STREAM_OVERRUN(P) when fewer
remain and the mode is STRICT, or the codeword is missing or does not fit. The reader is faulted; nothing else changes. -/
def Obligations.HtDecodeFailures : Prop :=
  ∀ (s : State) (b : BitVec 4) (t : List LutRun), b.toNat < s.cfg.nht → s.slot b.toNat = .valid t → s.Primed →
    let failed (e : ErrCode) (info : Word) : State :=
      { s with err := some e, errInfo := info, reader := { s.reader with rstate := .faulted } }
    (s.cfg.tailMode = .strict → s.reader.remaining < 16 →
      exec (.htDecode b) s = .next (failed .streamOverrun s.reader.p)) ∧
    ∀ v, LookaheadIs s v →
      (16 ≤ s.reader.remaining → (lookup t v).1 = 0 →
        exec (.htDecode b) s = .next (failed .invalidCode (BitVec.ofNat 32 v))) ∧
      (s.reader.remaining < 16 → (lookup t v).1 = 0 ∨ s.reader.remaining < (lookup t v).1 →
        exec (.htDecode b) s = .next (failed .streamOverrun s.reader.p))

/-- R169: HT_PROBE returns the filled flag in bit 31, the length in bits 12:8 and the symbol in bits 7:0, every other bit
0, and changes nothing else. -/
def Obligations.HtProbeReturnsTheEntry : Prop :=
  ∀ (s : State) (b : BitVec 4) (v : BitVec 16) (t : List LutRun), b.toNat < s.cfg.nht → s.slot b.toNat = .valid t →
    TableLegal t → ∃ r : Word, exec (.htProbe b v) s = .next { s with result := r } ∧
      r.getLsbD 31 = decide ((lookup t v.toNat).1 ≠ 0) ∧ (r.extractLsb' 8 5).toNat = (lookup t v.toNat).1 ∧
      r.extractLsb' 0 8 = (lookup t v.toNat).2 ∧ r.extractLsb' 13 18 = 0

/-- R170: a stream that spells codewords of a valid slot decodes to exactly their lengths and symbols, and P ends behind
the last codeword, if 16 bits are left at the start of the last one, or, with ZERO_FILL, if just its own bits are. The bits
of every lookahead, up to the end of the buffer, are written (R53; log 10). -/
def Obligations.DecodingInvertsTheCodewords : Prop :=
  ∀ (s : State) (b : BitVec 4) (t rs : List LutRun) (last : LutRun), s.Inv → b.toNat < s.cfg.nht →
    s.slot b.toNat = .valid t → s.Primed → (∀ r ∈ rs ++ [last], r ∈ t) →
    SpellsCodewords s.mem s.reader.p.toNat (rs ++ [last]) →
    s.Remain ((rs.map (fun r => r.len)).sum + 16) ∨
      (s.cfg.tailMode = .zeroFill ∧ s.Remain ((rs ++ [last]).map (fun r => r.len)).sum) →
    StreamWritten s.mem s.reader.p.toNat (min ((rs.map (fun r => r.len)).sum + 16) s.reader.remaining) → ∃ u,
      DecodesTo b (rs ++ [last]) s u ∧
      u.reader.p.toNat = s.reader.p.toNat + ((rs ++ [last]).map (fun r => r.len)).sum

/-! ### The datapath and the transform -/

/-- R190, R191, R192, R194: the operations on integers: wrap32 of sum, difference and product; the floor of x / 2^n; the
product wrapped before the shift; the exact clamp of x + 128. -/
def Obligations.DatapathMatchesIntegerArithmetic : Prop :=
  ∀ a b : Word,
    (add32 a b).toInt = Int.bmod (a.toInt + b.toInt) (2 ^ 32) ∧
    (sub32 a b).toInt = Int.bmod (a.toInt - b.toInt) (2 ^ 32) ∧
    (mul32 a b).toInt = Int.bmod (a.toInt * b.toInt) (2 ^ 32) ∧
    (∀ n ≤ 31, (descale a n).toInt = a.toInt / 2 ^ n) ∧
    (fixedMul a b).toInt = fixedMulInt a.toInt b.toInt ∧
    ((rangeLimit a).toNat : Int) = rangeLimitInt a.toInt

/-- R195, R196: the transform constants are fix of the reals that R196 lists. -/
def Obligations.TransformConstantsAreFix : Prop :=
  Config.fix 1.082392200 = Config.k1082.toInt ∧ Config.fix 1.414213562 = Config.k1414.toInt ∧
  Config.fix 1.847759065 = Config.k1847.toInt ∧ Config.fix 2.613125930 = Config.k2613.toInt

/-- R199: FX_MUL gives RESULT = fixed_mul(ARG, ARG2), as integers, and changes nothing else. -/
def Obligations.FxMulResult : Prop :=
  decode 0x21000000 = .ok .fxMul ∧ ∀ s : State, ∃ r : Word, exec .fxMul s = .next { s with result := r } ∧
    r.toInt = fixedMulInt s.arg.toInt s.arg2.toInt

/-- R200: FX_DESCALE n with n < 32 gives RESULT = floor(ARG / 2^n), and changes nothing else. -/
def Obligations.FxDescaleResult : Prop :=
  ∀ (s : State) (n : BitVec 6), n.toNat < 32 → ∃ r : Word, exec (.fxDescale n) s = .next { s with result := r } ∧
    r.toInt = s.arg.toInt / 2 ^ n.toNat

/-- R201, R194: FX_RLIMIT gives RESULT = clamp(ARG + 128, 0, 255), and changes nothing else. -/
def Obligations.FxRlimitResult : Prop :=
  decode 0x23000000 = .ok .fxRlimit ∧ ∀ s : State, ∃ r : Word, exec .fxRlimit s = .next { s with result := r } ∧
    (r.toNat : Int) = rangeLimitInt s.arg.toInt

/-- R198, R193: DQ_COEF i gives RESULT = fixed_mul(QT[i], COEF[i]), and changes nothing else; it stops on an unwritten
entry (R53). -/
def Obligations.DqCoefResult : Prop :=
  ∀ (s : State) (i : BitVec 6),
    (∀ q c : Word, s.mem.readWord (0x400 + 4 * i.toNat) = some q → s.mem.readWord (0x500 + 4 * i.toNat) = some c →
      ∃ r : Word, exec (.dqCoef i) s = .next { s with result := r } ∧ r.toInt = fixedMulInt q.toInt c.toInt) ∧
    (s.mem.readWord (0x400 + 4 * i.toNat) = none → exec (.dqCoef i) s = .fault (.unwritten .qt)) ∧
    (s.mem.readWord (0x400 + 4 * i.toNat) ≠ none → s.mem.readWord (0x500 + 4 * i.toNat) = none →
      exec (.dqCoef i) s = .fault (.unwritten .coef))

/-- R221: the eight outputs of the butterfly for every input, on integers: sums and differences wrap (R190), and M is
`fixedMulInt` (R192). The equations are the spec's own, from general knowledge (93_implementation_defined.md G1). R220: which
entries of the tables a block, a column and a row are. R223: the butterfly of (c, 0, …, 0) is c eight times, so for a column
whose AC coefficients are zero the fast path's value is what the general path gives. -/
def Obligations.FastPathEqualsGeneralPath : Prop :=
  (∀ c : Oct,
    let add (a b : Int) : Int := Int.bmod (a + b) (2 ^ 32)
    let sub (a b : Int) : Int := Int.bmod (a - b) (2 ^ 32)
    let i (r : Nat) : Int := (c.get r).toInt
    let o (r : Nat) : Int := ((butterfly c).get r).toInt
    -- even part
    let t10 := add (i 0) (i 4)
    let t11 := sub (i 0) (i 4)
    let t13 := add (i 2) (i 6)
    let t12 := sub (fixedMulInt (sub (i 2) (i 6)) 362) t13
    let e0 := add t10 t13
    let e3 := sub t10 t13
    let e1 := add t11 t12
    let e2 := sub t11 t12
    -- odd part
    let z13 := add (i 5) (i 3)
    let z10 := sub (i 5) (i 3)
    let z11 := add (i 1) (i 7)
    let z12 := sub (i 1) (i 7)
    let d7 := add z11 z13
    let d11 := fixedMulInt (sub z11 z13) 362
    let z5 := fixedMulInt (add z10 z12) 473
    let d10 := sub (fixedMulInt z12 277) z5
    let d12 := add (fixedMulInt z10 (-669)) z5
    let d6 := sub d12 d7
    let d5 := sub d11 d6
    let d4 := add d10 d5
    -- combine
    o 0 = add e0 d7 ∧ o 7 = sub e0 d7 ∧ o 1 = add e1 d6 ∧ o 6 = sub e1 d6 ∧
    o 2 = add e2 d5 ∧ o 5 = sub e2 d5 ∧ o 4 = add e3 d4 ∧ o 3 = sub e3 d4) ∧
  (∀ (s : State) (m : MemName) (vs : List Word),
    s.block m = some vs ↔ vs.length = 64 ∧ ∀ k < 64, s.mem.readWord (m.base + 4 * k) = some (vs.getD k 0)) ∧
  (∀ (qt coef : List Word) (x : Nat), ∀ r < 8,
    (dequantizedColumn qt coef x).get r = fixedMul (qt.getD (8 * r + x) 0) (coef.getD (8 * r + x) 0)) ∧
  (∀ (ws : List Word) (y : Nat), ∀ x < 8, (workspaceRow ws y).get x = ws.getD (8 * y + x) 0) ∧
  (∀ c : Word, butterfly ⟨c, 0, 0, 0, 0, 0, 0, 0⟩ = ⟨c, c, c, c, c, c, c, c⟩) ∧
  ∀ (qt coef : List Word) (x : Nat), pass1Column qt coef x = (butterfly (dequantizedColumn qt coef x)).descale 8

/-- R222, R221 (the equations are the spec's own, from general knowledge), R223: IDCT_PASS1 on written tables gives in every
WS entry (r, x) the descaled butterfly output r of the dequantized column x; every byte outside the WS window and all else
is unchanged. -/
def Obligations.IdctPass1WritesTheWorkspace : Prop :=
  ∀ (s : State) (qt coef : List Word), s.block .qt = some qt → s.block .coef = some coef → ∃ m : Memory,
    exec .idctPass1 s = .next { s with mem := m } ∧
    (∀ r < 8, ∀ x < 8, m.readWord (0x600 + 4 * (8 * r + x)) =
      some (descale ((butterfly (dequantizedColumn qt coef x)).get r) 8)) ∧
    ∀ a, ¬ (0x600 ≤ a ∧ a < 0x700) → m.read a = s.mem.read a

/-- R224, R221 (as above): IDCT_PASS2 on a written workspace gives in every OUT entry (y, x) the butterfly output x of row
y, descaled by PASS1_BITS + 3 and range-limited; every byte outside the OUT window and all else is unchanged. -/
def Obligations.IdctPass2WritesTheOutput : Prop :=
  ∀ (s : State) (ws : List Word), s.block .ws = some ws → ∃ m : Memory,
    exec .idctPass2 s = .next { s with mem := m } ∧
    (∀ y < 8, ∀ x < 8, m.read (0x700 + (8 * y + x)) =
      some (rangeLimit (descale ((butterfly (workspaceRow ws y)).get x) (s.cfg.pass1Bits + 3)))) ∧
    ∀ a, ¬ (0x700 ≤ a ∧ a < 0x740) → m.read a = s.mem.read a

/-- R225: IDCT_BLOCK on written tables is IDCT_PASS1 followed by IDCT_PASS2; every byte outside the WS and OUT windows and
all else is unchanged; repeating pass 2 changes nothing (R224). -/
def Obligations.IdctBlockIsPass1ThenPass2 : Prop :=
  ∀ (s : State) (qt coef : List Word), s.block .qt = some qt → s.block .coef = some coef → ∃ t u,
    exec .idctPass1 s = .next t ∧ exec .idctPass2 t = .next u ∧ exec .idctBlock s = .next u ∧
    u = { s with mem := u.mem } ∧ (∀ a, ¬ (0x600 ≤ a ∧ a < 0x740) → u.mem.read a = s.mem.read a) ∧
    exec .idctPass2 u = .next u

/-- R226, the flat-block law: with COEF[0] = d and every other coefficient 0, every sample is
range_limit(descale(descale(fixed_mul(QT[0], d), 8), PASS1_BITS + 3)). -/
def Obligations.FlatBlockGivesFlatOutput : Prop :=
  ∀ (s : State) (q d : Word) (qs : List Word), s.block .qt = some (q :: qs) →
    s.block .coef = some (d :: List.replicate 63 0) → ∃ t, exec .idctBlock s = .next t ∧
      ∀ i < 64, t.mem.read (0x700 + i) =
        some (rangeLimit (descale (descale (fixedMul q d) 8) (s.cfg.pass1Bits + 3)))

/-! ### The host's accesses -/

/-- R33, R34, R38, R39, R72: a host write to offset 0x004, 0x008, 0x018 or 0x01C puts the value in ARG, ARG2, BR_LEN or
HVLEN, and changes nothing else. What a read of these offsets returns is `HostReadsHaveNoSideEffect`. -/
def Obligations.RegistersKeepWhatTheHostWrites : Prop :=
  ∀ (s : State) (v : Word) (rest : List HostRequest),
    (s.Writes 0x004 v rest → step s = .next { s with requests := rest, arg := v }) ∧
    (s.Writes 0x008 v rest → step s = .next { s with requests := rest, arg2 := v }) ∧
    (s.Writes 0x018 v rest → step s = .next { s with requests := rest, brLen := v }) ∧
    (s.Writes 0x01C v rest → step s = .next { s with requests := rest, hvlen := v })

/-- R72 to R77, R84: a host write of a word of a writable memory is read back whole; every other byte is as before, and
nothing else changes but the mark of R304 (log 8), which is set exactly by a write of a BUF word d < LEN_LATCHED/4 while
the reader is READY ("words beyond the latched length are free"). R79: in HUFFVAL and BUF byte j of the word is its j-th byte from the top.
That the model stores the words of HT_BITS, QT and COEF in the same order is its own choice (log 12): R82 gives them no
visible byte order. -/
def Obligations.MemoryWordsKeepWhatTheHostWrites : Prop :=
  ∀ (s : State) (off : Nat) (v : Word) (rest : List HostRequest),
    InWordWindow off ∨ InByteWindow s.cfg off → s.Writes off v rest → ∃ t, step s = .next t ∧
      t = { s with
            requests := rest, mem := t.mem,
            bufDirty := s.bufDirty || decide (s.reader.rstate = .ready ∧ 0x40000 ≤ off ∧
              (off - 0x40000) / 4 < s.reader.lenLatched.toNat / 4) } ∧
      t.mem.readWord off = some v ∧
      (∀ a, ¬ (off ≤ a ∧ a < off + 4) → t.mem.read a = s.mem.read a) ∧
      (InByteWindow s.cfg off → ∀ j < 4, t.mem.read (off + j) = some (v.extractLsb' (24 - 8 * j) 8)) ∧
      (InWordWindow off → ∀ j < 4, t.mem.read (off + j) = some (v.extractLsb' (24 - 8 * j) 8))

/-- R79, R80, R81: BUF word w as the host writes it is the stream dword: bit 31 − j of it is StreamBit(32·w + j). -/
def Obligations.BufWordIsTheStreamDword : Prop :=
  ∀ (m : Memory) (w : Nat) (v : Word) (j : Nat), j < 32 →
    streamBit (m.storeWord (MemName.buf.wordAddr w) v) (32 * w + j) = some (v.getLsbD (31 - j)) ∧
    ∀ k, k / 32 ≠ w → streamBit (m.storeWord (MemName.buf.wordAddr w) v) k = streamBit m k

/-- R78: a host write to STATUS, RESULT, ERRINFO, CONFIG, WS, OUT or an unmapped offset is ignored. -/
def Obligations.ReadOnlyAndUnmappedWritesAreIgnored : Prop :=
  ∀ (s : State) (off : Nat) (v : Word) (rest : List HostRequest), s.Writes off v rest →
    off = 0x00C ∨ off = 0x010 ∨ off = 0x014 ∨ off = 0x020 ∨ InReadOnlyWindow off ∨ Unmapped s.cfg off →
    step s = .next { s with requests := rest }

/-- R72, R78, R53: a host read changes nothing in the block and returns the register at its offset (0 for CMD), the word of
a memory, or, for an unmapped offset or an unwritten entry, a value that nothing fixes (log 5). The commands find the
memories at the same offsets (R72 to R77). -/
def Obligations.HostReadsHaveNoSideEffect : Prop :=
  (∀ (s : State) (off : Nat) (rest : List HostRequest), s.Reads off rest → ∃ v : Word, ∃ n : Nat,
    step s = .next { s with requests := rest, replies := v :: s.replies, freeCount := n } ∧
    (off = 0x000 → v = 0) ∧ (off = 0x004 → v = s.arg) ∧ (off = 0x008 → v = s.arg2) ∧ (off = 0x00C → v = s.statusWord) ∧
    (off = 0x010 → v = s.result) ∧ (off = 0x014 → v = s.errInfo) ∧ (off = 0x018 → v = s.brLen) ∧
    (off = 0x01C → v = s.hvlen) ∧ (off = 0x020 → v = configWord s.cfg) ∧
    ∀ w, InWordWindow off ∨ InByteWindow s.cfg off ∨ InReadOnlyWindow off → s.mem.readWord off = some w → v = w) ∧
  MemName.htBits.base = 0x100 ∧ MemName.huffval.base = 0x200 ∧ MemName.qt.base = 0x400 ∧ MemName.coef.base = 0x500 ∧
  MemName.ws.base = 0x600 ∧ MemName.out.base = 0x700 ∧ MemName.buf.base = 0x40000

/-- R71: an access that is not 32 bits wide, or whose offset is not a multiple of 4, is refused. -/
def Obligations.UnsupportedAccessIsRefused : Prop :=
  ∀ (s : State) (off bytes : Nat) (v : Word) (rest : List HostRequest), s.busy = false → off < Config.apertureBytes →
    bytes ≠ 4 ∨ off % 4 ≠ 0 →
    s.requests = .read (s.cfg.hdteBase + off) bytes :: rest ∨
      s.requests = .write (s.cfg.hdteBase + off) bytes v :: rest →
    step s = .refused .unsupportedAccess

/-- R35, R48, R51, R261: the fields of STATUS with their codes; its reserved bits and the VALID bits of slots that do not
exist read 0. R40: the fields of CONFIG, and its value with the default parameters. -/
def Obligations.StatusAndConfigWordFields : Prop :=
  (∀ s : State,
    s.statusWord.getLsbD 0 = s.busy ∧ s.statusWord.getLsbD 1 = s.err.isSome ∧ s.statusWord.extractLsb' 2 2 = 0 ∧
    (∀ c ∈ [(none, 0), (some ErrCode.malformedTable, 1), (some .streamOverrun, 2), (some .argRange, 3),
        (some .invalidCode, 4), (some .illegalCommand, 5), (some .notReady, 6), (some .badBufferLength, 7)],
      s.err = c.1 → (s.statusWord.extractLsb' 4 4).toNat = c.2) ∧
    (∀ c ∈ [(RState.idle, 0), (.ready, 1), (.faulted, 2)],
      s.reader.rstate = c.1 → (s.statusWord.extractLsb' 8 2).toNat = c.2) ∧
    s.statusWord.extractLsb' 10 6 = 0 ∧
    ∀ k < 16, s.statusWord.getLsbD (16 + k) = (s.slot k).isValid) ∧
  configWord Config.standard = 0x40000042 ∧ ∀ c : Config, c.Legal →
    ((configWord c).extractLsb' 0 5).toNat = c.nht ∧ ((configWord c).extractLsb' 5 3).toNat = c.pass1Bits ∧
    ((configWord c).getLsbD 8 = true ↔ c.tailMode = .zeroFill) ∧ (configWord c).extractLsb' 9 7 = 0 ∧
    ((configWord c).extractLsb' 16 16).toNat = c.bufMaxBytes / 4

/-- R86 and log 2: while BUSY = 1 a host access other than a read of STATUS waits; with no request the block is idle; and
an access outside the aperture stops (R70, log 14). -/
def Obligations.BusyIdleAndOutsideAccesses : Prop :=
  (∀ (s : State) (off : Nat) (v : Word) (rest : List HostRequest), s.busy = true → off < Config.apertureBytes →
    s.requests = .write (s.cfg.hdteBase + off) 4 v :: rest ∨
      (off ≠ 0x00C ∧ s.requests = .read (s.cfg.hdteBase + off) 4 :: rest) → step s = .next s) ∧
  (∀ (s : State) (rest : List HostRequest), s.requests = .read (s.cfg.hdteBase + 0x00C) 4 :: rest →
    step s = .next { s with requests := rest, replies := s.statusWord :: s.replies }) ∧
  (∀ s : State, s.requests = [] → step s = .next s) ∧
  ∀ (s : State) (addr bytes : Nat) (v : Word) (rest : List HostRequest), s.busy = false →
    addr < s.cfg.hdteBase ∨ s.cfg.hdteBase + Config.apertureBytes ≤ addr →
    s.requests = .read addr bytes :: rest ∨ s.requests = .write addr bytes v :: rest →
    step s = .fault .outsideAperture

/-! ### The whole machine -/

/-- The invariant of the machine holds right after reset, with every legal configuration (R52, R50). -/
def Obligations.InvariantHoldsAtReset : Prop :=
  State.reset.Inv ∧ ∀ c : Config, c.Legal → (State.resetWith c).Inv

/-- Every step keeps the memories' canonical form, their place in the map and their whole words (R72, R84). -/
def Obligations.StepKeepsMemoryLegal : Prop :=
  ∀ s t : State, s.cfg.Legal → s.MemoryLegal → step s = .next t → t.MemoryLegal

/-- Every step keeps NHT slots with legal tables: disjoint codeword ranges (R51, R166). -/
def Obligations.StepKeepsSlotsLegal : Prop :=
  ∀ s t : State, s.SlotsLegal → step s = .next t → t.SlotsLegal

/-- Every step keeps the invariant between the prefetch state and P (R50). The premise on the slots (itself an invariant,
`StepKeepsSlotsLegal`) bounds the length of a codeword. -/
def Obligations.StepKeepsPrefetchHolds : Prop :=
  ∀ s t : State, s.cfg.Legal → s.SlotsLegal → s.PrefetchHolds → step s = .next t → t.PrefetchHolds

/-- Every step keeps the configuration, leaves BUSY = 0 behind, and keeps "ERR = 0 leaves ERRINFO 0" (R20, R35, R37, R86). -/
def Obligations.StepKeepsConfigAndErrorRecord : Prop :=
  ∀ s t : State, step s = .next t →
    t.cfg = s.cfg ∧ (s.busy = false → t.busy = false) ∧ (s.ErrorLegal → t.ErrorLegal)

/-- R41 to R44, R47, R45, R46: no command writes HT_BITS, HUFFVAL, QT, COEF or BUF: outside the WS and OUT windows every
byte is unchanged by every command; and no command but the transforms writes any memory. -/
def Obligations.CommandsWriteOnlyWsAndOut : Prop :=
  ∀ (i : Instr) (s t : State), exec i s = .next t →
    (∀ a, ¬ (0x600 ≤ a ∧ a < 0x740) → t.mem.read a = s.mem.read a) ∧
    (i ≠ .idctPass1 → i ≠ .idctPass2 → i ≠ .idctBlock → t.mem = s.mem)

/-- R36, R263, R268: a command that raises an error leaves RESULT and every memory as they were, changes at most the reader's
RSTATE and its own slot, and writes no register. -/
def Obligations.FailingCommandIsPrecise : Prop :=
  ∀ (i : Instr) (s t : State) (e : ErrCode), s.err = none → exec i s = .next t → t.err = some e →
    t = { s with err := some e, errInfo := t.errInfo, reader := { s.reader with rstate := t.reader.rstate },
                 slots := t.slots } ∧
    (t.slots ≠ s.slots → ∃ b, i = .htBuild b ∧ t.slots = s.slots.set b.toNat (.invalid none))

/-- R171: a slot changes only by a HT_BUILD of the same slot, by SOFT_RESET or by reset. -/
def Obligations.OnlyBuildAndResetChangeASlot : Prop :=
  ∀ (s t : State) (k : Nat), step s = .next t → t.slot k ≠ s.slot k → ∃ rest,
    s.requests = .reset :: rest ∨ ∃ addr v, s.requests = .write addr 4 v :: rest ∧ offsetOf s.cfg addr = some 0 ∧
      (decode v = .ok .softReset ∨ ∃ b : BitVec 4, b.toNat = k ∧ decode v = .ok (.htBuild b))

/-- R267, R264: once ERR = 1 the error record stays as it is until CLEAR_ERR, SOFT_RESET or reset. -/
def Obligations.ErrorRecordStaysUntilAcknowledged : Prop :=
  ∀ (s t : State) (e : ErrCode), s.err = some e → step s = .next t →
    (t.err = some e ∧ t.errInfo = s.errInfo) ∨ (t.err = none ∧ t.errInfo = 0 ∧ ∃ rest,
      s.requests = .reset :: rest ∨
      ∃ addr v, s.requests = .write addr 4 v :: rest ∧ offsetOf s.cfg addr = some 0 ∧
        (v = 0xF0000000 ∨ v = 0xFF000000))

/-- R53: a command that reads an unwritten entry stops. The transforms read all of QT and COEF (R310, log 9), HT_DECODE its
whole lookahead (log 10), and HT_BUILD its entries in the order of its pseudocode (log 11). -/
def Obligations.UnwrittenMemoryStops : Prop :=
  (∀ s : State,
    (s.block .qt = none → exec .idctPass1 s = .fault (.unwritten .qt) ∧ exec .idctBlock s = .fault (.unwritten .qt)) ∧
    (s.block .qt ≠ none → s.block .coef = none →
      exec .idctPass1 s = .fault (.unwritten .coef) ∧ exec .idctBlock s = .fault (.unwritten .coef)) ∧
    (s.block .ws = none → exec .idctPass2 s = .fault (.unwritten .ws))) ∧
  (∀ (s : State) (n : BitVec 6), n.toNat < 32 → s.Primed → s.Remain n.toNat →
    ¬ StreamWritten s.mem s.reader.p.toNat n.toNat →
    exec (.brPeek n) s = .fault (.unwritten .buf) ∧ exec (.brRead n) s = .fault (.unwritten .buf)) ∧
  (∀ (s : State) (b : BitVec 4) (t : List LutRun), b.toNat < s.cfg.nht → s.slot b.toNat = .valid t → s.Primed →
    (16 ≤ s.reader.remaining ∧ ¬ StreamWritten s.mem s.reader.p.toNat 16) ∨
      (s.reader.remaining < 16 ∧ s.cfg.tailMode = .zeroFill ∧
        ¬ StreamWritten s.mem s.reader.p.toNat s.reader.remaining) →
    exec (.htDecode b) s = .fault (.unwritten .buf)) ∧
  ∀ (s : State) (b : BitVec 4), b.toNat < s.cfg.nht →
    (∀ i < 16, s.hvlen.toNat ≤ 256 →
      (∀ j < i, ∃ c, s.mem.readWord (MemName.htBits.wordAddr j) = some c ∧ c.toNat < 2 ^ (j + 1)) →
      s.mem.readWord (MemName.htBits.wordAddr i) = none →
      exec (.htBuild b) s = .fault (.unwritten .htBits)) ∧
    ∀ cs : List Nat, CountsLoaded s cs → codeSpace cs 16 ≤ 65536 →
      (∃ k < s.hvlen.toNat, s.mem.read (MemName.huffval.byteAddr k) = none) →
      exec (.htBuild b) s = .fault (.unwritten .huffval)

/-- R53, R304: a command is never refused, and it stops only on an unwritten byte of a memory that R92 says it reads (which
entries it reads: logs 9, 10 and 11) or on a changed buffer (log 8). The byte lies in that memory's window; for BUF this
rests on the machine's invariant, which bounds P. -/
def Obligations.CommandsStopOnlyOnBrokenDuties : Prop :=
  ∀ (i : Instr) (s : State),
    (∃ t, exec i s = .next t) ∨
      (∃ (m : MemName) (a : Nat), exec i s = .fault (.unwritten m) ∧ m ∈ memoriesRead i ∧ s.mem.read a = none ∧
        (s.Inv → m.Holds s.cfg a)) ∨
      (exec i s = .fault .bufChangedWhilePrimed ∧ s.reader.rstate = .ready ∧ s.bufDirty = true)
end

