-- ==== Sys2Proof/Laws/State.lean ====
section
/-! SUPPORT. What each named update does to each field of the state, all by rfl, so that no proof unfolds an update. -/

namespace Sys2Proof.Machine

variable (s : State)

@[simp] theorem State.raise_cfg (e : ErrCode) (v : Word) : (s.raise e v).cfg = s.cfg := rfl
@[simp] theorem State.raise_arg (e : ErrCode) (v : Word) : (s.raise e v).arg = s.arg := rfl
@[simp] theorem State.raise_arg2 (e : ErrCode) (v : Word) : (s.raise e v).arg2 = s.arg2 := rfl
@[simp] theorem State.raise_result (e : ErrCode) (v : Word) : (s.raise e v).result = s.result := rfl
@[simp] theorem State.raise_errInfo (e : ErrCode) (v : Word) : (s.raise e v).errInfo = v := rfl
@[simp] theorem State.raise_hvlen (e : ErrCode) (v : Word) : (s.raise e v).hvlen = s.hvlen := rfl
@[simp] theorem State.raise_brLen (e : ErrCode) (v : Word) : (s.raise e v).brLen = s.brLen := rfl
@[simp] theorem State.raise_busy (e : ErrCode) (v : Word) : (s.raise e v).busy = s.busy := rfl
@[simp] theorem State.raise_err (e : ErrCode) (v : Word) : (s.raise e v).err = some e := rfl
@[simp] theorem State.raise_reader (e : ErrCode) (v : Word) : (s.raise e v).reader = s.reader := rfl
@[simp] theorem State.raise_slots (e : ErrCode) (v : Word) : (s.raise e v).slots = s.slots := rfl
@[simp] theorem State.raise_mem (e : ErrCode) (v : Word) : (s.raise e v).mem = s.mem := rfl
@[simp] theorem State.raise_bufDirty (e : ErrCode) (v : Word) : (s.raise e v).bufDirty = s.bufDirty := rfl
@[simp] theorem State.raise_requests (e : ErrCode) (v : Word) : (s.raise e v).requests = s.requests := rfl
@[simp] theorem State.raise_replies (e : ErrCode) (v : Word) : (s.raise e v).replies = s.replies := rfl
@[simp] theorem State.raise_freeCount (e : ErrCode) (v : Word) : (s.raise e v).freeCount = s.freeCount := rfl

@[simp] theorem State.clearError_cfg : s.clearError.cfg = s.cfg := rfl
@[simp] theorem State.clearError_arg : s.clearError.arg = s.arg := rfl
@[simp] theorem State.clearError_arg2 : s.clearError.arg2 = s.arg2 := rfl
@[simp] theorem State.clearError_result : s.clearError.result = s.result := rfl
@[simp] theorem State.clearError_errInfo : s.clearError.errInfo = 0 := rfl
@[simp] theorem State.clearError_hvlen : s.clearError.hvlen = s.hvlen := rfl
@[simp] theorem State.clearError_brLen : s.clearError.brLen = s.brLen := rfl
@[simp] theorem State.clearError_busy : s.clearError.busy = s.busy := rfl
@[simp] theorem State.clearError_err : s.clearError.err = none := rfl
@[simp] theorem State.clearError_reader : s.clearError.reader = s.reader := rfl
@[simp] theorem State.clearError_slots : s.clearError.slots = s.slots := rfl
@[simp] theorem State.clearError_mem : s.clearError.mem = s.mem := rfl
@[simp] theorem State.clearError_bufDirty : s.clearError.bufDirty = s.bufDirty := rfl
@[simp] theorem State.clearError_requests : s.clearError.requests = s.requests := rfl
@[simp] theorem State.clearError_replies : s.clearError.replies = s.replies := rfl
@[simp] theorem State.clearError_freeCount : s.clearError.freeCount = s.freeCount := rfl

@[simp] theorem State.setResult_cfg (v : Word) : (s.setResult v).cfg = s.cfg := rfl
@[simp] theorem State.setResult_arg (v : Word) : (s.setResult v).arg = s.arg := rfl
@[simp] theorem State.setResult_arg2 (v : Word) : (s.setResult v).arg2 = s.arg2 := rfl
@[simp] theorem State.setResult_result (v : Word) : (s.setResult v).result = v := rfl
@[simp] theorem State.setResult_errInfo (v : Word) : (s.setResult v).errInfo = s.errInfo := rfl
@[simp] theorem State.setResult_hvlen (v : Word) : (s.setResult v).hvlen = s.hvlen := rfl
@[simp] theorem State.setResult_brLen (v : Word) : (s.setResult v).brLen = s.brLen := rfl
@[simp] theorem State.setResult_busy (v : Word) : (s.setResult v).busy = s.busy := rfl
@[simp] theorem State.setResult_err (v : Word) : (s.setResult v).err = s.err := rfl
@[simp] theorem State.setResult_reader (v : Word) : (s.setResult v).reader = s.reader := rfl
@[simp] theorem State.setResult_slots (v : Word) : (s.setResult v).slots = s.slots := rfl
@[simp] theorem State.setResult_mem (v : Word) : (s.setResult v).mem = s.mem := rfl
@[simp] theorem State.setResult_bufDirty (v : Word) : (s.setResult v).bufDirty = s.bufDirty := rfl
@[simp] theorem State.setResult_requests (v : Word) : (s.setResult v).requests = s.requests := rfl
@[simp] theorem State.setResult_replies (v : Word) : (s.setResult v).replies = s.replies := rfl
@[simp] theorem State.setResult_freeCount (v : Word) : (s.setResult v).freeCount = s.freeCount := rfl

@[simp] theorem State.setMem_cfg (m : Memory) : (s.setMem m).cfg = s.cfg := rfl
@[simp] theorem State.setMem_arg (m : Memory) : (s.setMem m).arg = s.arg := rfl
@[simp] theorem State.setMem_arg2 (m : Memory) : (s.setMem m).arg2 = s.arg2 := rfl
@[simp] theorem State.setMem_result (m : Memory) : (s.setMem m).result = s.result := rfl
@[simp] theorem State.setMem_errInfo (m : Memory) : (s.setMem m).errInfo = s.errInfo := rfl
@[simp] theorem State.setMem_hvlen (m : Memory) : (s.setMem m).hvlen = s.hvlen := rfl
@[simp] theorem State.setMem_brLen (m : Memory) : (s.setMem m).brLen = s.brLen := rfl
@[simp] theorem State.setMem_busy (m : Memory) : (s.setMem m).busy = s.busy := rfl
@[simp] theorem State.setMem_err (m : Memory) : (s.setMem m).err = s.err := rfl
@[simp] theorem State.setMem_reader (m : Memory) : (s.setMem m).reader = s.reader := rfl
@[simp] theorem State.setMem_slots (m : Memory) : (s.setMem m).slots = s.slots := rfl
@[simp] theorem State.setMem_mem (m : Memory) : (s.setMem m).mem = m := rfl
@[simp] theorem State.setMem_bufDirty (m : Memory) : (s.setMem m).bufDirty = s.bufDirty := rfl
@[simp] theorem State.setMem_requests (m : Memory) : (s.setMem m).requests = s.requests := rfl
@[simp] theorem State.setMem_replies (m : Memory) : (s.setMem m).replies = s.replies := rfl
@[simp] theorem State.setMem_freeCount (m : Memory) : (s.setMem m).freeCount = s.freeCount := rfl

@[simp] theorem State.setReader_cfg (r : Reader) : (s.setReader r).cfg = s.cfg := rfl
@[simp] theorem State.setReader_arg (r : Reader) : (s.setReader r).arg = s.arg := rfl
@[simp] theorem State.setReader_arg2 (r : Reader) : (s.setReader r).arg2 = s.arg2 := rfl
@[simp] theorem State.setReader_result (r : Reader) : (s.setReader r).result = s.result := rfl
@[simp] theorem State.setReader_errInfo (r : Reader) : (s.setReader r).errInfo = s.errInfo := rfl
@[simp] theorem State.setReader_hvlen (r : Reader) : (s.setReader r).hvlen = s.hvlen := rfl
@[simp] theorem State.setReader_brLen (r : Reader) : (s.setReader r).brLen = s.brLen := rfl
@[simp] theorem State.setReader_busy (r : Reader) : (s.setReader r).busy = s.busy := rfl
@[simp] theorem State.setReader_err (r : Reader) : (s.setReader r).err = s.err := rfl
@[simp] theorem State.setReader_reader (r : Reader) : (s.setReader r).reader = r := rfl
@[simp] theorem State.setReader_slots (r : Reader) : (s.setReader r).slots = s.slots := rfl
@[simp] theorem State.setReader_mem (r : Reader) : (s.setReader r).mem = s.mem := rfl
@[simp] theorem State.setReader_bufDirty (r : Reader) : (s.setReader r).bufDirty = s.bufDirty := rfl
@[simp] theorem State.setReader_requests (r : Reader) : (s.setReader r).requests = s.requests := rfl
@[simp] theorem State.setReader_replies (r : Reader) : (s.setReader r).replies = s.replies := rfl
@[simp] theorem State.setReader_freeCount (r : Reader) : (s.setReader r).freeCount = s.freeCount := rfl

@[simp] theorem State.faultReader_cfg : s.faultReader.cfg = s.cfg := rfl
@[simp] theorem State.faultReader_arg : s.faultReader.arg = s.arg := rfl
@[simp] theorem State.faultReader_arg2 : s.faultReader.arg2 = s.arg2 := rfl
@[simp] theorem State.faultReader_result : s.faultReader.result = s.result := rfl
@[simp] theorem State.faultReader_errInfo : s.faultReader.errInfo = s.errInfo := rfl
@[simp] theorem State.faultReader_hvlen : s.faultReader.hvlen = s.hvlen := rfl
@[simp] theorem State.faultReader_brLen : s.faultReader.brLen = s.brLen := rfl
@[simp] theorem State.faultReader_busy : s.faultReader.busy = s.busy := rfl
@[simp] theorem State.faultReader_err : s.faultReader.err = s.err := rfl
@[simp] theorem State.faultReader_reader : s.faultReader.reader = { s.reader with rstate := .faulted } := rfl
@[simp] theorem State.faultReader_slots : s.faultReader.slots = s.slots := rfl
@[simp] theorem State.faultReader_mem : s.faultReader.mem = s.mem := rfl
@[simp] theorem State.faultReader_bufDirty : s.faultReader.bufDirty = s.bufDirty := rfl
@[simp] theorem State.faultReader_requests : s.faultReader.requests = s.requests := rfl
@[simp] theorem State.faultReader_replies : s.faultReader.replies = s.replies := rfl
@[simp] theorem State.faultReader_freeCount : s.faultReader.freeCount = s.freeCount := rfl

@[simp] theorem State.drawFree_cfg : s.drawFree.cfg = s.cfg := rfl
@[simp] theorem State.drawFree_arg : s.drawFree.arg = s.arg := rfl
@[simp] theorem State.drawFree_arg2 : s.drawFree.arg2 = s.arg2 := rfl
@[simp] theorem State.drawFree_result : s.drawFree.result = s.result := rfl
@[simp] theorem State.drawFree_errInfo : s.drawFree.errInfo = s.errInfo := rfl
@[simp] theorem State.drawFree_hvlen : s.drawFree.hvlen = s.hvlen := rfl
@[simp] theorem State.drawFree_brLen : s.drawFree.brLen = s.brLen := rfl
@[simp] theorem State.drawFree_busy : s.drawFree.busy = s.busy := rfl
@[simp] theorem State.drawFree_err : s.drawFree.err = s.err := rfl
@[simp] theorem State.drawFree_reader : s.drawFree.reader = s.reader := rfl
@[simp] theorem State.drawFree_slots : s.drawFree.slots = s.slots := rfl
@[simp] theorem State.drawFree_mem : s.drawFree.mem = s.mem := rfl
@[simp] theorem State.drawFree_bufDirty : s.drawFree.bufDirty = s.bufDirty := rfl
@[simp] theorem State.drawFree_requests : s.drawFree.requests = s.requests := rfl
@[simp] theorem State.drawFree_replies : s.drawFree.replies = s.replies := rfl
@[simp] theorem State.drawFree_freeCount : s.drawFree.freeCount = s.freeCount + 1 := rfl

@[simp] theorem State.setSlot_cfg (i : Nat) (x : Slot) : (s.setSlot i x).cfg = s.cfg := rfl
@[simp] theorem State.setSlot_arg (i : Nat) (x : Slot) : (s.setSlot i x).arg = s.arg := rfl
@[simp] theorem State.setSlot_arg2 (i : Nat) (x : Slot) : (s.setSlot i x).arg2 = s.arg2 := rfl
@[simp] theorem State.setSlot_result (i : Nat) (x : Slot) : (s.setSlot i x).result = s.result := rfl
@[simp] theorem State.setSlot_errInfo (i : Nat) (x : Slot) : (s.setSlot i x).errInfo = s.errInfo := rfl
@[simp] theorem State.setSlot_hvlen (i : Nat) (x : Slot) : (s.setSlot i x).hvlen = s.hvlen := rfl
@[simp] theorem State.setSlot_brLen (i : Nat) (x : Slot) : (s.setSlot i x).brLen = s.brLen := rfl
@[simp] theorem State.setSlot_busy (i : Nat) (x : Slot) : (s.setSlot i x).busy = s.busy := rfl
@[simp] theorem State.setSlot_err (i : Nat) (x : Slot) : (s.setSlot i x).err = s.err := rfl
@[simp] theorem State.setSlot_reader (i : Nat) (x : Slot) : (s.setSlot i x).reader = s.reader := rfl
@[simp] theorem State.setSlot_slots (i : Nat) (x : Slot) : (s.setSlot i x).slots = s.slots.set i x := rfl
@[simp] theorem State.setSlot_mem (i : Nat) (x : Slot) : (s.setSlot i x).mem = s.mem := rfl
@[simp] theorem State.setSlot_bufDirty (i : Nat) (x : Slot) : (s.setSlot i x).bufDirty = s.bufDirty := rfl
@[simp] theorem State.setSlot_requests (i : Nat) (x : Slot) : (s.setSlot i x).requests = s.requests := rfl
@[simp] theorem State.setSlot_replies (i : Nat) (x : Slot) : (s.setSlot i x).replies = s.replies := rfl
@[simp] theorem State.setSlot_freeCount (i : Nat) (x : Slot) : (s.setSlot i x).freeCount = s.freeCount := rfl

@[simp] theorem State.setBusy_cfg (b : Bool) : (s.setBusy b).cfg = s.cfg := rfl
@[simp] theorem State.setBusy_arg (b : Bool) : (s.setBusy b).arg = s.arg := rfl
@[simp] theorem State.setBusy_arg2 (b : Bool) : (s.setBusy b).arg2 = s.arg2 := rfl
@[simp] theorem State.setBusy_result (b : Bool) : (s.setBusy b).result = s.result := rfl
@[simp] theorem State.setBusy_errInfo (b : Bool) : (s.setBusy b).errInfo = s.errInfo := rfl
@[simp] theorem State.setBusy_hvlen (b : Bool) : (s.setBusy b).hvlen = s.hvlen := rfl
@[simp] theorem State.setBusy_brLen (b : Bool) : (s.setBusy b).brLen = s.brLen := rfl
@[simp] theorem State.setBusy_busy (b : Bool) : (s.setBusy b).busy = b := rfl
@[simp] theorem State.setBusy_err (b : Bool) : (s.setBusy b).err = s.err := rfl
@[simp] theorem State.setBusy_reader (b : Bool) : (s.setBusy b).reader = s.reader := rfl
@[simp] theorem State.setBusy_slots (b : Bool) : (s.setBusy b).slots = s.slots := rfl
@[simp] theorem State.setBusy_mem (b : Bool) : (s.setBusy b).mem = s.mem := rfl
@[simp] theorem State.setBusy_bufDirty (b : Bool) : (s.setBusy b).bufDirty = s.bufDirty := rfl
@[simp] theorem State.setBusy_requests (b : Bool) : (s.setBusy b).requests = s.requests := rfl
@[simp] theorem State.setBusy_replies (b : Bool) : (s.setBusy b).replies = s.replies := rfl
@[simp] theorem State.setBusy_freeCount (b : Bool) : (s.setBusy b).freeCount = s.freeCount := rfl

@[simp] theorem State.reply_cfg (v : Word) : (s.reply v).cfg = s.cfg := rfl
@[simp] theorem State.reply_arg (v : Word) : (s.reply v).arg = s.arg := rfl
@[simp] theorem State.reply_arg2 (v : Word) : (s.reply v).arg2 = s.arg2 := rfl
@[simp] theorem State.reply_result (v : Word) : (s.reply v).result = s.result := rfl
@[simp] theorem State.reply_errInfo (v : Word) : (s.reply v).errInfo = s.errInfo := rfl
@[simp] theorem State.reply_hvlen (v : Word) : (s.reply v).hvlen = s.hvlen := rfl
@[simp] theorem State.reply_brLen (v : Word) : (s.reply v).brLen = s.brLen := rfl
@[simp] theorem State.reply_busy (v : Word) : (s.reply v).busy = s.busy := rfl
@[simp] theorem State.reply_err (v : Word) : (s.reply v).err = s.err := rfl
@[simp] theorem State.reply_reader (v : Word) : (s.reply v).reader = s.reader := rfl
@[simp] theorem State.reply_slots (v : Word) : (s.reply v).slots = s.slots := rfl
@[simp] theorem State.reply_mem (v : Word) : (s.reply v).mem = s.mem := rfl
@[simp] theorem State.reply_bufDirty (v : Word) : (s.reply v).bufDirty = s.bufDirty := rfl
@[simp] theorem State.reply_requests (v : Word) : (s.reply v).requests = s.requests := rfl
@[simp] theorem State.reply_replies (v : Word) : (s.reply v).replies = v :: s.replies := rfl
@[simp] theorem State.reply_freeCount (v : Word) : (s.reply v).freeCount = s.freeCount := rfl

@[simp] theorem State.overrun_cfg : s.overrun.cfg = s.cfg := rfl
@[simp] theorem State.overrun_arg : s.overrun.arg = s.arg := rfl
@[simp] theorem State.overrun_arg2 : s.overrun.arg2 = s.arg2 := rfl
@[simp] theorem State.overrun_result : s.overrun.result = s.result := rfl
@[simp] theorem State.overrun_errInfo : s.overrun.errInfo = s.reader.p := rfl
@[simp] theorem State.overrun_hvlen : s.overrun.hvlen = s.hvlen := rfl
@[simp] theorem State.overrun_brLen : s.overrun.brLen = s.brLen := rfl
@[simp] theorem State.overrun_busy : s.overrun.busy = s.busy := rfl
@[simp] theorem State.overrun_err : s.overrun.err = some .streamOverrun := rfl
@[simp] theorem State.overrun_reader : s.overrun.reader = { s.reader with rstate := .faulted } := rfl
@[simp] theorem State.overrun_slots : s.overrun.slots = s.slots := rfl
@[simp] theorem State.overrun_mem : s.overrun.mem = s.mem := rfl
@[simp] theorem State.overrun_bufDirty : s.overrun.bufDirty = s.bufDirty := rfl
@[simp] theorem State.overrun_requests : s.overrun.requests = s.requests := rfl
@[simp] theorem State.overrun_replies : s.overrun.replies = s.replies := rfl
@[simp] theorem State.overrun_freeCount : s.overrun.freeCount = s.freeCount := rfl

@[simp] theorem State.softReset_cfg : s.softReset.cfg = s.cfg := rfl
@[simp] theorem State.softReset_arg : s.softReset.arg = 0 := rfl
@[simp] theorem State.softReset_arg2 : s.softReset.arg2 = 0 := rfl
@[simp] theorem State.softReset_result : s.softReset.result = 0 := rfl
@[simp] theorem State.softReset_errInfo : s.softReset.errInfo = 0 := rfl
@[simp] theorem State.softReset_hvlen : s.softReset.hvlen = 0 := rfl
@[simp] theorem State.softReset_brLen : s.softReset.brLen = 0 := rfl
@[simp] theorem State.softReset_busy : s.softReset.busy = s.busy := rfl
@[simp] theorem State.softReset_err : s.softReset.err = none := rfl
@[simp] theorem State.softReset_reader : s.softReset.reader = Reader.initial := rfl
@[simp] theorem State.softReset_slots : s.softReset.slots = s.slots.map Slot.invalidate := rfl
@[simp] theorem State.softReset_mem : s.softReset.mem = s.mem := rfl
@[simp] theorem State.softReset_bufDirty : s.softReset.bufDirty = false := rfl
@[simp] theorem State.softReset_requests : s.softReset.requests = s.requests := rfl
@[simp] theorem State.softReset_replies : s.softReset.replies = s.replies := rfl
@[simp] theorem State.softReset_freeCount : s.softReset.freeCount = s.freeCount := rfl

@[simp] theorem State.hardReset_cfg : s.hardReset.cfg = s.cfg := rfl
@[simp] theorem State.hardReset_arg : s.hardReset.arg = 0 := rfl
@[simp] theorem State.hardReset_arg2 : s.hardReset.arg2 = 0 := rfl
@[simp] theorem State.hardReset_result : s.hardReset.result = 0 := rfl
@[simp] theorem State.hardReset_errInfo : s.hardReset.errInfo = 0 := rfl
@[simp] theorem State.hardReset_hvlen : s.hardReset.hvlen = 0 := rfl
@[simp] theorem State.hardReset_brLen : s.hardReset.brLen = 0 := rfl
@[simp] theorem State.hardReset_busy : s.hardReset.busy = false := rfl
@[simp] theorem State.hardReset_err : s.hardReset.err = none := rfl
@[simp] theorem State.hardReset_reader : s.hardReset.reader = Reader.initial := rfl
@[simp] theorem State.hardReset_slots : s.hardReset.slots = List.replicate s.cfg.nht (.invalid none) := rfl
@[simp] theorem State.hardReset_mem : s.hardReset.mem = [] := rfl
@[simp] theorem State.hardReset_bufDirty : s.hardReset.bufDirty = false := rfl
@[simp] theorem State.hardReset_requests : s.hardReset.requests = s.requests := rfl
@[simp] theorem State.hardReset_replies : s.hardReset.replies = s.replies := rfl
@[simp] theorem State.hardReset_freeCount : s.hardReset.freeCount = s.freeCount := rfl

@[simp] theorem mapNext_next (f : State → State) (t : State) : mapNext f (.next t) = .next (f t) := rfl
@[simp] theorem mapNext_fault (f : State → State) (e : Fault) : mapNext f (.fault e) = .fault e := rfl
@[simp] theorem mapNext_refused (f : State → State) (e : Refusal) : mapNext f (.refused e) = .refused e := rfl
@[simp] theorem andThen_next (f : State → Result) (t : State) : andThen (.next t) f = f t := rfl
@[simp] theorem andThen_fault (f : State → Result) (e : Fault) : andThen (.fault e) f = .fault e := rfl
@[simp] theorem andThen_refused (f : State → Result) (e : Refusal) : andThen (.refused e) f = .refused e := rfl

/-- `mapNext` answers a next state exactly when the outcome does, and then that state changed. -/
theorem mapNext_eq_next {f : State → State} {r : Result} {t : State} :
    mapNext f r = .next t ↔ ∃ u, r = .next u ∧ t = f u := by
  cases r <;> simp [eq_comm]

/-- `andThen` answers a next state exactly when both parts do. -/
theorem andThen_eq_next {f : State → Result} {r : Result} {t : State} :
    andThen r f = .next t ↔ ∃ u, r = .next u ∧ f u = .next t := by
  cases r <;> simp

end Sys2Proof.Machine
end

