-- ==== Sys2Proof/Laws/Bus.lean ====
section
/-! SUPPORT. The host's side of a step: addresses and the map, and what a step does with each kind of request. -/

namespace Sys2Proof.Machine

@[simp] theorem offsetOf_base_add (c : Config) {off : Nat} (h : off < Config.apertureBytes) :
    offsetOf c (c.hdteBase + off) = some off := by
  simp [offsetOf, h]

@[simp] theorem offsetOf_base (c : Config) : offsetOf c c.hdteBase = some 0 := by
  simp [offsetOf, Config.apertureBytes]

theorem offsetOf_lt {c : Config} {addr off : Nat} (h : offsetOf c addr = some off) : off < Config.apertureBytes := by
  simp only [offsetOf] at h
  split at h
  · cases h; omega
  · cases h

@[simp] theorem regAt_offset (r : Reg) : regAt r.offset = some r := by cases r <;> rfl

@[simp] theorem placeAt_reg (c : Config) (r : Reg) : placeAt c r.offset = .reg r := by simp [placeAt]

@[simp] theorem placeAt_zero (c : Config) : placeAt c 0 = .reg .cmd := placeAt_reg c .cmd

theorem regAt_eq_some {off : Nat} {r : Reg} (h : regAt off = some r) : off = r.offset := by
  exact (by simpa using List.find?_some h : r.offset = off).symm

theorem placeAt_eq_reg {c : Config} {off : Nat} {r : Reg} (h : placeAt c off = .reg r) : off = r.offset := by
  simp only [placeAt] at h
  split at h
  · cases h; exact regAt_eq_some (by assumption)
  · split at h <;> cases h

/-- The offset of a memory's entry is none of a register's. -/
theorem placeAt_eq_mem {c : Config} {off : Nat} {m : MemName} (h : placeAt c off = .mem m) :
    memAt c off = some m ∧ m.Holds c off := by
  simp only [placeAt] at h
  split at h
  · cases h
  · split at h
    · rename_i hm
      cases h
      exact ⟨hm, by simpa using List.find?_some hm⟩
    · cases h

/-- An offset inside a memory's window is that memory's: the windows are disjoint from each other and from the registers. -/
theorem memAt_of_holds {c : Config} {off : Nat} {m : MemName} (h : m.Holds c off) :
    memAt c off = some m := by
  simp only [MemName.Holds] at h
  have other : ∀ q : MemName, q ≠ m → decide (q.Holds c off) = false := by
    intro q hq
    refine decide_eq_false fun hh => ?_
    simp only [MemName.Holds] at hh
    cases m <;> cases q <;> simp only [MemName.base, MemName.bytes] at h hh <;> first | omega | exact hq rfl
  have own : decide (m.Holds c off) = true := decide_eq_true h
  cases m <;> simp only [memAt, List.find?_cons, own, other, ne_eq, reduceCtorEq, not_false_eq_true]

theorem regAt_of_holds {c : Config} {off : Nat} {m : MemName} (h : m.Holds c off) : regAt off = none := by
  have hb : 0x100 ≤ off := by
    have := h.1
    cases m <;> simp only [MemName.base] at this <;> omega
  simp only [regAt, List.find?_eq_none]
  intro r hr
  cases r <;> simp [Reg.offset] <;> omega

theorem placeAt_of_holds {c : Config} {off : Nat} {m : MemName} (h : m.Holds c off) :
    placeAt c off = .mem m := by
  simp [placeAt, regAt_of_holds h, memAt_of_holds h]

/-- The windows that the host may write are those of the memories it may write. -/
theorem holds_of_writableWindow {c : Config} {off : Nat} (h : InWordWindow off ∨ InByteWindow c off) :
    ∃ m : MemName, m.Holds c off ∧ m.hostWritable = true := by
  rcases h with (h | h) | (h | h)
  · exact ⟨.htBits, by simp only [MemName.Holds, MemName.base, MemName.bytes]; omega, rfl⟩
  · by_cases h5 : off < 0x500
    · exact ⟨.qt, by simp only [MemName.Holds, MemName.base, MemName.bytes]; omega, rfl⟩
    · exact ⟨.coef, by simp only [MemName.Holds, MemName.base, MemName.bytes]; omega, rfl⟩
  · exact ⟨.huffval, by simp only [MemName.Holds, MemName.base, MemName.bytes]; omega, rfl⟩
  · exact ⟨.buf, by simp only [MemName.Holds, MemName.base, MemName.bytes]; omega, rfl⟩

/-- The read-only window is that of the memories the host may not write. -/
theorem holds_of_readOnlyWindow (c : Config) {off : Nat} (h : InReadOnlyWindow off) :
    ∃ m : MemName, m.Holds c off ∧ m.hostWritable = false := by
  by_cases h7 : off < 0x700
  · exact ⟨.ws, by simp only [MemName.Holds, MemName.base, MemName.bytes]; omega, rfl⟩
  · exact ⟨.out, by simp only [MemName.Holds, MemName.base, MemName.bytes]; omega, rfl⟩

/-- Nothing stands at an unmapped offset. -/
theorem placeAt_of_unmapped {c : Config} {off : Nat} (h : Unmapped c off) : placeAt c off = .unmapped := by
  cases hp : placeAt c off with
  | unmapped => rfl
  | reg r => have := placeAt_eq_reg hp; cases r <;> simp only [Reg.offset] at this <;> omega
  | mem m =>
    have := placeAt_eq_mem hp
    cases m <;> simp only [MemName.Holds, MemName.base, MemName.bytes] at this <;> omega

theorem hostWrite_zero (v : Word) (s : State) : hostWrite 0 v s = writeCmd v s := by simp [hostWrite]

/-- With no request the block is idle. -/
theorem step_idle {s : State} (h : s.requests = []) : step s = .next s := by simp [step, hostStep, h]

/-- A step on a request that does not wait serves it. -/
theorem step_serve {s : State} {r : HostRequest} {rest : List HostRequest} (h : s.requests = r :: rest)
    (hs : stalls s r = false) : step s = serve r { s with requests := rest } := by
  simp [step, hostStep, h, hs]

theorem stalls_of_not_busy {s : State} (h : s.busy = false) (r : HostRequest) : stalls s r = false := by
  simp [stalls, h]

/-- A step on a host write of a word of the aperture. -/
theorem step_write {s : State} {off : Nat} {v : Word} {rest : List HostRequest} (h : s.Writes off v rest) :
    step s = hostWrite off v { s with requests := rest } := by
  obtain ⟨hb, ⟨ho, ha⟩, hr⟩ := h
  rw [step_serve hr (stalls_of_not_busy hb _)]
  simp [serve, withAccess, ho, ha]

/-- A step on a host read of a word of the aperture. -/
theorem step_read {s : State} {off : Nat} {rest : List HostRequest} (h : s.Reads off rest) :
    step s = .next (State.hostRead { s with requests := rest } off) := by
  obtain ⟨hb, ⟨ho, ha⟩, hr⟩ := h
  rw [step_serve hr (stalls_of_not_busy hb _)]
  simp [serve, withAccess, ho, ha]

/-- A step on a host write to CMD issues the word, with BUSY set around it. -/
theorem step_issue {s : State} {v : Word} {rest : List HostRequest} (h : s.Issues v rest) :
    step s = mapNext (fun t => t.setBusy false) (issue v { s with requests := rest, busy := true }) := by
  obtain ⟨hb, hr⟩ := h
  rw [step_serve hr (stalls_of_not_busy hb _)]
  simp [serve, cmdRequest, withAccess, Reg.offset, hostWrite_zero, writeCmd, State.setBusy]

/-- What a step with a next state did: nothing (idle or stalled), a reset, a host read, a command, or another host write. -/
theorem step_cases {s t : State} (h : step s = .next t) :
    t = s ∨
    ∃ r rest, s.requests = r :: rest ∧
      ((r = .reset ∧ t = State.hardReset { s with requests := rest }) ∨
       (∃ addr off, r = .read addr 4 ∧ offsetOf s.cfg addr = some off ∧ off % 4 = 0 ∧
          t = State.hostRead { s with requests := rest } off) ∨
       (∃ addr v u, r = .write addr 4 v ∧ offsetOf s.cfg addr = some 0 ∧ s.busy = false ∧
          issue v { s with requests := rest, busy := true } = .next u ∧ t = u.setBusy false) ∨
       (∃ addr off q v, r = .write addr 4 v ∧ offsetOf s.cfg addr = some off ∧ placeAt s.cfg off = .reg q ∧ q ≠ .cmd ∧
          t = State.writeReg { s with requests := rest } v q) ∨
       (∃ addr off m v, r = .write addr 4 v ∧ offsetOf s.cfg addr = some off ∧ off % 4 = 0 ∧
          placeAt s.cfg off = .mem m ∧ t = State.writeMem { s with requests := rest } m off v) ∨
       (∃ addr off v, r = .write addr 4 v ∧ offsetOf s.cfg addr = some off ∧ placeAt s.cfg off = .unmapped ∧
          t = { s with requests := rest })) := by
  simp only [step, hostStep] at h
  split at h
  · cases h; exact .inl rfl
  · rename_i r rest hr
    split at h
    · cases h; exact .inl rfl
    · rename_i hst
      refine .inr ⟨r, rest, hr, ?_⟩
      cases r with
      | reset => simp only [serve] at h; cases h; exact .inl ⟨rfl, rfl⟩
      | read addr bytes =>
        simp only [serve, withAccess] at h
        split at h
        · cases h
        · rename_i off ho
          split at h
          · rename_i hok
            obtain ⟨rfl, ha⟩ := hok
            cases h
            exact .inr (.inl ⟨addr, off, rfl, ho, ha, rfl⟩)
          · cases h
      | write addr bytes v =>
        simp only [serve, withAccess] at h
        split at h
        · cases h
        · rename_i off ho
          split at h
          · rename_i hok
            obtain ⟨rfl, ha⟩ := hok
            simp only [hostWrite] at h
            split at h
            · rename_i hp
              have h0 : off = 0 := placeAt_eq_reg hp
              subst h0
              simp only [writeCmd, mapNext_eq_next] at h
              obtain ⟨u, hu, rfl⟩ := h
              refine .inr (.inr (.inl ⟨addr, v, u, rfl, ho, ?_, hu, rfl⟩))
              simpa [stalls] using hst
            · rename_i q hq hp
              cases h
              exact .inr (.inr (.inr (.inl ⟨addr, off, q, v, rfl, ho, hp, by rintro rfl; exact hq rfl, rfl⟩)))
            · rename_i m hp
              cases h
              exact .inr (.inr (.inr (.inr (.inl ⟨addr, off, m, v, rfl, ho, ha, hp, rfl⟩))))
            · rename_i hp
              cases h
              exact .inr (.inr (.inr (.inr (.inr ⟨addr, off, v, rfl, ho, hp, rfl⟩))))
          · cases h

/-- A legal word executes unless a recorded error drops it. -/
theorem issue_of_decode {v : Word} {i : Instr} {s : State} (hd : decode v = .ok i)
    (hg : s.err = none ∨ ExecutesUnderError v) : issue v s = exec i s := by
  rw [issue, if_neg, hd]
  rintro ⟨hs, hx⟩
  rcases hg with hg | hg
  · simp [hg] at hs
  · exact hx hg

/-- An illegal word raises ILLEGAL_COMMAND. -/
theorem issue_of_reject {v : Word} {r : Reject} {s : State} (hd : decode v = .error r) (hg : s.err = none) :
    issue v s = .next (s.raise .illegalCommand v) := by
  rw [issue, if_neg (by simp [hg]), hd]

/-- While an error is recorded a word other than the three is dropped. -/
theorem issue_dropped {v : Word} {s : State} (he : s.err.isSome) (hx : ¬ ExecutesUnderError v) :
    issue v s = .next s := by
  rw [issue, if_pos ⟨he, hx⟩]

/-- What the issue of a word did: dropped, illegal, or executed. -/
theorem issue_cases {v : Word} {s u : State} (h : issue v s = .next u) :
    (s.err.isSome ∧ ¬ ExecutesUnderError v ∧ u = s) ∨
    (s.err = none ∧ (∃ e, decode v = .error e) ∧ u = s.raise .illegalCommand v) ∨
    ((s.err = none ∨ ExecutesUnderError v) ∧ ∃ i, decode v = .ok i ∧ exec i s = .next u) := by
  simp only [issue] at h
  split at h
  · rename_i hd; cases h; exact .inl ⟨hd.1, hd.2, rfl⟩
  · rename_i hd
    have hor : s.err = none ∨ ExecutesUnderError v := by
      by_cases he : ExecutesUnderError v
      · exact .inr he
      · left
        cases hs : s.err with
        | none => rfl
        | some e => exact absurd ⟨by simp [hs], he⟩ hd
    split at h
    · rename_i i hi
      exact .inr (.inr ⟨hor, i, hi, h⟩)
    · rename_i e he
      cases h
      rcases hor with hn | hx
      · exact .inr (.inl ⟨hn, ⟨e, he⟩, rfl⟩)
      · obtain ⟨i, hi⟩ : ∃ i, decode v = .ok i := by
          rcases hx with rfl | rfl | rfl
          · exact ⟨.nop, rfl⟩
          · exact ⟨.clearErr, rfl⟩
          · exact ⟨.softReset, rfl⟩
        rw [hi] at he
        cases he

end Sys2Proof.Machine
end

