-- ==== Sys2Proof/Laws/Ops.lean ====
section
/-! SUPPORT. The shared checks of the commands: when each passes, and everything each can do when the command answers a
next state. -/

namespace Sys2Proof.Machine

/-- The checks of a reader command on a primed reader with n bits left. -/
theorem requireReady_primed {s : State} (h : s.Primed) (k : Result) : requireReady s k = k := by
  simp [requireReady, h.1, h.2]

theorem requireBits_remain {s : State} {n : Nat} (h : s.Remain n) (k : Result) : requireBits n s k = k := by
  simp only [requireBits, State.Remain] at *
  rw [if_neg (by omega)]

theorem requireCount_lt {n : BitVec 6} (h : n.toNat < 32) (s : State) (k : Result) : requireCount n s k = k := by
  simp only [requireCount, countOperand]
  rw [if_neg (by omega)]

theorem withStreamBits_some {s : State} {n v : Nat} (h : streamBits s.mem s.reader.p.toNat n = some v)
    (k : Nat → Result) : withStreamBits n s k = k v := by
  simp [withStreamBits, h]

theorem requireSlot_lt {b : BitVec 4} {s : State} (h : b.toNat < s.cfg.nht) (i : Instr) (k : Result) :
    requireSlot i b s k = k := by
  simp only [requireSlot, slotOperand]
  rw [if_neg (by omega)]

theorem requireTable_valid {b : BitVec 4} {s : State} {t : List LutRun} (h : s.slot b.toNat = .valid t)
    (k : List LutRun → Result) : requireTable b s k = k t := by
  simp [requireTable, h]

/-- Everything `requireCount` can do. -/
theorem requireCount_cases {n : BitVec 6} {s t : State} {k : Result} (h : requireCount n s k = .next t) :
    (32 ≤ n.toNat ∧ t = s.raise .argRange (BitVec.ofNat 32 n.toNat)) ∨ (n.toNat < 32 ∧ k = .next t) := by
  simp only [requireCount, countOperand] at h
  split at h
  · rename_i hn; cases h; exact .inl ⟨hn, rfl⟩
  · exact .inr ⟨by omega, h⟩

/-- Everything `requireReady` can do. -/
theorem requireReady_cases {s t : State} {k : Result} (h : requireReady s k = .next t) :
    (s.reader.rstate ≠ .ready ∧ ∃ info, t = s.raise .notReady info) ∨ (s.Primed ∧ k = .next t) := by
  simp only [requireReady] at h
  split at h
  · rename_i hr
    split at h
    · cases h
    · rename_i hd
      exact .inr ⟨⟨hr, by simpa using hd⟩, h⟩
  · rename_i hr; cases h; exact .inl ⟨by simp [hr], _, rfl⟩
  · rename_i hr; cases h; exact .inl ⟨by simp [hr], _, rfl⟩

/-- Everything `requireBits` can do. -/
theorem requireBits_cases {n : Nat} {s t : State} {k : Result} (h : requireBits n s k = .next t) :
    (¬ s.Remain n ∧ t = s.overrun) ∨ (s.Remain n ∧ k = .next t) := by
  simp only [requireBits] at h
  split at h
  · cases h; exact .inl ⟨by simp only [State.Remain]; omega, rfl⟩
  · exact .inr ⟨by simp only [State.Remain]; omega, h⟩

/-- Everything `requireSlot` can do. -/
theorem requireSlot_cases {i : Instr} {b : BitVec 4} {s t : State} {k : Result} (h : requireSlot i b s k = .next t) :
    (s.cfg.nht ≤ b.toNat ∧ t = s.raise .illegalCommand (encode i)) ∨ (b.toNat < s.cfg.nht ∧ k = .next t) := by
  simp only [requireSlot, slotOperand] at h
  split at h
  · rename_i hn; cases h; exact .inl ⟨hn, rfl⟩
  · exact .inr ⟨by omega, h⟩

/-- Everything `requireTable` can do. -/
theorem requireTable_cases {b : BitVec 4} {s t : State} {k : List LutRun → Result}
    (h : requireTable b s k = .next t) :
    ((s.slot b.toNat).isValid = false ∧ t = s.raise .notReady (BitVec.ofNat 32 (0x100 + b.toNat))) ∨
      ∃ r, s.slot b.toNat = .valid r ∧ k r = .next t := by
  simp only [requireTable, slotOperand] at h
  split at h
  · rename_i c hs; cases h; exact .inl ⟨by simp [hs, Slot.isValid], rfl⟩
  · rename_i r hs; exact .inr ⟨r, hs, h⟩

/-- Everything `withStreamBits` can do. -/
theorem withStreamBits_cases {n : Nat} {s t : State} {k : Nat → Result} (h : withStreamBits n s k = .next t) :
    ∃ v, streamBits s.mem s.reader.p.toNat n = some v ∧ k v = .next t := by
  simp only [withStreamBits] at h
  split at h
  · rename_i v hv; exact ⟨v, hv, h⟩
  · cases h

end Sys2Proof.Machine
end

