-- ==== Sys2Proof/Laws/Memory.lean ====
section
/-! SUPPORT. The laws of the memories: a store keeps the canonical form, a read after a store gives the stored byte, and
every other byte is as before. -/

namespace Sys2Proof.Machine

@[simp] theorem cellsFrom_nil (a : Nat) : cellsFrom a [] = [] := rfl

theorem mem_cellsFrom {a : Nat} {bs : List Byte} {c : Host.Cell} :
    c ∈ cellsFrom a bs ↔ ∃ i, bs[i]? = some c.2 ∧ c.1 = a + i := by
  induction bs generalizing a with
  | nil => simp [cellsFrom]
  | cons b bs ih =>
    simp only [cellsFrom, List.mem_cons, ih]
    constructor
    · rintro (rfl | ⟨i, hi, hc⟩)
      · exact ⟨0, by simp⟩
      · exact ⟨i + 1, by simpa using hi, by omega⟩
    · rintro ⟨i, hi, hc⟩
      cases i with
      | zero =>
        left
        simp at hi hc
        exact Prod.ext hc hi.symm
      | succ i => exact .inr ⟨i, by simpa using hi, by omega⟩

theorem cellsFrom_bounds {a : Nat} {bs : List Byte} {c : Host.Cell} (h : c ∈ cellsFrom a bs) :
    a ≤ c.1 ∧ c.1 < a + bs.length := by
  obtain ⟨i, hi, hc⟩ := mem_cellsFrom.mp h
  have : i < bs.length := (List.getElem?_eq_some_iff.mp hi).1
  omega

theorem cellsFrom_wf (a : Nat) (bs : List Byte) : Memory.wf (cellsFrom a bs) := by
  induction bs generalizing a with
  | nil => simp [cellsFrom]
  | cons b bs ih =>
    simp only [cellsFrom, Memory.wf, List.pairwise_cons]
    exact ⟨fun c hc => by have := cellsFrom_bounds hc; omega, ih (a + 1)⟩

theorem Memory.read_cons (c : Host.Cell) (m : Memory) (x : Nat) :
    Memory.read (c :: m) x = if x = c.1 then some c.2 else m.read x := by
  obtain ⟨k, b⟩ := c
  by_cases hx : x = k
  · subst hx; simp [Memory.read, List.lookup]
  · have hne : (x == k) = false := by simpa using hx
    simp [Memory.read, List.lookup, hne, hx]

@[simp] theorem Memory.read_nil (x : Nat) : Memory.read [] x = none := rfl

theorem read_cellsFrom (a : Nat) (bs : List Byte) (x : Nat) :
    Memory.read (cellsFrom a bs) x = if a ≤ x ∧ x < a + bs.length then bs[x - a]? else none := by
  induction bs generalizing a with
  | nil => simp [cellsFrom]
  | cons b bs ih =>
    simp only [cellsFrom, Memory.read_cons, ih, List.length_cons]
    by_cases hx : x = a
    · subst hx; simp
    · rw [if_neg hx]
      by_cases hr : a + 1 ≤ x ∧ x < a + 1 + bs.length
      · rw [if_pos hr, if_pos (by omega), show x - a = x - (a + 1) + 1 by omega, List.getElem?_cons_succ]
      · rw [if_neg hr, if_neg (by omega)]

theorem read_filter (m : Memory) (p : Nat → Bool) (x : Nat) :
    Memory.read (m.filter (fun c => p c.1)) x = if p x then m.read x else none := by
  induction m with
  | nil => simp
  | cons c m ih =>
    by_cases hx : x = c.1
    · subst hx
      by_cases hp : p c.1 <;> simp [hp, Memory.read_cons, ih]
    · by_cases hp : p c.1 <;> simp [hp, Memory.read_cons, hx, ih]

theorem read_append (m n : Memory) (x : Nat) : Memory.read (m ++ n) x = (m.read x).or (Memory.read n x) := by
  induction m with
  | nil => simp
  | cons c m ih =>
    rw [List.cons_append, Memory.read_cons, Memory.read_cons, ih]
    split <;> simp

/-- Reading after a store: the stored byte inside the stored range, the old byte outside it. -/
theorem Memory.read_store (m : Memory) (a : Nat) (bs : List Byte) (x : Nat) :
    (m.store a bs).read x = if a ≤ x ∧ x < a + bs.length then bs[x - a]? else m.read x := by
  simp only [Memory.store, read_append, read_cellsFrom, read_filter m (fun y => decide (y < a)),
    read_filter m (fun y => decide (a + bs.length ≤ y)), decide_eq_true_eq]
  by_cases h1 : x < a
  · rw [if_pos h1, if_neg (by omega), if_neg (by omega), if_neg (by omega)]; simp
  · by_cases h2 : a + bs.length ≤ x
    · rw [if_neg h1, if_neg (by omega), if_pos h2, if_neg (by omega)]; simp
    · rw [if_neg h1, if_pos (by omega), if_neg h2, if_pos (by omega)]; simp

/-- A store keeps the canonical form. -/
theorem Memory.store_wf {m : Memory} (h : m.wf) (a : Nat) (bs : List Byte) : (m.store a bs).wf := by
  simp only [Memory.wf, Memory.store, List.pairwise_append]
  refine ⟨⟨h.filter _, cellsFrom_wf a bs, ?_⟩, h.filter _, ?_⟩
  · intro c hc d hd
    have := cellsFrom_bounds hd
    simp at hc; omega
  · intro c hc d hd
    simp at hd
    rcases List.mem_append.mp hc with hc | hc
    · simp at hc; omega
    · have := cellsFrom_bounds hc; omega

theorem Memory.storeWord_wf {m : Memory} (h : m.wf) (a : Nat) (v : Word) : (m.storeWord a v).wf :=
  Memory.store_wf h a _

theorem Memory.storeWords_wf {m : Memory} (h : m.wf) (a : Nat) (vs : List Word) : (m.storeWords a vs).wf :=
  Memory.store_wf h a _

/-- In a memory of canonical form, what is listed is what is read. -/
theorem Memory.mem_iff_read {m : Memory} (h : m.wf) {a : Nat} {b : Byte} : (a, b) ∈ m ↔ m.read a = some b := by
  induction m with
  | nil => simp
  | cons c m ih =>
    have hlt := (List.pairwise_cons.mp h).1
    rw [List.mem_cons, Memory.read_cons, ih (List.pairwise_cons.mp h).2]
    by_cases hx : a = c.1
    · subst hx
      rw [if_pos rfl]
      constructor
      · rintro (hc | hb)
        · rw [← hc]
        · exact absurd (hlt _ ((ih (List.pairwise_cons.mp h).2).mpr hb)) (by simp)
      · intro hb
        exact .inl (Prod.ext rfl (Option.some.inj hb).symm)
    · rw [if_neg hx]
      constructor
      · rintro (hc | hb)
        · exact absurd (congrArg Prod.fst hc) hx
        · exact hb
      · exact .inr

@[simp] theorem wordBytes_length (v : Word) : (wordBytes v).length = 4 := rfl

/-- Splitting a word into its bytes and putting them together gives the word. -/
@[simp] theorem wordOfBytes_wordBytes (v : Word) :
    wordOfBytes (v.extractLsb' 24 8) (v.extractLsb' 16 8) (v.extractLsb' 8 8) (v.extractLsb' 0 8) = v := by
  apply BitVec.eq_of_getLsbD_eq
  intro i hi
  simp only [wordOfBytes, BitVec.getLsbD_append, BitVec.getLsbD_extractLsb']
  split
  · simp [*]
  split
  · simp [show i - 8 < 8 by omega, show 8 + (i - 8) = i by omega]
  split
  · simp [show i - 8 - 8 < 8 by omega, show 16 + (i - 8 - 8) = i by omega]
  · simp [show i - 8 - 8 - 8 < 8 by omega, show 24 + (i - 8 - 8 - 8) = i by omega]

/-- Reading a word gives the word exactly when its four bytes are written and are its bytes. -/
theorem Memory.readWord_eq_some {m : Memory} {a : Nat} {v : Word} :
    m.readWord a = some v ↔
      ∃ b0 b1 b2 b3, m.read a = some b0 ∧ m.read (a + 1) = some b1 ∧ m.read (a + 2) = some b2 ∧
        m.read (a + 3) = some b3 ∧ v = wordOfBytes b0 b1 b2 b3 := by
  simp only [Memory.readWord]
  split
  · rename_i b0 b1 b2 b3 h0 h1 h2 h3
    simp [h0, h1, h2, h3, eq_comm]
  · rename_i hn
    constructor
    · intro h; cases h
    · rintro ⟨b0, b1, b2, b3, h0, h1, h2, h3, -⟩
      exact absurd h3 (hn b0 b1 b2 b3 h0 h1 h2)

/-- A word that is not there has an unwritten byte. -/
theorem Memory.unwritten_of_readWord {m : Memory} {a : Nat} (h : m.readWord a = none) :
    ∃ j < 4, m.read (a + j) = none := by
  by_contra hc
  push Not at hc
  obtain ⟨b0, h0⟩ := Option.ne_none_iff_exists'.mp (hc 0 (by omega))
  obtain ⟨b1, h1⟩ := Option.ne_none_iff_exists'.mp (hc 1 (by omega))
  obtain ⟨b2, h2⟩ := Option.ne_none_iff_exists'.mp (hc 2 (by omega))
  obtain ⟨b3, h3⟩ := Option.ne_none_iff_exists'.mp (hc 3 (by omega))
  simp only [Nat.add_zero] at h0
  simp [Memory.readWord, h0, h1, h2, h3] at h

/-- A block of words that is not there has an unwritten byte. -/
theorem Memory.unwritten_of_readWords {m : Memory} {a n : Nat} (h : m.readWords a n = none) :
    ∃ j < 4 * n, m.read (a + j) = none := by
  induction n generalizing a with
  | zero => simp [Memory.readWords] at h
  | succ n ih =>
    cases h1 : m.readWord a with
    | none =>
      obtain ⟨j, hj, hh⟩ := Memory.unwritten_of_readWord h1
      exact ⟨j, by omega, hh⟩
    | some v =>
      cases h2 : m.readWords (a + 4) n with
      | none =>
        obtain ⟨j, hj, hh⟩ := ih h2
        exact ⟨4 + j, by omega, by rw [← hh]; congr 1; omega⟩
      | some vs => simp [Memory.readWords, h1, h2] at h

/-- The word just stored is the word read. -/
@[simp] theorem Memory.readWord_storeWord (m : Memory) (a : Nat) (v : Word) : (m.storeWord a v).readWord a = some v := by
  refine Memory.readWord_eq_some.mpr ⟨_, _, _, _, ?_, ?_, ?_, ?_, (wordOfBytes_wordBytes v).symm⟩ <;>
    simp [Memory.storeWord, Memory.read_store, wordBytes]

/-- Outside the stored word every byte is as before. -/
theorem Memory.read_storeWord_of_ne (m : Memory) {a x : Nat} (v : Word) (h : ¬ (a ≤ x ∧ x < a + 4)) :
    (m.storeWord a v).read x = m.read x := by
  simp [Memory.storeWord, Memory.read_store, h]

theorem flatMap_wordBytes_length (vs : List Word) : (vs.flatMap wordBytes).length = 4 * vs.length := by
  induction vs with
  | nil => rfl
  | cons v vs ih => simp only [List.flatMap_cons, List.length_append, ih, wordBytes_length, List.length_cons]; omega

theorem flatMap_wordBytes_get (vs : List Word) (i j : Nat) (hj : j < 4) :
    (vs.flatMap wordBytes)[4 * i + j]? = (vs[i]?).bind (fun v => (wordBytes v)[j]?) := by
  induction vs generalizing i with
  | nil => simp
  | cons v vs ih =>
    rw [List.flatMap_cons]
    cases i with
    | zero => simp [List.getElem?_append, hj]
    | succ i =>
      rw [List.getElem?_append_right (by simp; omega)]
      simpa [show 4 * (i + 1) + j - 4 = 4 * i + j by omega] using ih i

/-- Reading back entry i of a block of words just stored. -/
theorem Memory.readWord_storeWords (m : Memory) (a : Nat) (vs : List Word) (i : Nat) (hi : i < vs.length) :
    (m.storeWords a vs).readWord (a + 4 * i) = some vs[i] := by
  have key : ∀ j < 4, (m.storeWords a vs).read (a + 4 * i + j) = (wordBytes vs[i])[j]? := by
    intro j hj
    rw [Memory.storeWords, Memory.read_store, flatMap_wordBytes_length, if_pos (by omega),
      show a + 4 * i + j - a = 4 * i + j by omega, flatMap_wordBytes_get vs i j hj, List.getElem?_eq_getElem hi]
    rfl
  exact Memory.readWord_eq_some.mpr ⟨_, _, _, _, by simpa [wordBytes] using key 0 (by omega), key 1 (by omega),
    key 2 (by omega), key 3 (by omega), (wordOfBytes_wordBytes _).symm⟩

/-- Outside a stored block of words every byte is as before. -/
theorem Memory.read_storeWords_of_ne (m : Memory) {a x : Nat} (vs : List Word) (h : ¬ (a ≤ x ∧ x < a + 4 * vs.length)) :
    (m.storeWords a vs).read x = m.read x := by
  rw [Memory.storeWords, Memory.read_store, flatMap_wordBytes_length, if_neg h]

/-- A block of words is read exactly when each of its words is. -/
theorem Memory.readWords_eq_some {m : Memory} {a n : Nat} {vs : List Word} :
    m.readWords a n = some vs ↔ vs.length = n ∧ ∀ i, ∀ h : i < vs.length, m.readWord (a + 4 * i) = some vs[i] := by
  induction n generalizing a vs with
  | zero =>
    simp only [Memory.readWords, Option.some.injEq]
    constructor
    · rintro rfl; simp
    · rintro ⟨h, -⟩; exact (List.length_eq_zero_iff.mp h).symm
  | succ n ih =>
    simp only [Memory.readWords]
    constructor
    · intro h
      split at h
      · rename_i v ws hv hws
        obtain ⟨hl, hg⟩ := ih.mp hws
        cases h
        refine ⟨by simp [hl], ?_⟩
        intro i hi
        cases i with
        | zero => simpa using hv
        | succ i =>
          have := hg i (by simpa using hi)
          simpa [show a + 4 * (i + 1) = a + 4 + 4 * i by omega] using this
      · cases h
    · rintro ⟨hl, hg⟩
      cases vs with
      | nil => simp at hl
      | cons v ws =>
        have h0 : m.readWord a = some v := hg 0 (by simp)
        have hr : m.readWords (a + 4) n = some ws := by
          refine ih.mpr ⟨by simpa using hl, fun i hi => ?_⟩
          have := hg (i + 1) (by simpa using hi)
          simpa [show a + 4 * (i + 1) = a + 4 + 4 * i by omega] using this
        simp [h0, hr]

/-- Memories that agree on a word's four bytes give the same word. -/
theorem Memory.readWord_congr {m n : Memory} {a : Nat} (h : ∀ j < 4, m.read (a + j) = n.read (a + j)) :
    m.readWord a = n.readWord a := by
  have h0 := h 0 (by omega)
  simp only [Nat.add_zero] at h0
  simp only [Memory.readWord, h0, h 1 (by omega), h 2 (by omega), h 3 (by omega)]

/-- Memories that agree on a block's bytes give the same block. -/
theorem Memory.readWords_congr {m n : Memory} {a k : Nat} (h : ∀ j < 4 * k, m.read (a + j) = n.read (a + j)) :
    m.readWords a k = n.readWords a k := by
  induction k generalizing a with
  | zero => rfl
  | succ k ih =>
    have hw : m.readWord a = n.readWord a := Memory.readWord_congr fun j hj => h j (by omega)
    have hr : m.readWords (a + 4) k = n.readWords (a + 4) k := ih fun j hj => by
      rw [show a + 4 + j = a + (4 + j) by omega]; exact h (4 + j) (by omega)
    simp only [Memory.readWords, hw, hr]

/-- A block of words just stored reads back. -/
theorem Memory.readWords_storeWords (m : Memory) (a : Nat) (vs : List Word) :
    (m.storeWords a vs).readWords a vs.length = some vs :=
  Memory.readWords_eq_some.mpr ⟨rfl, fun i hi => Memory.readWord_storeWords m a vs i hi⟩

theorem filter_lt_store (m : Memory) (a : Nat) (bs : List Byte) :
    (m.store a bs).filter (fun c => decide (c.1 < a)) = m.filter (fun c => decide (c.1 < a)) := by
  have h1 : (cellsFrom a bs).filter (fun c => decide (c.1 < a)) = [] :=
    List.filter_eq_nil_iff.mpr fun c hc => by have := cellsFrom_bounds hc; simp; omega
  have h2 : (m.filter (fun c => decide (a + bs.length ≤ c.1))).filter (fun c => decide (c.1 < a)) = [] :=
    List.filter_eq_nil_iff.mpr fun c hc => by simp at hc ⊢; omega
  simp only [Memory.store, List.filter_append, h1, h2, List.filter_filter, Bool.and_self, List.append_nil]

theorem filter_ge_store (m : Memory) (a : Nat) (bs : List Byte) :
    (m.store a bs).filter (fun c => decide (a + bs.length ≤ c.1)) =
      m.filter (fun c => decide (a + bs.length ≤ c.1)) := by
  have h1 : (cellsFrom a bs).filter (fun c => decide (a + bs.length ≤ c.1)) = [] :=
    List.filter_eq_nil_iff.mpr fun c hc => by have := cellsFrom_bounds hc; simp; omega
  have h2 : (m.filter (fun c => decide (c.1 < a))).filter (fun c => decide (a + bs.length ≤ c.1)) = [] :=
    List.filter_eq_nil_iff.mpr fun c hc => by simp at hc ⊢; omega
  simp only [Memory.store, List.filter_append, h1, h2, List.filter_filter, Bool.and_self, List.nil_append]

/-- Storing over the same bytes leaves only the last store. -/
theorem Memory.store_store (m : Memory) (a : Nat) {bs cs : List Byte} (h : bs.length = cs.length) :
    (m.store a bs).store a cs = m.store a cs := by
  have hlt := filter_lt_store m a bs
  have hge := filter_ge_store m a bs
  rw [h] at hge
  simp only [Memory.store] at hlt hge ⊢
  rw [hlt, hge]

end Sys2Proof.Machine
end

