-- ==== Sys2Proof/Laws/Prefetch.lean ====
section
/-! SUPPORT. What the prefetch procedures change, and that they keep the prefetch state in step with the stream. -/

namespace Sys2Proof.Machine

/-- The stream bit, where it is written, is b. -/
abbrev BitIs (m : Memory) (k : Nat) (b : Bool) : Prop := streamBit m k = none ∨ streamBit m k = some b

/-- The prefetch state between the steps of TopUp: its bits are the stream's, but W need not be full yet. -/
structure Loose (m : Memory) (r : Reader) : Prop where
  whole : r.lenLatched.toNat % 4 = 0
  idxLe : r.idx ≤ r.lenLatched.toNat / 4
  count : r.p.toNat + r.nw + r.nr = 32 * r.idx
  nwLe  : r.nw ≤ 32
  nrLt  : r.nr < 32
  wLow  : ∀ i < 32, r.nw ≤ i → r.w.getLsbD (31 - i) = false
  rsLow : ∀ i < 32, r.nr ≤ i → r.rs.getLsbD (31 - i) = false
  wBit  : ∀ i < 32, i < r.nw → BitIs m (r.p.toNat + i) (r.w.getLsbD (31 - i))
  rsBit : ∀ i < 32, i < r.nr → BitIs m (r.p.toNat + r.nw + i) (r.rs.getLsbD (31 - i))

/-- The low 32 − n bits are zero, said by number and by bits. -/
theorem low_zero_iff (x : Word) (n : Nat) :
    x.toNat % 2 ^ (32 - n) = 0 ↔ ∀ i < 32, n ≤ i → x.getLsbD (31 - i) = false := by
  constructor
  · intro h i hi hn
    have := congrArg (fun y => y.testBit (31 - i)) h
    simpa [Nat.testBit_mod_two_pow, BitVec.getLsbD, show 31 - i < 32 - n by omega] using this
  · intro h
    apply Nat.eq_of_testBit_eq
    intro j
    simp only [Nat.testBit_mod_two_pow, Nat.zero_testBit]
    by_cases hj : j < 32 - n
    · have := h (31 - j) (by omega) (by omega)
      rw [show 31 - (31 - j) = j by omega] at this
      simpa [BitVec.getLsbD] using fun _ => this
    · simp [hj]

/-- Bit 31 − i of a big-endian word is bit 7 − i mod 8 of its byte i div 8. -/
theorem wordOfBytes_getLsbD (b0 b1 b2 b3 : Byte) {i : Nat} (h : i < 32) :
    (wordOfBytes b0 b1 b2 b3).getLsbD (31 - i) = ([b0, b1, b2, b3].getD (i / 8) 0).getLsbD (7 - i % 8) := by
  simp only [wordOfBytes, BitVec.getLsbD_append]
  by_cases h0 : i < 8
  · rw [if_neg (by omega), if_neg (by omega), if_neg (by omega), show i / 8 = 0 by omega]
    congr 1; omega
  by_cases h1 : i < 16
  · rw [if_neg (by omega), if_neg (by omega), if_pos (by omega), show i / 8 = 1 by omega]
    congr 1; omega
  by_cases h2 : i < 24
  · rw [if_neg (by omega), if_pos (by omega), show i / 8 = 2 by omega]
    congr 1; omega
  · rw [if_pos (by omega), show i / 8 = 3 by omega]
    congr 1; omega

/-- A loaded word's bits are the stream's, wherever those are written. -/
theorem readWordOr_bitIs (m : Memory) (d : Nat) (free : Word) {i : Nat} (h : i < 32) :
    BitIs m (32 * d + i) ((m.readWordOr (MemName.buf.wordAddr d) free).getLsbD (31 - i)) := by
  rw [Memory.readWordOr, wordOfBytes_getLsbD _ _ _ _ h]
  simp only [BitIs, streamBit, MemName.byteAddr, MemName.wordAddr]
  rw [show (32 * d + i) % 8 = i % 8 by omega, show (32 * d + i) / 8 = 4 * d + i / 8 by omega, ← Nat.add_assoc]
  have hq : i / 8 < 4 := by omega
  generalize i / 8 = q at hq
  cases hb : m.read (MemName.buf.base + 4 * d + q) with
  | none => simp
  | some b => interval_cases q <;> simp_all

theorem readWordOr_of_readWord {m : Memory} {a : Nat} {v : Word} (h : m.readWord a = some v) (free : Word) :
    m.readWordOr a free = v := by
  obtain ⟨b0, b1, b2, b3, h0, h1, h2, h3, rfl⟩ := Memory.readWord_eq_some.mp h
  simp [Memory.readWordOr, h0, h1, h2, h3]

/-- Loading the reservoir: a whole word of the stream, and at most one free value drawn. -/
theorem State.loadReservoir_cases (s : State) : ∃ v n,
    s.loadReservoir = { s with reader := { s.reader with rs := v, nr := 32, idx := s.reader.idx + 1 }, freeCount := n } ∧
    (∀ w, s.mem.readWord (MemName.buf.wordAddr s.reader.idx) = some w → v = w) ∧
    ∀ i < 32, BitIs s.mem (32 * s.reader.idx + i) (v.getLsbD (31 - i)) := by
  cases h : s.mem.readWord (MemName.buf.wordAddr s.reader.idx) with
  | some w =>
    refine ⟨w, s.freeCount, by simp [State.loadReservoir, h, State.setReader], by simp, fun i hi => ?_⟩
    rw [← readWordOr_of_readWord h 0]
    exact readWordOr_bitIs _ _ _ hi
  | none =>
    exact ⟨s.mem.readWordOr (MemName.buf.wordAddr s.reader.idx) (Config.freeWord s.freeCount), s.freeCount + 1,
      by simp [State.loadReservoir, h, State.setReader, State.drawFree], by simp, fun i hi => readWordOr_bitIs _ _ _ hi⟩

/-- TopUp changes only the prefetch state and the count of free values. -/
theorem State.topUpLoop_frame (fuel : Nat) (s : State) : ∃ w nw rs nr idx n,
    s.topUpLoop fuel = { s with
      reader := { s.reader with w := w, nw := nw, rs := rs, nr := nr, idx := idx }, freeCount := n } := by
  induction fuel generalizing s with
  | zero => exact ⟨_, _, _, _, _, _, rfl⟩
  | succ fuel ih =>
    simp only [State.topUpLoop]
    split
    · exact ⟨_, _, _, _, _, _, rfl⟩
    split
    · split
      · exact ⟨_, _, _, _, _, _, rfl⟩
      · obtain ⟨v, n, h, -⟩ := s.loadReservoir_cases
        obtain ⟨w, nw, rs, nr, idx, n', h'⟩ := ih (s.loadReservoir.setReader s.loadReservoir.reader.transfer)
        rw [h', h]
        exact ⟨_, _, _, _, _, _, rfl⟩
    · obtain ⟨w, nw, rs, nr, idx, n', h'⟩ := ih (s.setReader s.reader.transfer)
      rw [h']
      exact ⟨_, _, _, _, _, _, rfl⟩

theorem State.topUp_frame (s : State) : ∃ w nw rs nr idx n,
    s.topUp = { s with
      reader := { s.reader with w := w, nw := nw, rs := rs, nr := nr, idx := idx }, freeCount := n } :=
  s.topUpLoop_frame 3

@[simp] theorem State.topUp_p (s : State) : s.topUp.reader.p = s.reader.p := by
  obtain ⟨_, _, _, _, _, _, h⟩ := s.topUp_frame; rw [h]
@[simp] theorem State.topUp_lenLatched (s : State) : s.topUp.reader.lenLatched = s.reader.lenLatched := by
  obtain ⟨_, _, _, _, _, _, h⟩ := s.topUp_frame; rw [h]
@[simp] theorem State.topUp_rstate (s : State) : s.topUp.reader.rstate = s.reader.rstate := by
  obtain ⟨_, _, _, _, _, _, h⟩ := s.topUp_frame; rw [h]
@[simp] theorem State.topUp_mem (s : State) : s.topUp.mem = s.mem := by
  obtain ⟨_, _, _, _, _, _, h⟩ := s.topUp_frame; rw [h]
@[simp] theorem State.topUp_bufDirty (s : State) : s.topUp.bufDirty = s.bufDirty := by
  obtain ⟨_, _, _, _, _, _, h⟩ := s.topUp_frame; rw [h]
@[simp] theorem State.topUp_cfg (s : State) : s.topUp.cfg = s.cfg := by
  obtain ⟨_, _, _, _, _, _, h⟩ := s.topUp_frame; rw [h]
@[simp] theorem State.topUp_result (s : State) : s.topUp.result = s.result := by
  obtain ⟨_, _, _, _, _, _, h⟩ := s.topUp_frame; rw [h]
@[simp] theorem State.topUp_slots (s : State) : s.topUp.slots = s.slots := by
  obtain ⟨_, _, _, _, _, _, h⟩ := s.topUp_frame; rw [h]
@[simp] theorem State.topUp_err (s : State) : s.topUp.err = s.err := by
  obtain ⟨_, _, _, _, _, _, h⟩ := s.topUp_frame; rw [h]
@[simp] theorem State.topUp_errInfo (s : State) : s.topUp.errInfo = s.errInfo := by
  obtain ⟨_, _, _, _, _, _, h⟩ := s.topUp_frame; rw [h]
@[simp] theorem State.topUp_busy (s : State) : s.topUp.busy = s.busy := by
  obtain ⟨_, _, _, _, _, _, h⟩ := s.topUp_frame; rw [h]
@[simp] theorem State.topUp_arg (s : State) : s.topUp.arg = s.arg := by
  obtain ⟨_, _, _, _, _, _, h⟩ := s.topUp_frame; rw [h]

/-- Consuming n bits moves P by n and changes nothing else but the prefetch state. -/
theorem State.consume_movedBy (n : Nat) (s : State) : MovedBy (BitVec.ofNat 32 n) s (s.consume n) := by
  obtain ⟨w, nw, rs, nr, idx, c, h⟩ := State.topUp_frame (s.setReader { s.reader with
    w := BitVec.ofNat 32 (s.reader.w.toNat * 2 ^ n), nw := s.reader.nw - n, p := s.reader.p + BitVec.ofNat 32 n })
  simp only [MovedBy, State.consume, h]
  rfl

/-- Priming sets P to 0 and latches the length; besides the prefetch state nothing else changes but the mark of R304. -/
theorem State.prime_frame (s : State) (len : Word) : ∃ w nw rs nr idx n,
    s.prime len = { s with
      reader := { rstate := .ready, p := 0, lenLatched := len, w := w, nw := nw, rs := rs, nr := nr, idx := idx },
      bufDirty := false, freeCount := n } := by
  obtain ⟨w, nw, rs, nr, idx, n, h⟩ := State.topUp_frame
    { s with reader := { Reader.initial with rstate := .ready, lenLatched := len }, bufDirty := false }
  exact ⟨w, nw, rs, nr, idx, n, h⟩

theorem MovedBy.trans {a b : Word} {s t u : State} (h : MovedBy a s t) (h' : MovedBy b t u) : MovedBy (a + b) s u := by
  simp only [MovedBy] at *
  rw [h', h]
  simp [BitVec.add_assoc]

/-- Skipping moves P by the whole count, whatever the chunks. -/
theorem State.skipLoop_movedBy (fuel m : Nat) (s : State) (h : m ≤ 31 * fuel) :
    MovedBy (BitVec.ofNat 32 m) s (State.skipLoop fuel m s) := by
  induction fuel generalizing m s with
  | zero =>
    obtain rfl : m = 0 := by omega
    simp [State.skipLoop, MovedBy]
  | succ fuel ih =>
    simp only [State.skipLoop]
    split
    · rename_i h0
      subst h0
      simp [MovedBy]
    · have h1 := s.consume_movedBy (min m 31)
      have h2 := ih (m - min m 31) (s.consume (min m 31)) (by omega)
      have h3 := h1.trans h2
      rwa [← BitVec.ofNat_add, show min m 31 + (m - min m 31) = m by omega] at h3

/-- The transfer as shifts: the top k bits of RS go under the valid bits of W. -/
theorem Reader.transfer_eq (r : Reader) : r.transfer =
    { r with
      w := r.w + ((r.rs >>> (32 - min (32 - r.nw) r.nr)) <<< (32 - r.nw - min (32 - r.nw) r.nr))
      rs := r.rs <<< min (32 - r.nw) r.nr
      nr := r.nr - min (32 - r.nw) r.nr
      nw := r.nw + min (32 - r.nw) r.nr } := by
  simp only [Reader.transfer, Reader.mk.injEq, true_and, and_true]
  refine ⟨?_, ?_⟩ <;> apply BitVec.eq_of_toNat_eq <;>
    simp [Nat.shiftRight_eq_div_pow, Nat.shiftLeft_eq]

/-- The transferred bits of W. -/
theorem transfer_w_getLsbD {w rs : Word} {nw k : Nat} (hk : nw + k ≤ 32)
    (hw : ∀ i < 32, nw ≤ i → w.getLsbD (31 - i) = false) {i : Nat} (hi : i < 32) :
    (w + ((rs >>> (32 - k)) <<< (32 - nw - k))).getLsbD (31 - i) =
      if i < nw then w.getLsbD (31 - i) else if i < nw + k then rs.getLsbD (31 - (i - nw)) else false := by
  have hx : ∀ i < 32, ((rs >>> (32 - k)) <<< (32 - nw - k)).getLsbD (31 - i) =
      if i < nw then false else if i < nw + k then rs.getLsbD (31 - (i - nw)) else false := by
    intro i hi
    simp only [BitVec.getLsbD_shiftLeft, BitVec.getLsbD_ushiftRight, show 31 - i < 32 by omega, decide_true,
      Bool.true_and]
    by_cases h1 : i < nw
    · rw [if_pos h1]
      rw [BitVec.getLsbD_of_ge _ _ (by omega), Bool.and_false]
    · rw [if_neg h1]
      by_cases h2 : i < nw + k
      · rw [if_pos h2, show 32 - k + (31 - i - (32 - nw - k)) = 31 - (i - nw) by omega]
        simp; omega
      · rw [if_neg h2]
        simp; omega
  have hd : w &&& ((rs >>> (32 - k)) <<< (32 - nw - k)) = 0 := by
    apply BitVec.eq_of_getLsbD_eq
    intro j hj
    have h1 := hx (31 - j) (by omega)
    have h2 := hw (31 - j) (by omega)
    rw [show 31 - (31 - j) = j by omega] at h1 h2
    rw [BitVec.getLsbD_and, h1]
    by_cases h3 : nw ≤ 31 - j
    · simp [h2 h3]
    · simp [show 31 - j < nw by omega]
  rw [BitVec.add_eq_or_of_and_eq_zero _ _ hd, BitVec.getLsbD_or, hx i hi]
  by_cases h1 : i < nw
  · simp [h1]
  · simp [h1, hw i hi (by omega)]

/-- A transfer keeps the prefetch state in step, also right after a load (nr = 32). -/
theorem Loose.transfer {m : Memory} {r : Reader} (whole : r.lenLatched.toNat % 4 = 0)
    (idxLe : r.idx ≤ r.lenLatched.toNat / 4) (count : r.p.toNat + r.nw + r.nr = 32 * r.idx) (nwLt : r.nw < 32)
    (nrLe : r.nr ≤ 32) (nrPos : 0 < r.nr) (wLow : ∀ i < 32, r.nw ≤ i → r.w.getLsbD (31 - i) = false)
    (rsLow : ∀ i < 32, r.nr ≤ i → r.rs.getLsbD (31 - i) = false)
    (wBit : ∀ i < 32, i < r.nw → BitIs m (r.p.toNat + i) (r.w.getLsbD (31 - i)))
    (rsBit : ∀ i < 32, i < r.nr → BitIs m (r.p.toNat + r.nw + i) (r.rs.getLsbD (31 - i))) :
    Loose m r.transfer ∧ (r.transfer.nw = 32 ∨ r.transfer.nr = 0) ∧ (r.nr = 32 → r.transfer.nw = 32) := by
  rw [Reader.transfer_eq]
  generalize hk : min (32 - r.nw) r.nr = k
  have hrs : ∀ i < 32, (r.rs <<< k).getLsbD (31 - i) = if i + k < 32 then r.rs.getLsbD (31 - (i + k)) else false := by
    intro i hi
    simp only [BitVec.getLsbD_shiftLeft, show 31 - i < 32 by omega, decide_true, Bool.true_and]
    by_cases h : i + k < 32
    · rw [if_pos h, show 31 - i - k = 31 - (i + k) by omega]
      simp; omega
    · rw [if_neg h]
      simp; omega
  refine ⟨⟨whole, idxLe, ?_, ?_, ?_, ?_, ?_, ?_, ?_⟩, ?_, ?_⟩
  · simp only; omega
  · simp only; omega
  · simp only; omega
  · intro i hi h
    simp only at h
    rw [transfer_w_getLsbD (by omega) wLow hi, if_neg (by omega), if_neg (by omega)]
  · intro i hi h
    simp only at h
    rw [hrs i hi]
    split
    · exact rsLow _ (by omega) (by omega)
    · rfl
  · intro i hi h
    simp only at h
    rw [transfer_w_getLsbD (by omega) wLow hi]
    split
    · exact wBit i hi (by omega)
    · have := rsBit (i - r.nw) (by omega) (by omega)
      rwa [show r.p.toNat + r.nw + (i - r.nw) = r.p.toNat + i by omega] at this
  · intro i hi h
    simp only at h
    rw [hrs i hi, if_pos (by omega)]
    have := rsBit (i + k) (by omega) (by omega)
    rwa [show r.p.toNat + r.nw + (i + k) = r.p.toNat + (r.nw + k) + i by omega] at this
  · simp only; omega
  · simp only; omega

/-- One load and transfer from an empty reservoir fills W. -/
theorem Loose.load {s : State} (h : Loose s.mem s.reader) (hw : s.reader.nw ≠ 32) (hr : s.reader.nr = 0)
    (hi : s.reader.idx ≠ s.reader.lenLatched.toNat / 4) :
    Loose s.mem s.loadReservoir.reader.transfer ∧ s.loadReservoir.reader.transfer.nw = 32 := by
  obtain ⟨v, n, hl, -, hb⟩ := s.loadReservoir_cases
  have hc := h.count
  have hn := h.nwLe
  have hx := h.idxLe
  have := Loose.transfer (m := s.mem) (r := s.loadReservoir.reader) (by rw [hl]; exact h.whole) (by rw [hl]; simp only; omega)
    (by rw [hl]; simp only; omega) (by rw [hl]; simp only; omega) (by rw [hl]) (by rw [hl]; simp)
    (by rw [hl]; exact h.wLow) (by rw [hl]; intro i hi hge; simp only at hge; omega) (by rw [hl]; exact h.wBit)
    (by
      rw [hl]
      intro i hi _
      have := hb i hi
      rwa [show 32 * s.reader.idx + i = s.reader.p.toNat + s.reader.nw + i by omega] at this)
  exact ⟨this.1, this.2.2 (by rw [hl])⟩

/-- TopUp keeps the prefetch state in step and stops only when W is full or the stream is loaded to its end. -/
theorem Loose.topUp {s : State} (h : Loose s.mem s.reader) :
    Loose s.mem s.topUp.reader ∧
      (s.topUp.reader.nw = 32 ∨ (s.topUp.reader.nr = 0 ∧ s.topUp.reader.idx = s.reader.lenLatched.toNat / 4)) := by
  have stop : ∀ fuel (u : State), u.mem = s.mem → Loose s.mem u.reader → u.reader.nw = 32 →
      Loose s.mem (u.topUpLoop fuel).reader ∧ (u.topUpLoop fuel).reader.nw = 32 := by
    intro fuel u _ hu hn
    cases fuel <;> simp [State.topUpLoop, hn, hu]
  have empty : ∀ fuel (u : State), u.mem = s.mem → u.reader.lenLatched = s.reader.lenLatched → Loose s.mem u.reader →
      u.reader.nr = 0 → Loose s.mem (u.topUpLoop (fuel + 1)).reader ∧
        ((u.topUpLoop (fuel + 1)).reader.nw = 32 ∨ ((u.topUpLoop (fuel + 1)).reader.nr = 0 ∧
          (u.topUpLoop (fuel + 1)).reader.idx = s.reader.lenLatched.toNat / 4)) := by
    intro fuel u hm hlen hu hr
    simp only [State.topUpLoop, hr, if_true]
    split
    · exact ⟨hu, .inl (by assumption)⟩
    · rename_i hw
      split
      · rename_i hi
        exact ⟨hu, .inr ⟨hr, by rw [hi, hlen]⟩⟩
      · rename_i hi
        obtain ⟨h1, h2⟩ := Loose.load (s := u) (hm ▸ hu) hw hr hi
        rw [hm] at h1
        obtain ⟨v, n, hl, -⟩ := u.loadReservoir_cases
        have := stop fuel (u.loadReservoir.setReader u.loadReservoir.reader.transfer)
          (by rw [State.setReader_mem, hl]; exact hm) h1 h2
        exact ⟨this.1, .inl this.2⟩
  by_cases hw : s.reader.nw = 32
  · have := stop 3 s rfl h hw
    exact ⟨this.1, .inl this.2⟩
  · by_cases hr : s.reader.nr = 0
    · exact empty 2 s rfl rfl h hr
    · have hn := h.nwLe
      have hnr := h.nrLt
      obtain ⟨h1, h2, -⟩ := Loose.transfer h.whole h.idxLe h.count (by omega) (by omega) (by omega) h.wLow h.rsLow
        h.wBit h.rsBit
      have e : s.topUp = (s.setReader s.reader.transfer).topUpLoop 2 := by
        simp only [State.topUp, State.topUpLoop, if_neg hw, if_neg hr]
      rw [e]
      rcases h2 with h2 | h2
      · have := stop 2 (s.setReader s.reader.transfer) rfl h1 h2
        exact ⟨this.1, .inl this.2⟩
      · exact empty 1 (s.setReader s.reader.transfer) rfl rfl h1 h2

/-- A reader whose counts hold and whose bits are the stream's is in step. -/
theorem State.PrefetchCounts.loose {s : State} (hc : s.PrefetchCounts) (hb : s.PrefetchBits) : Loose s.mem s.reader := by
  obtain ⟨h1, -, h3, h4, -, h6, -, h8, h9, h10⟩ := hc
  exact ⟨h1, h3, h4, by omega, h8, (low_zero_iff _ _).mp h9, (low_zero_iff _ _).mp h10, hb.1, hb.2⟩

/-- After TopUp the counts hold and the bits are the stream's. -/
theorem Loose.topUp_holds {s : State} (h : Loose s.mem s.reader) (hl : s.reader.lenLatched.toNat ≤ s.cfg.bufMaxBytes) :
    s.topUp.PrefetchCounts ∧ s.topUp.PrefetchBits := by
  obtain ⟨ht, he⟩ := h.topUp
  have e1 := s.topUp_lenLatched
  have e2 := s.topUp_cfg
  have e3 := s.topUp_mem
  have c1 := ht.whole
  have c2 := ht.idxLe
  have c3 := ht.count
  have c4 := ht.nwLe
  have c5 := ht.nrLt
  rw [e1] at c1 c2
  refine ⟨⟨by rw [e1]; exact c1, by rw [e1, e2]; exact hl, by rw [e1]; exact c2, c3, ?_, ?_, ?_, c5,
    (low_zero_iff _ _).mpr ht.wLow, (low_zero_iff _ _).mpr ht.rsLow⟩, ?_⟩
  · simp only [Reader.streamLen, e1]; omega
  · simp only [Reader.streamLen, e1]; omega
  · omega
  · exact ⟨by rw [e3]; exact ht.wBit, by rw [e3]; exact ht.rsBit⟩

/-- Consuming no more bits than remain keeps the prefetch state in step. -/
theorem consume_holds {s : State} {n : Nat} (hcfg : s.cfg.Legal) (hc : s.PrefetchCounts) (hb : s.PrefetchBits)
    (hn : n ≤ 32) (hr : s.Remain n) : (s.consume n).PrefetchCounts ∧ (s.consume n).PrefetchBits := by
  have hl := hc.loose hb
  obtain ⟨h1, h2, h3, h4, h5, h6, -⟩ := hc
  obtain ⟨-, -, ⟨-, hmax, -⟩, -⟩ := hcfg
  simp only [State.Remain, Reader.streamLen] at h5 h6 hr
  have hp : (s.reader.p + BitVec.ofNat 32 n).toNat = s.reader.p.toNat + n := by
    rw [BitVec.toNat_add, BitVec.toNat_ofNat]; omega
  have hw : ∀ i < 32, (BitVec.ofNat 32 (s.reader.w.toNat * 2 ^ n)).getLsbD (31 - i) =
      if i + n < 32 then s.reader.w.getLsbD (31 - (i + n)) else false := by
    intro i hi
    rw [show BitVec.ofNat 32 (s.reader.w.toNat * 2 ^ n) = s.reader.w <<< n by
      apply BitVec.eq_of_toNat_eq; simp [Nat.shiftLeft_eq]]
    simp only [BitVec.getLsbD_shiftLeft, show 31 - i < 32 by omega, decide_true, Bool.true_and]
    by_cases h : i + n < 32
    · rw [if_pos h, show 31 - i - n = 31 - (i + n) by omega]
      simp; omega
    · rw [if_neg h]
      simp; omega
  refine Loose.topUp_holds ⟨h1, h3, ?_, ?_, hl.nrLt, ?_, hl.rsLow, ?_, ?_⟩ h2
  · simp only [State.setReader_reader, hp]; omega
  · simp only [State.setReader_reader]; omega
  · intro i hi h
    simp only [State.setReader_reader] at h ⊢
    rw [hw i hi]
    split
    · exact hl.wLow _ (by omega) (by omega)
    · rfl
  · intro i hi h
    simp only [State.setReader_reader, State.setReader_mem] at h ⊢
    rw [hw i hi, if_pos (by omega), hp]
    have := hl.wBit (i + n) (by omega) (by omega)
    rwa [show s.reader.p.toNat + (i + n) = s.reader.p.toNat + n + i by omega] at this
  · intro i hi h
    simp only [State.setReader_reader, State.setReader_mem] at h ⊢
    rw [hp]
    have := hl.rsBit i hi h
    rwa [show s.reader.p.toNat + n + (s.reader.nw - n) + i = s.reader.p.toNat + s.reader.nw + i by omega]

/-- Priming over a legal length puts the prefetch state in step. -/
theorem prime_holds {s : State} {len : Word} (h4 : len.toNat % 4 = 0) (hl : len.toNat ≤ s.cfg.bufMaxBytes) :
    (s.prime len).PrefetchCounts ∧ (s.prime len).PrefetchBits := by
  refine Loose.topUp_holds ⟨h4, ?_, ?_, ?_, ?_, ?_, ?_, ?_, ?_⟩ hl <;> simp [Reader.initial]

/-- The reader after consuming: P moved, the rest of its architectural state kept. -/
theorem consume_p {s : State} {n : Nat} (hcfg : s.cfg.Legal) (hc : s.PrefetchCounts) (hr : s.Remain n) :
    (s.consume n).reader.p.toNat = s.reader.p.toNat + n := by
  have h := s.consume_movedBy n
  simp only [MovedBy] at h
  rw [h]
  obtain ⟨-, h2, -⟩ := hc
  obtain ⟨-, -, ⟨-, hmax, -⟩, -⟩ := hcfg
  simp only [State.Remain, Reader.streamLen] at hr
  simp only [BitVec.toNat_add, BitVec.toNat_ofNat]
  omega

/-- Skipping no more bits than remain keeps the prefetch state in step. -/
theorem skipLoop_holds (fuel m : Nat) {s : State} (hcfg : s.cfg.Legal) (hc : s.PrefetchCounts) (hb : s.PrefetchBits)
    (hr : s.Remain m) : (State.skipLoop fuel m s).PrefetchCounts ∧ (State.skipLoop fuel m s).PrefetchBits := by
  induction fuel generalizing m s with
  | zero => exact ⟨hc, hb⟩
  | succ fuel ih =>
    simp only [State.skipLoop]
    split
    · exact ⟨hc, hb⟩
    · have hr1 : s.Remain (min m 31) := by simp only [State.Remain] at *; omega
      have h1 := consume_holds hcfg hc hb (by omega) hr1
      have hp := consume_p hcfg hc hr1
      have hm := s.consume_movedBy (min m 31)
      simp only [MovedBy] at hm
      have hcf : (s.consume (min m 31)).cfg = s.cfg := by rw [hm]
      have hln : (s.consume (min m 31)).reader.lenLatched = s.reader.lenLatched := by rw [hm]
      refine ih _ (hcf ▸ hcfg) h1.1 h1.2 ?_
      simp only [State.Remain, Reader.streamLen, hp, hln] at *
      omega

end Sys2Proof.Machine
end

