-- ==== Sys2Proof/Laws/Stream.lean ====
section
/-! SUPPORT. Numbers read from the stream: their size, their bits, when they are there, and how they split. -/

namespace Sys2Proof.Machine

theorem streamBits_lt {m : Memory} {p n v : Nat} (h : streamBits m p n = some v) : v < 2 ^ n := by
  induction n generalizing v with
  | zero => simp [streamBits] at h; omega
  | succ n ih =>
    simp only [streamBits] at h
    split at h
    · rename_i hi b hh hb
      cases h
      have := ih hh
      have : b.toNat ≤ 1 := Bool.toNat_le b
      rw [Nat.pow_succ]; omega
    · cases h

/-- Bit j of the number is the stream bit n − 1 − j places from its start. -/
theorem streamBits_testBit {m : Memory} {p n v : Nat} (h : streamBits m p n = some v) {j : Nat} (hj : j < n) :
    streamBit m (p + (n - 1 - j)) = some (v.testBit j) := by
  induction n generalizing v j with
  | zero => omega
  | succ n ih =>
    simp only [streamBits] at h
    split at h
    · rename_i hi b hh hb
      cases h
      cases j with
      | zero => cases b <;> simp [hb, Nat.testBit_zero]
      | succ j =>
        have := ih hh (j := j) (by omega)
        rw [show p + (n + 1 - 1 - (j + 1)) = p + (n - 1 - j) by omega, this]
        rw [Nat.testBit_succ, show (2 * hi + b.toNat) / 2 = hi by have := Bool.toNat_le b; omega]
    · cases h

/-- The number is there when all its bits are written. -/
theorem streamBits_isSome {m : Memory} {p n : Nat} (h : StreamWritten m p n) : ∃ v, streamBits m p n = some v := by
  induction n with
  | zero => exact ⟨0, rfl⟩
  | succ n ih =>
    obtain ⟨v, hv⟩ := ih fun k hk => h k (by omega)
    obtain ⟨b, hb⟩ := Option.isSome_iff_exists.mp (h n (by omega))
    exact ⟨2 * v + b.toNat, by simp [streamBits, hv, hb]⟩

/-- A number that is there has all its bits written. -/
theorem StreamWritten.of_streamBits {m : Memory} {p n v : Nat} (h : streamBits m p n = some v) :
    StreamWritten m p n := by
  intro k hk
  have := streamBits_testBit h (j := n - 1 - k) (by omega)
  rw [show p + (n - 1 - (n - 1 - k)) = p + k by omega] at this
  simp [this]

/-- A number that is not there has an unwritten bit. -/
theorem unwritten_of_streamBits {m : Memory} {p n : Nat} (h : streamBits m p n = none) :
    ∃ k < n, streamBit m (p + k) = none := by
  by_contra hc
  push Not at hc
  obtain ⟨v, hv⟩ := streamBits_isSome fun k hk => Option.ne_none_iff_isSome.mp (hc k hk)
  rw [h] at hv
  cases hv

/-- A number of a + b bits is its first a bits, then its next b bits. -/
theorem streamBits_add {m : Memory} {p a b x y : Nat} (hx : streamBits m p a = some x)
    (hy : streamBits m (p + a) b = some y) : streamBits m p (a + b) = some (x * 2 ^ b + y) := by
  induction b generalizing y with
  | zero => simp [streamBits] at hy; subst hy; simpa using hx
  | succ b ih =>
    simp only [streamBits] at hy
    split at hy
    · rename_i hi c hh hc
      cases hy
      rw [← Nat.add_assoc, streamBits, ih hh, ← Nat.add_assoc, hc]
      simp only [Option.some.injEq, Nat.pow_succ]
      ring
    · cases hy

/-- A number of up to 32 bits as a word. -/
theorem streamBits_isStreamBits {m : Memory} {p n v : Nat} (h : streamBits m p n = some v) (hn : n ≤ 32) :
    IsStreamBits m p n (BitVec.ofNat 32 v) := by
  constructor
  · intro j hj
    rw [streamBits_testBit h hj]
    rw [BitVec.getLsbD_ofNat, decide_eq_true (show j < 32 by omega), Bool.true_and]
  · intro j hj hnj
    rw [BitVec.getLsbD_ofNat, Nat.testBit_lt_two_pow (Nat.lt_of_lt_of_le (streamBits_lt h)
      (Nat.pow_le_pow_right (by omega) hnj)), Bool.and_false]

/-- Two memories that agree on the BUF window give the same stream. -/
theorem streamBit_congr {m n : Memory} {k : Nat}
    (h : m.read (MemName.buf.byteAddr (k / 8)) = n.read (MemName.buf.byteAddr (k / 8))) :
    streamBit m k = streamBit n k := by
  simp [streamBit, h]

end Sys2Proof.Machine
end

