-- ==== Sys2Proof/Laws/Huffman.lean ====
section
/-! SUPPORT. What the table build makes (its runs, their order, and when it fails), and what a lookup finds. -/

namespace Sys2Proof.Machine

/-- The runs one length gives: codeword code + i holds the i-th symbol. -/
theorem assignLength_ok_iff {m : Memory} {len n code k : Nat} {runs : List LutRun}
    (h : assignLength m len n code k = .ok runs) : runs.length = n ∧
      ∀ i r, runs[i]? = some r → r.len = len ∧ r.base = (code + i) * 2 ^ (16 - len) ∧ code + i < 2 ^ len ∧
        m.read (MemName.huffval.byteAddr (k + i)) = some r.sym := by
  induction n generalizing code k runs with
  | zero => simp only [assignLength] at h; cases h; simp
  | succ n ih =>
    simp only [assignLength] at h
    split at h
    · cases h
    · rename_i hc
      split at h
      · cases h
      · rename_i sym hs
        split at h
        · rename_i rest hrest
          cases h
          obtain ⟨h1, h2⟩ := ih hrest
          refine ⟨by simp [h1], fun i r hr => ?_⟩
          cases i with
          | zero =>
            simp only [List.getElem?_cons_zero, Option.some.injEq] at hr
            subst hr
            exact ⟨rfl, rfl, by omega, hs⟩
          | succ i =>
            rw [List.getElem?_cons_succ] at hr
            obtain ⟨a, b, c, d⟩ := h2 i r hr
            rw [show code + 1 + i = code + (i + 1) by omega] at b c
            rw [show k + 1 + i = k + (i + 1) by omega] at d
            exact ⟨a, b, c, d⟩
        · cases h

/-- One length succeeds when its codewords fit and its symbols are written. -/
theorem assignLength_succeeds {m : Memory} {len n code k : Nat} (hc : code + n ≤ 2 ^ len)
    (hs : ∀ i < n, (m.read (MemName.huffval.byteAddr (k + i))).isSome) :
    ∃ runs, assignLength m len n code k = .ok runs := by
  induction n generalizing code k with
  | zero => exact ⟨[], rfl⟩
  | succ n ih =>
    obtain ⟨rest, hr⟩ := ih (code := code + 1) (k := k + 1) (by omega) fun i hi => by
      rw [show k + 1 + i = k + (i + 1) by omega]; exact hs (i + 1) (by omega)
    obtain ⟨sym, hsym⟩ := Option.isSome_iff_exists.mp (hs 0 (by omega))
    rw [Nat.add_zero] at hsym
    refine ⟨fillRun len code sym :: rest, ?_⟩
    simp only [assignLength]
    rw [if_neg (by omega)]
    simp only [hsym, hr]

/-- One length fails with reason 4 when its codewords do not fit. -/
theorem assignLength_overflows {m : Memory} {len n code k : Nat} (hc : 2 ^ len < code + n) (hle : code ≤ 2 ^ len)
    (hs : ∀ i < n, (m.read (MemName.huffval.byteAddr (k + i))).isSome) :
    assignLength m len n code k = .error (.malformed 4 len) := by
  induction n generalizing code k with
  | zero => omega
  | succ n ih =>
    simp only [assignLength]
    by_cases h : code ≥ 2 ^ len
    · rw [if_pos h]
    · rw [if_neg h]
      obtain ⟨sym, hsym⟩ := Option.isSome_iff_exists.mp (hs 0 (by omega))
      rw [Nat.add_zero] at hsym
      rw [hsym]
      have := ih (code := code + 1) (k := k + 1) (by omega) (by omega) fun i hi => by
        rw [show k + 1 + i = k + (i + 1) by omega]; exact hs (i + 1) (by omega)
      simp only [this]

/-- Half-open positions in the lookahead space, doubled: the codeword `code` of length len begins here. -/
def codeStart (len code : Nat) : Nat := code * 2 ^ (17 - len)

theorem codeStart_next {len code c : Nat} (h : len ≤ 16) :
    codeStart (len + 1) ((code + c) * 2) = codeStart len code + c * 2 ^ (17 - len) := by
  simp only [codeStart]
  rw [show 17 - len = 17 - (len + 1) + 1 by omega, Nat.pow_succ]
  ring

/-- A built table is legal, and its runs begin at the codeword the build began with. -/
theorem assignCodes_legal {m : Memory} {len : Nat} {cs : List Nat} {code k : Nat} {t : List LutRun} (hpos : 1 ≤ len)
    (hlen : len + cs.length = 17) (h : assignCodes m len cs code k = .ok t) :
    TableLegal t ∧ ∀ r ∈ t, codeStart len code ≤ 2 * r.base := by
  induction cs generalizing len code k t with
  | nil => simp only [assignCodes] at h; cases h; simp [TableLegal]
  | cons c cs ih =>
    simp only [List.length_cons] at hlen
    simp only [assignCodes] at h
    split at h
    · cases h
    · rename_i runs hruns
      split at h
      · rename_i rest hrest
        cases h
        obtain ⟨hl, hg⟩ := assignLength_ok_iff hruns
        obtain ⟨⟨i1, i2⟩, i3⟩ := ih (by omega) (by omega) hrest
        rw [codeStart_next (by omega)] at i3
        have hpow : 2 ^ (17 - len) = 2 * 2 ^ (16 - len) := by
          rw [show 17 - len = 16 - len + 1 by omega, Nat.pow_succ]; ring
        have hin : ∀ r ∈ runs, ∃ i < c, r.len = len ∧ r.base = (code + i) * 2 ^ (16 - len) ∧ code + i < 2 ^ len := by
          intro r hr
          obtain ⟨i, hi⟩ := List.mem_iff_getElem?.mp hr
          obtain ⟨a, b, d, -⟩ := hg i r hi
          exact ⟨i, by rw [← hl]; exact (List.getElem?_eq_some_iff.mp hi).1, a, b, d⟩
        refine ⟨⟨?_, ?_⟩, ?_⟩
        · intro r hr
          rcases List.mem_append.mp hr with hr | hr
          · obtain ⟨i, -, a, b, d⟩ := hin r hr
            refine ⟨by omega, by omega, by rw [a, b]; exact Nat.mul_mod_left _ _, ?_⟩
            rw [a, b]
            calc (code + i) * 2 ^ (16 - len) + 2 ^ (16 - len) = (code + i + 1) * 2 ^ (16 - len) := by ring
              _ ≤ 2 ^ len * 2 ^ (16 - len) := Nat.mul_le_mul_right _ d
              _ = 65536 := by rw [← Nat.pow_add, show len + (16 - len) = 16 by omega]
          · exact i1 r hr
        · rw [List.pairwise_append]
          refine ⟨?_, i2, ?_⟩
          · rw [List.pairwise_iff_getElem]
            intro i j hi hj hij
            obtain ⟨a, b, -⟩ := hg i _ (List.getElem?_eq_getElem hi)
            obtain ⟨a', b', -⟩ := hg j _ (List.getElem?_eq_getElem hj)
            rw [a, b, b']
            calc (code + i) * 2 ^ (16 - len) + 2 ^ (16 - len) = (code + i + 1) * 2 ^ (16 - len) := by ring
              _ ≤ (code + j) * 2 ^ (16 - len) := Nat.mul_le_mul_right _ (by omega)
          · intro r hr q hq
            obtain ⟨i, hi, a, b, -⟩ := hin r hr
            have h1 := i3 q hq
            have h2 : 2 * (r.base + 2 ^ (16 - len)) ≤ codeStart len code + c * 2 ^ (17 - len) := by
              simp only [codeStart, hpow, b]
              calc 2 * ((code + i) * 2 ^ (16 - len) + 2 ^ (16 - len)) = (code + (i + 1)) * (2 * 2 ^ (16 - len)) := by ring
                _ ≤ (code + c) * (2 * 2 ^ (16 - len)) := Nat.mul_le_mul_right _ (by omega)
                _ = _ := by ring
            rw [a]; omega
        · intro r hr
          rcases List.mem_append.mp hr with hr | hr
          · obtain ⟨i, -, -, b, -⟩ := hin r hr
            simp only [codeStart, hpow, b]
            calc code * (2 * 2 ^ (16 - len)) ≤ (code + i) * (2 * 2 ^ (16 - len)) := Nat.mul_le_mul_right _ (by omega)
              _ = _ := by ring
          · exact Nat.le_trans (Nat.le_add_right _ _) (i3 r hr)
      · cases h

/-- The counts that pass check 2: one for each length, each below 2^i. -/
theorem readCounts_ok {m : Memory} {is cs : List Nat} (h : readCounts m is = .ok cs) : cs.length = is.length ∧
    ∀ j i : Nat, is[j]? = some i → ∃ c, m.readWord (MemName.htBits.wordAddr (i - 1)) = some c ∧ cs[j]? = some c.toNat ∧
      c.toNat < 2 ^ i := by
  induction is generalizing cs with
  | nil => simp only [readCounts] at h; cases h; simp
  | cons i is ih =>
    simp only [readCounts] at h
    split at h
    · cases h
    · rename_i c hc
      split at h
      · cases h
      · rename_i hlt
        split at h
        · rename_i rest hrest
          cases h
          obtain ⟨h1, h2⟩ := ih hrest
          refine ⟨by simp [h1], fun j i' hj => ?_⟩
          cases j with
          | zero =>
            simp only [List.getElem?_cons_zero, Option.some.injEq] at hj
            subst hj
            exact ⟨c, hc, by simp, by omega⟩
          | succ j =>
            rw [List.getElem?_cons_succ] at hj ⊢
            exact h2 j i' hj
        · cases h

/-- The counts of written entries, each below 2^i, are what check 2 gives. -/
theorem readCounts_of {m : Memory} {is cs : List Nat} (hl : cs.length = is.length)
    (h : ∀ j i : Nat, is[j]? = some i → ∃ c, m.readWord (MemName.htBits.wordAddr (i - 1)) = some c ∧
      cs[j]? = some c.toNat ∧ c.toNat < 2 ^ i) : readCounts m is = .ok cs := by
  induction is generalizing cs with
  | nil => simp only [List.length_nil, List.length_eq_zero_iff] at hl; subst hl; rfl
  | cons i is ih =>
    cases cs with
    | nil => simp at hl
    | cons c0 cs =>
      obtain ⟨c, hc, hcs, hlt⟩ := h 0 i rfl
      have := ih (cs := cs) (by simpa using hl) fun j i' hj => h (j + 1) i' hj
      simp only [List.getElem?_cons_zero, Option.some.injEq] at hcs
      simp only [readCounts, hc]
      rw [if_neg (by omega), this, hcs]

/-- Check 2 fails at the first entry that is too large. -/
theorem readCounts_fails {m : Memory} {pre post : List Nat} {i : Nat}
    (hpre : ∀ l ∈ pre, ∃ c, m.readWord (MemName.htBits.wordAddr (l - 1)) = some c ∧ c.toNat < 2 ^ l)
    (hi : ∃ c, m.readWord (MemName.htBits.wordAddr (i - 1)) = some c ∧ 2 ^ i ≤ c.toNat) :
    readCounts m (pre ++ i :: post) = .error (.malformed 2 i) := by
  induction pre with
  | nil =>
    obtain ⟨c, hc, hge⟩ := hi
    simp only [List.nil_append, readCounts, hc]
    rw [if_pos hge]
  | cons l pre ih =>
    obtain ⟨c, hc, hlt⟩ := hpre l (by simp)
    simp only [List.cons_append, readCounts, hc]
    rw [if_neg (by omega), ih fun l' hl' => hpre l' (by simp [hl'])]

/-- The table of a successful build is legal. -/
theorem buildTable_legal {m : Memory} {hvlen : Word} {t : List LutRun} (h : buildTable m hvlen = .ok t) :
    TableLegal t := by
  simp only [buildTable] at h
  split at h
  · cases h
  · rename_i cs hcs
    have hlen : cs.length = 16 := by
      simp only [validateCounts] at hcs
      split at hcs
      · cases hcs
      · split at hcs
        · cases hcs
        · rename_i cs' hr
          split at hcs
          · cases hcs
          · cases hcs
            simpa [codeLengths] using (readCounts_ok hr).1
    exact (assignCodes_legal (by omega) (by omega) h).1

/-- When the counts cannot be read, a count of a listed length is unwritten. -/
theorem readCounts_unwritten {m : Memory} {is : List Nat} {e : MemName}
    (h : readCounts m is = .error (.unwritten e)) :
    e = .htBits ∧ ∃ l ∈ is, m.readWord (MemName.htBits.wordAddr (l - 1)) = none := by
  induction is with
  | nil => simp [readCounts] at h
  | cons l is ih =>
    simp only [readCounts] at h
    split at h
    · rename_i hn
      cases h
      exact ⟨rfl, l, by simp, hn⟩
    · split at h
      · cases h
      · split at h
        · cases h
        · rename_i he
          cases h
          obtain ⟨h1, l', hl', h2⟩ := ih he
          exact ⟨h1, l', by simp [hl'], h2⟩

/-- When the codewords of a length cannot be assigned for want of a symbol, one of their symbols is unwritten. -/
theorem assignLength_unwritten {m : Memory} {len n code k : Nat} {e : MemName}
    (h : assignLength m len n code k = .error (.unwritten e)) :
    e = .huffval ∧ ∃ x < k + n, m.read (MemName.huffval.byteAddr x) = none := by
  induction n generalizing code k with
  | zero => simp [assignLength] at h
  | succ n ih =>
    simp only [assignLength] at h
    split at h
    · cases h
    · split at h
      · rename_i hn
        cases h
        exact ⟨rfl, k, by omega, hn⟩
      · split at h
        · cases h
        · rename_i he
          cases h
          obtain ⟨h1, x, hx, h2⟩ := ih he
          exact ⟨h1, x, by omega, h2⟩

/-- When the codewords cannot be assigned for want of a symbol, one of the symbols the counts give is unwritten. -/
theorem assignCodes_unwritten {m : Memory} {len : Nat} {cs : List Nat} {code k : Nat} {e : MemName}
    (h : assignCodes m len cs code k = .error (.unwritten e)) :
    e = .huffval ∧ ∃ x < k + cs.sum, m.read (MemName.huffval.byteAddr x) = none := by
  induction cs generalizing len code k with
  | nil => simp [assignCodes] at h
  | cons c cs ih =>
    simp only [assignCodes] at h
    split at h
    · rename_i he
      cases h
      obtain ⟨h1, x, hx, h2⟩ := assignLength_unwritten he
      exact ⟨h1, x, by simp only [List.sum_cons]; omega, h2⟩
    · split at h
      · cases h
      · rename_i he
        cases h
        obtain ⟨h1, x, hx, h2⟩ := ih he
        exact ⟨h1, x, by simp only [List.sum_cons]; omega, h2⟩

/-- In a legal table at most one run covers a lookahead. -/
theorem covers_unique {t : List LutRun} (h : TableLegal t) {r q : LutRun} (hr : r ∈ t) (hq : q ∈ t) {v : Nat}
    (hrv : r.Covers v) (hqv : q.Covers v) : r = q := by
  obtain ⟨-, hp⟩ := h
  induction t with
  | nil => simp at hr
  | cons x t ih =>
    have hx := (List.pairwise_cons.mp hp).1
    simp only [LutRun.Covers, Config.lookaheadBits] at hrv hqv
    rcases List.mem_cons.mp hr with rfl | hr' <;> rcases List.mem_cons.mp hq with rfl | hq'
    · rfl
    · have := hx q hq'; omega
    · have := hx r hr'; omega
    · exact ih hr' hq' (List.pairwise_cons.mp hp).2

/-- What a lookup finds: the run that covers the lookahead, or nothing. -/
theorem lookup_cases (t : List LutRun) (v : Nat) :
    (∃ r ∈ t, r.Covers v ∧ lookup t v = (r.len, r.sym)) ∨ ((∀ r ∈ t, ¬ r.Covers v) ∧ lookup t v = (0, 0)) := by
  simp only [lookup]
  split
  · rename_i r hr
    exact .inl ⟨r, List.mem_of_find?_eq_some hr, by simpa using List.find?_some hr, rfl⟩
  · rename_i hn
    exact .inr ⟨by simpa using hn, rfl⟩

/-- A lookahead that a run of a legal table covers has the run's length and symbol. -/
theorem lookup_of_covers {t : List LutRun} (h : TableLegal t) {r : LutRun} (hr : r ∈ t) {v : Nat} (hv : r.Covers v) :
    lookup t v = (r.len, r.sym) := by
  rcases lookup_cases t v with ⟨q, hq, hqv, he⟩ | ⟨hn, -⟩
  · rw [he, covers_unique h hr hq hv hqv]
  · exact absurd hv (hn r hr)

/-- A lookup in a legal table gives a length of at most 16. -/
theorem lookup_len_le {t : List LutRun} (h : TableLegal t) (v : Nat) : (lookup t v).1 ≤ 16 := by
  rcases lookup_cases t v with ⟨r, hr, -, he⟩ | ⟨-, he⟩
  · rw [he]; exact (h.1 r hr).2.1
  · rw [he]; exact Nat.zero_le _

/-- A run of a legal table covers exactly the lookaheads that begin with its codeword. -/
theorem covers_iff {r : LutRun} (h : r.Legal) (v : Nat) :
    r.Covers v ↔ v / 2 ^ (16 - r.len) = r.base / 2 ^ (16 - r.len) := by
  obtain ⟨-, -, hm, -⟩ := h
  have hb : r.base = 2 ^ (16 - r.len) * (r.base / 2 ^ (16 - r.len)) := (Nat.mul_div_cancel' (Nat.dvd_of_mod_eq_zero hm)).symm
  generalize r.base / 2 ^ (16 - r.len) = q at hb
  have hpos : 0 < 2 ^ (16 - r.len) := Nat.two_pow_pos _
  simp only [LutRun.Covers, Config.lookaheadBits, hb]
  rw [Nat.div_eq_iff hpos]
  constructor
  · rintro ⟨h1, h2⟩; exact ⟨by rw [Nat.mul_comm]; omega, by rw [Nat.mul_comm]; omega⟩
  · rintro ⟨h1, h2⟩
    rw [Nat.mul_comm] at h1
    rw [Nat.mul_comm] at h2
    exact ⟨h1, by omega⟩

end Sys2Proof.Machine
end

