-- ==== Sys2Proof/Laws/Idct.lean ====
section
/-! SUPPORT. The shape of what the transform's passes write, and that a pass does not touch what the other reads. -/

namespace Sys2Proof.Machine

@[simp] theorem fixedMul_zero_left (k : Word) : fixedMul 0#32 k = 0#32 := by simp [fixedMul, mul32, descale]

@[simp] theorem fixedMul_zero_right (k : Word) : fixedMul k 0#32 = 0#32 := by simp [fixedMul, mul32, descale]

theorem range_eight : List.range 8 = [0, 1, 2, 3, 4, 5, 6, 7] := rfl

/-- Descaling eight values descales each. -/
theorem Oct.descale_get (o : Oct) (n : Nat) {r : Nat} (h : r < 8) : (o.descale n).get r = Machine.descale (o.get r) n := by
  interval_cases r <;> rfl

@[simp] theorem pass1Block_length (qt coef : List Word) : (pass1Block qt coef).length = 64 := by
  simp [pass1Block, List.length_flatMap]

@[simp] theorem pass2Block_length (p : Nat) (ws : List Word) : (pass2Block p ws).length = 64 := by
  simp [pass2Block, pass2Row, Oct.toList, List.length_flatMap]

/-- Entry (r, x) of WS after pass 1. -/
theorem pass1Block_get (qt coef : List Word) {r x : Nat} (hr : r < 8) (hx : x < 8) :
    (pass1Block qt coef)[8 * r + x]? = some ((pass1Column qt coef x).get r) := by
  simp only [pass1Block, range_eight, List.flatMap_cons, List.map_cons, List.map_nil, List.flatMap_nil]
  interval_cases r <;> interval_cases x <;> rfl

/-- Entry (y, x) of OUT after pass 2. -/
theorem pass2Block_get (p : Nat) (ws : List Word) {y x : Nat} (hy : y < 8) (hx : x < 8) :
    (pass2Block p ws)[8 * y + x]? = some (rangeLimit (descale ((butterfly (workspaceRow ws y)).get x) (p + 3))) := by
  simp only [pass2Block, pass2Row, range_eight, List.flatMap_cons, List.map_cons, List.map_nil, List.flatMap_nil,
    Oct.toList]
  interval_cases y <;> interval_cases x <;> rfl

/-- Pass 1 on written tables. -/
theorem runPass1_eq {s : State} {qt coef : List Word} (hq : s.block .qt = some qt) (hc : s.block .coef = some coef) :
    runPass1 s = .next (s.setMem (s.mem.storeWords MemName.ws.base (pass1Block qt coef))) := by
  simp [runPass1, hq, hc]

/-- Pass 2 on a written workspace. -/
theorem runPass2_eq {s : State} {ws : List Word} (hw : s.block .ws = some ws) :
    runPass2 s = .next (s.setMem (s.mem.store MemName.out.base (pass2Block s.cfg.pass1Bits ws))) := by
  simp [runPass2, hw]

/-- What pass 1 does when it answers a next state. -/
theorem runPass1_cases {s t : State} (h : runPass1 s = .next t) : ∃ qt coef, s.block .qt = some qt ∧
    s.block .coef = some coef ∧ t = s.setMem (s.mem.storeWords MemName.ws.base (pass1Block qt coef)) := by
  simp only [runPass1] at h
  split at h
  · rename_i qt coef hq hc
    cases h
    exact ⟨qt, coef, hq, hc, rfl⟩
  · cases h
  · cases h

/-- What pass 2 does when it answers a next state. -/
theorem runPass2_cases {s t : State} (h : runPass2 s = .next t) : ∃ ws, s.block .ws = some ws ∧
    t = s.setMem (s.mem.store MemName.out.base (pass2Block s.cfg.pass1Bits ws)) := by
  simp only [runPass2] at h
  split at h
  · rename_i ws hw
    cases h
    exact ⟨ws, hw, rfl⟩
  · cases h

/-- WS after pass 1 reads back as the block pass 1 computed. -/
theorem block_ws_pass1 (s : State) (qt coef : List Word) :
    (s.setMem (s.mem.storeWords MemName.ws.base (pass1Block qt coef))).block .ws = some (pass1Block qt coef) := by
  have := Memory.readWords_storeWords s.mem MemName.ws.base (pass1Block qt coef)
  rw [pass1Block_length] at this
  exact this

/-- Writing OUT leaves WS. -/
theorem block_ws_storeOut (s : State) (bs : List Byte) :
    (s.setMem (s.mem.store MemName.out.base bs)).block .ws = s.block .ws := by
  refine Memory.readWords_congr fun j hj => ?_
  simp only [Config.blockSize] at hj
  change (s.mem.store MemName.out.base bs).read _ = _
  rw [Memory.read_store, if_neg]
  simp only [MemName.base]
  omega

end Sys2Proof.Machine
end

