-- ==== Sys2Proof/Laws/Exec.lean ====
section
/-! SUPPORT. Everything a command can do when it answers a next state, said once; later proofs go by these cases. -/

namespace Sys2Proof.Machine

/-- The effects of the commands. -/
inductive Effect (i : Instr) (s : State) : State → Prop
  | none : i = .nop → Effect i s s
  | clear : i = .clearErr → Effect i s s.clearError
  | soft : i = .softReset → Effect i s s.softReset
  | raise (e : ErrCode) (v : Word) : Effect i s (s.raise e v)
  | overrun : s.Primed → Effect i s s.overrun
  | invalid (v : Word) : s.Primed → Effect i s (s.faultReader.raise .invalidCode v)
  | buildFailed (b : BitVec 4) (v : Word) : i = .htBuild b → b.toNat < s.cfg.nht →
      Effect i s ((s.setSlot b.toNat (.invalid Option.none)).raise .malformedTable v)
  | built (b : BitVec 4) (t : List LutRun) : i = .htBuild b → b.toNat < s.cfg.nht → TableLegal t →
      Effect i s (s.setSlot b.toNat (.valid t))
  | result (v : Word) : Effect i s (s.setResult v)
  | consumed (v : Word) (n : Nat) : s.Primed → s.Remain n →
      (n ≤ 31 ∨ ∃ (b : BitVec 4) (t : List LutRun) (k : Nat), s.slot b.toNat = .valid t ∧ n = (lookup t k).1) →
      Effect i s ((s.setResult v).consume n)
  | skipped : s.Primed → s.Remain s.arg.toNat →
      Effect i s (State.skipLoop (s.arg.toNat / 31 + 1) s.arg.toNat s)
  | primed : s.brLen.toNat % 4 = 0 → s.brLen.toNat ≤ s.cfg.bufMaxBytes → Effect i s (s.prime s.brLen)
  | wroteWs (vs : List Word) : i = .idctPass1 → vs.length = 64 →
      Effect i s (s.setMem (s.mem.storeWords MemName.ws.base vs))
  | wroteOut (bs : List Byte) : i = .idctPass2 → bs.length = 64 → Effect i s (s.setMem (s.mem.store MemName.out.base bs))
  | wroteBoth (vs : List Word) (bs : List Byte) : i = .idctBlock → vs.length = 64 → bs.length = 64 →
      Effect i s (s.setMem ((s.mem.storeWords MemName.ws.base vs).store MemName.out.base bs))

/-- A command that answers a next state has one of the listed effects. -/
theorem exec_cases {i : Instr} {s t : State} (h : exec i s = .next t) : Effect i s t := by
  cases i with
  | nop => cases h; exact .none rfl
  | clearErr => cases h; exact .clear rfl
  | softReset => cases h; exact .soft rfl
  | fxMul => cases h; exact .result _
  | fxRlimit => cases h; exact .result _
  | brInit =>
    simp only [exec, execBrInit] at h
    split at h
    · cases h; exact .raise _ _
    · cases h; exact .primed (by omega) (by omega)
  | brPeek n =>
    rcases requireCount_cases h with ⟨-, rfl⟩ | ⟨-, h⟩
    · exact .raise _ _
    rcases requireReady_cases h with ⟨-, _, rfl⟩ | ⟨hp, h⟩
    · exact .raise _ _
    rcases requireBits_cases h with ⟨-, rfl⟩ | ⟨-, h⟩
    · exact .overrun hp
    obtain ⟨v, -, h⟩ := withStreamBits_cases h
    cases h; exact .result _
  | brRead n =>
    rcases requireCount_cases h with ⟨-, rfl⟩ | ⟨hn, h⟩
    · exact .raise _ _
    rcases requireReady_cases h with ⟨-, _, rfl⟩ | ⟨hp, h⟩
    · exact .raise _ _
    rcases requireBits_cases h with ⟨-, rfl⟩ | ⟨hr, h⟩
    · exact .overrun hp
    obtain ⟨v, -, h⟩ := withStreamBits_cases h
    cases h; exact .consumed _ _ hp hr (.inl (by simp only [countOperand]; omega))
  | brSkip =>
    rcases requireReady_cases h with ⟨-, _, rfl⟩ | ⟨hp, h⟩
    · exact .raise _ _
    rcases requireBits_cases h with ⟨-, rfl⟩ | ⟨hr, h⟩
    · exact .overrun hp
    cases h; exact .skipped hp hr
  | brPos =>
    rcases requireReady_cases h with ⟨-, _, rfl⟩ | ⟨-, h⟩
    · exact .raise _ _
    cases h; exact .result _
  | htBuild b =>
    rcases requireSlot_cases h with ⟨-, rfl⟩ | ⟨hb, h⟩
    · exact .raise _ _
    split at h
    · rename_i t' ht
      cases h; exact .built b t' rfl hb (buildTable_legal ht)
    · cases h; exact .buildFailed b _ rfl hb
    · cases h
  | htDecode b =>
    rcases requireSlot_cases h with ⟨-, rfl⟩ | ⟨-, h⟩
    · exact .raise _ _
    rcases requireTable_cases h with ⟨-, rfl⟩ | ⟨r, hr, h⟩
    · exact .raise _ _
    rcases requireReady_cases h with ⟨-, _, rfl⟩ | ⟨hp, h⟩
    · exact .raise _ _
    have fin : ∀ v, finishDecode r s v = .next t → Effect (.htDecode b) s t := by
      intro v h
      simp only [finishDecode] at h
      split at h
      · split at h
        · cases h; exact .overrun hp
        · cases h; exact .invalid _ hp
      · split at h
        · cases h; exact .overrun hp
        · rename_i h0 hle
          cases h
          refine .consumed _ _ hp ?_ (.inr ⟨b, r, v, hr, rfl⟩)
          have : s.reader.remaining = s.reader.streamLen - s.reader.p.toNat := rfl
          simp only [State.Remain]; omega
    simp only [decodeLookahead] at h
    split at h
    · obtain ⟨v, -, h⟩ := withStreamBits_cases h
      exact fin v h
    · split at h
      · rcases requireBits_cases h with ⟨-, rfl⟩ | ⟨-, h⟩
        · exact .overrun hp
        obtain ⟨v, -, h⟩ := withStreamBits_cases h
        exact fin v h
      · obtain ⟨v, -, h⟩ := withStreamBits_cases h
        exact fin _ h
  | htProbe b v =>
    rcases requireSlot_cases h with ⟨-, rfl⟩ | ⟨-, h⟩
    · exact .raise _ _
    rcases requireTable_cases h with ⟨-, rfl⟩ | ⟨r, -, h⟩
    · exact .raise _ _
    cases h; exact .result _
  | dqCoef k =>
    simp only [exec, execDqCoef, withDequantized] at h
    split at h
    · cases h; exact .result _
    · cases h
    · cases h
  | fxDescale n =>
    rcases requireCount_cases h with ⟨-, rfl⟩ | ⟨-, h⟩
    · exact .raise _ _
    cases h; exact .result _
  | idctPass1 =>
    obtain ⟨qt, coef, -, -, rfl⟩ := runPass1_cases h
    exact .wroteWs _ rfl (by simp)
  | idctPass2 =>
    obtain ⟨ws, -, rfl⟩ := runPass2_cases h
    exact .wroteOut _ rfl (by simp)
  | idctBlock =>
    obtain ⟨u, h1, h2⟩ := andThen_eq_next.mp h
    obtain ⟨qt, coef, -, -, rfl⟩ := runPass1_cases h1
    obtain ⟨ws, -, rfl⟩ := runPass2_cases h2
    exact .wroteBoth _ _ rfl (by simp) (by simp)

end Sys2Proof.Machine
end

