-- ==== Sys2Proof/Laws/PerInstr.lean ====
section
/-! SUPPORT. One law for each command: its word has the opcode and the fixed bits of its row of the opcode map (R108). -/

namespace Sys2Proof.Laws

/-- The command's word has the opcode of a row of the opcode map and selects that row. -/
def EncodeMatchesRow.Statement (i : Instr) : Prop :=
  ∃ r ∈ opcodeMap, opcodeField (encode i) = r.opcode ∧ r.Selects (encode i)

/-- The bits of a format SP word (R105). -/
theorem formatSP_getLsbD (op : BitVec 8) (s : BitVec 4) (v : BitVec 16) (i : Nat) : (formatSP op s v).getLsbD i =
    if i < 16 then v.getLsbD i else if i < 20 then false else if i < 24 then s.getLsbD (i - 20)
    else op.getLsbD (i - 24) := by
  simp only [formatSP, BitVec.getLsbD_append]
  split
  · rfl
  split
  · rw [if_pos (by omega)]; simp
  split
  · rw [if_neg (by omega), if_pos (by omega), show i - 16 - 4 = i - 20 by omega]
  · rw [if_neg (by omega), if_neg (by omega), show i - 16 - 4 - 4 = i - 24 by omega]

theorem EncodeMatchesRow.nop : EncodeMatchesRow.Statement .nop :=
  ⟨opcodeMap[0], List.getElem_mem _, by decide, by decide⟩

theorem EncodeMatchesRow.brInit : EncodeMatchesRow.Statement .brInit :=
  ⟨opcodeMap[1], List.getElem_mem _, by decide, by decide⟩

theorem EncodeMatchesRow.brPeek (n : BitVec 6) : EncodeMatchesRow.Statement (.brPeek n) :=
  ⟨opcodeMap[2], List.getElem_mem _, by revert n; decide, by revert n; decide⟩

theorem EncodeMatchesRow.brRead (n : BitVec 6) : EncodeMatchesRow.Statement (.brRead n) :=
  ⟨opcodeMap[3], List.getElem_mem _, by revert n; decide, by revert n; decide⟩

theorem EncodeMatchesRow.brSkip : EncodeMatchesRow.Statement .brSkip :=
  ⟨opcodeMap[4], List.getElem_mem _, by decide, by decide⟩

theorem EncodeMatchesRow.brPos : EncodeMatchesRow.Statement .brPos :=
  ⟨opcodeMap[5], List.getElem_mem _, by decide, by decide⟩

theorem EncodeMatchesRow.htBuild (s : BitVec 4) : EncodeMatchesRow.Statement (.htBuild s) :=
  ⟨opcodeMap[6], List.getElem_mem _, by revert s; decide, by revert s; decide⟩

theorem EncodeMatchesRow.htDecode (s : BitVec 4) : EncodeMatchesRow.Statement (.htDecode s) :=
  ⟨opcodeMap[7], List.getElem_mem _, by revert s; decide, by revert s; decide⟩

theorem EncodeMatchesRow.htProbe (s : BitVec 4) (v : BitVec 16) : EncodeMatchesRow.Statement (.htProbe s v) := by
  refine ⟨opcodeMap[8], List.getElem_mem _, ?_, ?_⟩
  · apply BitVec.eq_of_getLsbD_eq
    intro i hi
    show (BitVec.extractLsb' 24 8 (formatSP 0x12 s v)).getLsbD i = (0x12#8).getLsbD i
    rw [BitVec.getLsbD_extractLsb', decide_eq_true hi, Bool.true_and, formatSP_getLsbD, if_neg (by omega),
      if_neg (by omega), if_neg (by omega), show 24 + i - 24 = i by omega]
    rfl
  · apply BitVec.eq_of_getLsbD_eq
    intro i hi
    show (formatSP 0x12 s v &&& 0xFF0F0000#32).getLsbD i = (0x12000000#32).getLsbD i
    rw [BitVec.getLsbD_and, formatSP_getLsbD]
    interval_cases i <;> simp

theorem EncodeMatchesRow.dqCoef (i : BitVec 6) : EncodeMatchesRow.Statement (.dqCoef i) :=
  ⟨opcodeMap[9], List.getElem_mem _, by revert i; decide, by revert i; decide⟩

theorem EncodeMatchesRow.fxMul : EncodeMatchesRow.Statement .fxMul :=
  ⟨opcodeMap[10], List.getElem_mem _, by decide, by decide⟩

theorem EncodeMatchesRow.fxDescale (n : BitVec 6) : EncodeMatchesRow.Statement (.fxDescale n) :=
  ⟨opcodeMap[11], List.getElem_mem _, by revert n; decide, by revert n; decide⟩

theorem EncodeMatchesRow.fxRlimit : EncodeMatchesRow.Statement .fxRlimit :=
  ⟨opcodeMap[12], List.getElem_mem _, by decide, by decide⟩

theorem EncodeMatchesRow.idctPass1 : EncodeMatchesRow.Statement .idctPass1 :=
  ⟨opcodeMap[13], List.getElem_mem _, by decide, by decide⟩

theorem EncodeMatchesRow.idctPass2 : EncodeMatchesRow.Statement .idctPass2 :=
  ⟨opcodeMap[14], List.getElem_mem _, by decide, by decide⟩

theorem EncodeMatchesRow.idctBlock : EncodeMatchesRow.Statement .idctBlock :=
  ⟨opcodeMap[15], List.getElem_mem _, by decide, by decide⟩

theorem EncodeMatchesRow.clearErr : EncodeMatchesRow.Statement .clearErr :=
  ⟨opcodeMap[16], List.getElem_mem _, by decide, by decide⟩

theorem EncodeMatchesRow.softReset : EncodeMatchesRow.Statement .softReset :=
  ⟨opcodeMap[17], List.getElem_mem _, by decide, by decide⟩

end Sys2Proof.Laws
end

