-- ==== Sys2Proof/Tests/Slice0.lean ====
section
/-! SUPPORT. Tests. Words are written out from the formats and opcodes of spec/30_encoding.md R101 to R108; expected values
are those of spec/95_test_vectors.md, whose section each test names. The witnesses at the end show states and operands that
meet the hypotheses of each statement. -/

namespace Sys2Proof.Machine.Test

/-- What a test looks at in the next state, if there is one. -/
def after {α : Type} (r : Result) (f : State → α) : Option α :=
  match r with
  | .next t => some (f t)
  | .fault _ => none
  | .refused _ => none

/-- The fault a step stops with, if it does. -/
def faultOf (r : Result) : Option Fault :=
  match r with
  | .fault e => some e
  | .next _ => none
  | .refused _ => none

/-- The refusal a step stops with, if it does. -/
def refusalOf (r : Result) : Option Refusal :=
  match r with
  | .refused e => some e
  | .next _ => none
  | .fault _ => none

/-- One step on a host write of the word to CMD. -/
def run (s : State) (w : Nat) : Result := step (s.withFetchWord 32 w)

/-- STATUS, RESULT and ERRINFO. -/
def seen (s : State) : Word × Word × Word := (s.statusWord, s.result, s.errInfo)

/-- BUF word 0 holds v and BR_LEN is 4. -/
def loaded (v : Word) : State := { State.reset with mem := Memory.storeWord [] 0x40000 v, brLen := 4 }

/-- The reader primed over `loaded v`. -/
def primed (v : Word) : State := (loaded v).prime 4

/-- Buffer A of 95_test_vectors.md 2.1. -/
def bufferA : State := primed 0xA50FFF00

/-- The codewords of table E (95_test_vectors.md): 0, 10, 110, 111. -/
def tableE : List LutRun := [⟨0x0000, 1, 0x00⟩, ⟨0x8000, 2, 0x01⟩, ⟨0xC000, 3, 0x12⟩, ⟨0xE000, 3, 0x7F⟩]

/-- The one codeword of table S8 (95_test_vectors.md): 00. -/
def tableS8 : List LutRun := [⟨0x0000, 2, 0x05⟩]

/-- A specification loaded in HT_BITS, HUFFVAL and HVLEN. -/
def specified (bits : List Word) (symbols : List Byte) : State :=
  { State.reset with
    mem := (Memory.storeWords [] 0x100 bits).store 0x200 symbols, hvlen := BitVec.ofNat 32 symbols.length }

/-- BITS of table E. -/
def bitsE : List Word := [1, 1, 2, 0, 0, 0, 0, 0, 0, 0, 0, 0, 0, 0, 0, 0]

/-- Tables of QT and COEF in memory. -/
def blocks (qt coef : List Word) : State :=
  { State.reset with mem := (Memory.storeWords [] 0x400 qt).storeWords 0x500 coef }

/-- QT of the vectors of 95_test_vectors.md 2.5: all 65536. -/
def qt65536 : List Word := List.replicate 64 65536

/-- COEF of V1: COEF[0] = 80. -/
def coefV1 : List Word := 80 :: List.replicate 63 0

/-- COEF of V7: COEF[0] = −64, COEF[2] = 40, COEF[16] = −25, COEF[27] = 12, COEF[63] = 7. -/
def coefV7 : List Word :=
  [-64, 0, 40] ++ List.replicate 13 0 ++ [-25] ++ List.replicate 10 0 ++ [12] ++ List.replicate 35 0 ++ [7]

/-- Rows 0 and 1 of WS of V7 after pass 1. -/
def wsV7 : List Word := [-89, 0, 40, 12, 0, 0, 0, 7, -75, 0, 40, -3, 0, 0, 0, -20]

/-- WS of V1 after pass 1: column 0 all 80, the rest 0. -/
def wsV1 : List Word := (List.replicate 8 (80 :: List.replicate 7 0)).flatten

/-! ### WellFormed refuses a slot that does not exist (R111) -/

theorem test_wf_htBuild : Instr.wellFormed Config.standard (.htBuild 2) = false := by decide
theorem test_wf_htDecode : Instr.wellFormed Config.standard (.htDecode 2) = false := by decide
theorem test_wf_htProbe : Instr.wellFormed Config.standard (.htProbe 15 0) = false := by decide
theorem test_wf_slot1 : Instr.wellFormed Config.standard (.htBuild 1) = true := by decide

/-! ### Decoding: each word written out bit by bit, opcode byte first (R101 to R108) -/

theorem test_decode_nop : decode 0b00000000_000000000000000000000000 = .ok .nop := by decide
theorem test_decode_brInit : decode 0b00000001_000000000000000000000000 = .ok .brInit := by decide
theorem test_decode_brPeek : decode 0b00000010_000000000000000000_101101 = .ok (.brPeek 45) := by decide
theorem test_decode_brRead : decode 0b00000011_000000000000000000_011111 = .ok (.brRead 31) := by decide
theorem test_decode_brSkip : decode 0b00000100_000000000000000000000000 = .ok .brSkip := by decide
theorem test_decode_brPos : decode 0b00000101_000000000000000000000000 = .ok .brPos := by decide
theorem test_decode_htBuild : decode 0b00010000_00000000000000000000_1101 = .ok (.htBuild 13) := by decide
theorem test_decode_htDecode : decode 0b00010001_00000000000000000000_0001 = .ok (.htDecode 1) := by decide
theorem test_decode_htProbe :
    decode 0b00010010_1011_0000_1011111111111110 = .ok (.htProbe 11 0xBFFE) := by decide
theorem test_decode_dqCoef : decode 0b00100000_000000000000000000_100110 = .ok (.dqCoef 38) := by decide
theorem test_decode_fxMul : decode 0b00100001_000000000000000000000000 = .ok .fxMul := by decide
theorem test_decode_fxDescale : decode 0b00100010_000000000000000000_001000 = .ok (.fxDescale 8) := by decide
theorem test_decode_fxRlimit : decode 0b00100011_000000000000000000000000 = .ok .fxRlimit := by decide
theorem test_decode_idctPass1 : decode 0b00110000_000000000000000000000000 = .ok .idctPass1 := by decide
theorem test_decode_idctPass2 : decode 0b00110001_000000000000000000000000 = .ok .idctPass2 := by decide
theorem test_decode_idctBlock : decode 0b00110010_000000000000000000000000 = .ok .idctBlock := by decide
theorem test_decode_clearErr : decode 0b11110000_000000000000000000000000 = .ok .clearErr := by decide
theorem test_decode_softReset : decode 0b11111111_000000000000000000000000 = .ok .softReset := by decide
theorem test_reject_opcode : decode 0x06000000 = .error .reservedOpcode := by decide
theorem test_reject_brPeek_bit6 : decode 0x02000040 = .error .reservedBits := by decide
theorem test_reject_brSkip_bits : decode 0x0400FFFF = .error .reservedBits := by decide
theorem test_reject_htProbe_bits : decode 0x12010000 = .error .reservedBits := by decide
theorem test_tableWord : decodeTableWord 32 0x12000000 = some (.htProbe 0 0) := by decide
theorem test_text : Instr.text (.htProbe 1 0xBFFF) = "HT_PROBE 1, 49151" := by decide

/-! ### Issue, errors and control (95_test_vectors.md 2.6) -/

theorem test_illegal_word : after (run State.reset 0x06000000) seen = some (0x52, 0, 0x06000000) := by decide
theorem test_absent_slot : after (run State.reset 0x12200000) seen = some (0x52, 0, 0x12200000) := by decide
theorem test_dropped :
    after (run { State.reset.raise .illegalCommand 0x06000000 with arg := 5 } 0x23000000) seen =
      some (0x52, 0, 0x06000000) := by decide
theorem test_nop :
    after (run (State.reset.raise .illegalCommand 0x06000000) 0x00000000) seen = some (0x52, 0, 0x06000000) := by decide
theorem test_clearErr :
    after (run (State.reset.raise .illegalCommand 0x06000000) 0xF0000000) seen = some (0, 0, 0) := by decide
theorem test_softReset :
    after (run (((bufferA.setSlot 0 (.valid tableE)).setSlot 1 (.valid tableE)).raise .illegalCommand 0x06000000)
      0xFF000000) (fun t => (seen t, t.brLen, t.mem.readWord 0x40000)) = some ((0, 0, 0), 0, some 0xA50FFF00) := by decide

/-! ### The bit reader (95_test_vectors.md 1.2, 1.6, 2.1) -/

theorem test_brInit : after (run (loaded 0xA50FFF00) 0x01000000) seen = some (0x100, 0, 0) := by decide
theorem test_brInit_bad_length :
    after (run { loaded 0 with brLen := 6 } 0x01000000) seen = some (0x72, 0, 6) := by decide
theorem test_brPeek : after (run bufferA 0x0200000C) (fun t => (seen t, t.reader.p)) = some ((0x100, 0xA50, 0), 0) := by
  decide
theorem test_brPeek_range : after (run bufferA 0x02000020) seen = some (0x132, 0, 0x20) := by decide
theorem test_brRead :
    after (run bufferA 0x0300001F) (fun t => (seen t, t.reader.p)) = some ((0x100, 0x5287FF80, 0), 31) := by decide
theorem test_brRead_overrun : after (run (bufferA.consume 32) 0x03000001) seen = some (0x222, 0, 0x20) := by decide
theorem test_brSkip :
    after (run { bufferA.consume 12 with arg := 20 } 0x04000000) (fun t => (seen t, t.reader.p)) =
      some ((0x100, 0, 0), 32) := by decide
theorem test_brSkip_overrun : after (run { bufferA with arg := 0xFFFFFFFF } 0x04000000) seen = some (0x222, 0, 0) := by
  decide
theorem test_brPos : after (run (bufferA.consume 12) 0x05000000) seen = some (0x100, 12, 0) := by decide
theorem test_brPos_faulted : after (run bufferA.faultReader 0x05000000) seen = some (0x262, 0, 2) := by decide

/-! ### The Huffman decoder (95_test_vectors.md 1.3, 2.2, 2.3) -/

theorem test_htBuild :
    after (run (specified bitsE [0x00, 0x01, 0x12, 0x7F]) 0x10000000) (fun t => (seen t, (t.slot 0).table)) =
      some ((0x00010000, 0, 0), tableE) := by decide
theorem test_htBuild_kraft :
    after (run (specified ([1, 3] ++ List.replicate 14 0) [0, 1, 2, 3]) 0x10000000) seen = some (0x12, 0, 0x04000002) := by
  decide
theorem test_htDecode :
    after (run ((primed 0xCF000000).setSlot 0 (.valid tableE)) 0x11000000) (fun t => (seen t, t.reader.p)) =
      some ((0x00010100, 0x312, 0), 3) := by decide
theorem test_htDecode_invalid :
    after (run ((primed 0x40000000).setSlot 0 (.valid tableS8)) 0x11000000) seen = some (0x00010242, 0, 0x4000) := by
  decide
theorem test_htProbe :
    after (run (State.reset.setSlot 1 (.valid tableE)) 0x1210BFFF) seen = some (0x00020000, 0x80000201, 0) := by decide
theorem test_htProbe_unfilled :
    after (run (State.reset.setSlot 1 (.valid tableS8)) 0x12104000) seen = some (0x00020000, 0, 0) := by decide

/-! ### The datapath (95_test_vectors.md 2.4) -/

theorem test_fxMul : after (run { State.reset with arg := 1, arg2 := -669 } 0x21000000) seen = some (0, 0xFFFFFFFD, 0) := by
  decide
theorem test_fxMul_wraps :
    after (run { State.reset with arg := 0x7FFFFFFF, arg2 := 2 } 0x21000000) seen = some (0, 0xFFFFFFFF, 0) := by decide
theorem test_fxDescale : after (run { State.reset with arg := -257 } 0x22000008) seen = some (0, 0xFFFFFFFE, 0) := by decide
theorem test_fxDescale_range : after (run { State.reset with arg := 100 } 0x2200003F) seen = some (0x32, 0, 0x3F) := by
  decide
theorem test_fxRlimit : after (run { State.reset with arg := 0x7FFFFFFF } 0x23000000) seen = some (0, 0xFF, 0) := by decide
theorem test_fxRlimit_low : after (run { State.reset with arg := -129 } 0x23000000) seen = some (0, 0, 0) := by decide
theorem test_dqCoef :
    after (run { State.reset with mem := (Memory.storeWord [] 0x414 512).storeWord 0x514 (-3) } 0x20000005) seen =
      some (0, 0xFFFFFFFA, 0) := by decide
theorem test_dqCoef_unwritten :
    faultOf (run { State.reset with mem := Memory.storeWord [] 0x414 512 } 0x20000005) = some (.unwritten .coef) := by
  decide

/-! ### The transform (95_test_vectors.md 2.5) -/

/-- The tables that `blocks` puts in memory read back. -/
theorem blocks_read {qt coef : List Word} (hq : qt.length = 64) (hc : coef.length = 64) :
    (blocks qt coef).block .qt = some qt ∧ (blocks qt coef).block .coef = some coef := by
  constructor
  · have h := Memory.readWords_storeWords [] 0x400 qt
    rw [hq] at h
    refine Eq.trans (Memory.readWords_congr fun j hj => ?_) h
    simp only [Config.blockSize] at hj
    exact Memory.read_storeWords_of_ne _ _ (by rw [hc]; simp only [MemName.base]; omega)
  · have h := Memory.readWords_storeWords (Memory.storeWords [] 0x400 qt) 0x500 coef
    rw [hc] at h
    exact h

theorem test_pass1Block_V1 : pass1Block qt65536 coefV1 = wsV1 := by decide

/-- Pass 1 leaves the computed block in WS. -/
theorem after_idctPass1 {s : State} {qt coef ws : List Word} (hq : s.block .qt = some qt)
    (hc : s.block .coef = some coef) (hw : pass1Block qt coef = ws) :
    after (exec .idctPass1 s) (fun t => t.block .ws) = some (some ws) := by
  have h := block_ws_pass1 s qt coef
  rw [hw] at h
  simp only [exec, execIdctPass1, runPass1_eq hq hc, after, hw, h]

theorem test_idctPass1_V1 : after (exec .idctPass1 (blocks qt65536 coefV1)) (fun t => t.block .ws) = some (some wsV1) :=
  after_idctPass1 (blocks_read rfl rfl).1 (blocks_read rfl rfl).2 test_pass1Block_V1

theorem test_idctPass2_V1 : pass2Block 2 wsV1 = List.replicate 64 130 := by decide

theorem test_idctBlock_V7_ws_rows01 :
    (pass1Block qt65536 coefV7).take 16 = wsV7 := by decide

theorem test_idctBlock_V7_out_rows01 : (pass2Block 2 (wsV7 ++ List.replicate 48 0)).take 16 =
    [127, 124, 125, 122, 125, 124, 126, 125, 126, 127, 122, 127, 121, 127, 124, 127] := by decide

theorem test_butterfly :
    butterfly ⟨1000, -500, 300, 200, -100, 50, 25, -10⟩ = ⟨965, 631, 494, 466, 684, 1580, 1695, 1485⟩ := by decide

/-! ### The host's accesses (20_memory.md R71, R72, R78, R79, R86; 10_state.md R40) -/

theorem test_read_config :
    after (step { State.reset with requests := [.read 0x020 4] }) (fun t => t.replies) = some [0x40000042] := by decide
theorem test_write_arg :
    after (step { State.reset with requests := [.write 0x004 4 5] }) (fun t => (t.arg, t.requests)) = some (5, []) := by
  decide
theorem test_write_buf_big_endian :
    after (step { State.reset with requests := [.write 0x40000 4 0xA50FFF00] }) (fun t => t.mem.read 0x40001) =
      some (some 0x0F) := by decide
theorem test_write_out_ignored :
    after (step { State.reset with requests := [.write 0x700 4 1] }) (fun t => t.mem) = some [] := by decide
theorem test_byte_access_refused :
    refusalOf (step { State.reset with requests := [.write 0x200 1 1] }) = some .unsupportedAccess := by decide

/-! ### Witnesses: states and operands that meet the hypotheses of each statement, at the ends of their ranges -/

/-- The state after reset with the next requests placed. -/
def asked (rs : List HostRequest) : State := { State.reset with requests := rs }

/-- The state after reset with a host write of v to CMD placed. -/
def issued (v : Word) : State := asked [cmdRequest Config.standard v]

/-- `issued` with an error recorded. -/
def issuedUnderError (v : Word) : State := (issued v).raise .argRange 32

/-- The block with ZERO_FILL. -/
def zeroFill : Config := { Config.standard with tailMode := .zeroFill }

theorem witness_EncodeOfDecode : decode 0x1210BFFF = .ok (.htProbe 1 0xBFFF) := by decide

theorem witness_OpcodeMap : ∃ r ∈ opcodeMap, r.Selects 0x1210BFFF := ⟨opcodeMap[8], List.getElem_mem _, by decide⟩

theorem witness_StepRuns :
    ((issued 0x05000000).Issues 0x05000000 [] ∧ (issued 0x05000000).err = none ∧ decode 0x05000000 = .ok .brPos) ∧
    ((issuedUnderError 0xFF000000).Issues 0xFF000000 [] ∧ ExecutesUnderError 0xFF000000 ∧
      decode 0xFF000000 = .ok .softReset) ∧
    decodeTableWord 32 0x10000001 = some (.htBuild 1) ∧ State.reset.err = none := by decide

theorem witness_IllegalWord : (issued 0x06000000).Issues 0x06000000 [] ∧ (issued 0x06000000).err = none ∧
    (∀ op ∈ [0x06, 0x0F, 0x13, 0x1F, 0x24, 0x2F, 0x33, 0xEF, 0xF1, 0xFE], ReservedOpcode op) := by decide

theorem witness_IllegalWord_bits : ∀ c ∈ [((0x00000001 : Word), 0), (0x00800000, 23), (0x02000040, 6), (0x02800000, 23),
      (0x10000010, 4), (0x12010000, 16), (0x12080000, 19)],
    c.2 < 24 ∧ c.1.getLsbD c.2 = true ∧
      ∃ r ∈ opcodeMap, opcodeField c.1 = r.opcode ∧ r.mask.getLsbD c.2 = true := by decide

theorem witness_AbsentSlot : (issued 0x10000002).Issues 0x10000002 [] ∧ (issued 0x10000002).err = none ∧
    decode 0x10000002 = .ok (.htBuild 2) ∧ Instr.wellFormed (issued 0x10000002).cfg (.htBuild 2) = false ∧
    (issued 0x12F00000).Issues 0x12F00000 [] ∧ decode 0x12F00000 = .ok (.htProbe 15 0) ∧
    Instr.wellFormed (issued 0x12F00000).cfg (.htProbe 15 0) = false := by decide

theorem witness_RecordedError : ∀ n ∈ [0x23000000, 0x00000000, 0xF0000000, 0xFF000000, 0x06000000],
    (issuedUnderError (BitVec.ofNat 32 n)).Issues (BitVec.ofNat 32 n) [] ∧
      (issuedUnderError (BitVec.ofNat 32 n)).err = some .argRange := by decide

theorem witness_SoftReset : bufferA.busy = false ∧ bufferA.statusWord ≠ 0 := by decide

theorem witness_HardwareReset : ({ bufferA with requests := [.reset] } : State).requests = .reset :: [] := by decide

theorem witness_BrInit : ∀ n ∈ [0, 4, 65536], (BitVec.ofNat 32 n).toNat % 4 = 0 ∧
    (BitVec.ofNat 32 n).toNat ≤ ({ loaded 7 with brLen := BitVec.ofNat 32 n } : State).cfg.bufMaxBytes := by decide

theorem witness_BrInit_word : (loaded 7).brLen ≠ 0 ∧ (loaded 7).mem.readWord MemName.buf.base = some 7 := by decide

theorem witness_BrInit_bad : ((6 : Word).toNat % 4 ≠ 0) ∧ State.reset.cfg.bufMaxBytes < (65540 : Word).toNat := by decide

theorem witness_BrPeek_BrRead : bufferA.Primed ∧ (bufferA.consume 1).Primed ∧
    (bufferA.Remain 0 ∧ StreamWritten bufferA.mem bufferA.reader.p.toNat 0) ∧
    ((31 : BitVec 6).toNat < 32 ∧ (bufferA.consume 1).Remain 31 ∧
      StreamWritten (bufferA.consume 1).mem (bufferA.consume 1).reader.p.toNat 31) := by decide

theorem witness_BrSkip : ∀ n ∈ [0, 32], ({ bufferA with arg := BitVec.ofNat 32 n } : State).Primed ∧
    ({ bufferA with arg := BitVec.ofNat 32 n } : State).Remain (BitVec.ofNat 32 n).toNat := by decide

theorem witness_BrPos : bufferA.Primed := by decide

theorem witness_PastTheEnd : (bufferA.consume 31).Primed ∧ ¬ (bufferA.consume 31).Remain (2 : BitVec 6).toNat ∧
    ¬ (bufferA.consume 2).Remain (31 : BitVec 6).toNat ∧ ¬ ({ bufferA with arg := 33 } : State).Remain 33 := by decide

theorem witness_CountRange : 32 ≤ (32 : BitVec 6).toNat ∧ 32 ≤ (63 : BitVec 6).toNat := by decide

theorem witness_NotReady : State.reset.reader.rstate = .idle ∧ bufferA.faultReader.reader.rstate = .faulted ∧
    ((1 : BitVec 4).toNat < State.reset.cfg.nht ∧
      (State.reset.setSlot 1 (.valid tableE)).slot (1 : BitVec 4).toNat = .valid tableE) ∧
    (State.reset.slot (0 : BitVec 4).toNat).isValid = false := by decide

theorem bufferA_inv : bufferA.Inv :=
  ⟨by decide, by decide, by decide, by decide, by decide, by decide⟩

theorem witness_Split : bufferA.Inv ∧ (31 : BitVec 6).toNat = (1 : BitVec 6).toNat + (30 : BitVec 6).toNat ∧
    bufferA.Primed ∧ bufferA.Remain 31 ∧ StreamWritten bufferA.mem bufferA.reader.p.toNat 31 :=
  ⟨bufferA_inv, by decide⟩

theorem witness_Lookahead : bufferA.Inv ∧ bufferA.Primed ∧ bufferA.Remain 32 ∧
    streamBits bufferA.mem bufferA.reader.p.toNat 32 = some 0xA50FFF00 ∧
    streamBits bufferA.mem bufferA.reader.p.toNat 1 = some 1 :=
  ⟨bufferA_inv, by decide⟩

/-- A buffer of two words under the primed reader, a valid slot, and a host write to the buffer's last word. -/
def rewritten : State :=
  { (State.prime { State.reset with mem := Memory.storeWords [] 0x40000 [1, 2], brLen := 8 } 8).setSlot 0 (.valid tableE) with
    requests := [.write (MemName.buf.wordAddr 1) 4 9] }

theorem witness_ChangedBuffer : rewritten.reader.rstate = .ready ∧ 1 < rewritten.reader.lenLatched.toNat / 4 ∧
    4 * 1 + 4 ≤ rewritten.cfg.bufMaxBytes ∧ rewritten.cfg.Legal ∧ rewritten.Writes (MemName.buf.wordAddr 1) 9 [] ∧
    rewritten.brLen.toNat % 4 = 0 ∧ rewritten.brLen.toNat ≤ rewritten.cfg.bufMaxBytes ∧
    (0 : BitVec 4).toNat < rewritten.cfg.nht ∧ rewritten.slot (0 : BitVec 4).toNat = .valid tableE := by decide

/-- 70_reset_and_hazards.md R304, R310: BUF words beyond the latched length, and other memories, may be written under a
primed reader. -/
theorem test_freeWrites : ∀ off ∈ [0x40008, 0x4FFFC, 0x100, 0x200, 0x400, 0x500],
    after (step { rewritten with requests := [.write off 4 9] }) (fun t => t.bufDirty) = some false := by decide

/-- Counts that are written in HT_BITS, each below 2^L. -/
def CountsWritten (s : State) (cs : List Nat) : Prop :=
  ∀ i < 16, ∃ c, s.mem.readWord (MemName.htBits.wordAddr i) = some c ∧ c.toNat = cs.getD i 0 ∧ c.toNat < 2 ^ (i + 1)

/-- A loaded specification from checks that evaluate. -/
theorem specLoaded_of {s : State} {bits : List Word} (hl : bits.length = 16)
    (hb : s.mem.readWords MemName.htBits.base 16 = some bits)
    (hlt : ∀ i < 16, (bits.getD i 0).toNat < 2 ^ (i + 1)) : CountsWritten s (bits.map (fun v => v.toNat)) := by
  obtain ⟨-, hg⟩ := Memory.readWords_eq_some.mp hb
  intro i hi
  have hi' : i < bits.length := by omega
  have := hlt i hi
  rw [List.getD_eq_getElem?_getD, List.getElem?_eq_getElem hi'] at this
  exact ⟨bits[i], hg i hi', by
    rw [List.getD_eq_getElem?_getD, List.getElem?_map, List.getElem?_eq_getElem hi']; rfl, this⟩

/-- Table E, loaded. -/
def specE : State := specified bitsE [0x00, 0x01, 0x12, 0x7F]

/-- BITS[2] = 3 with three symbols, loaded. -/
def spec23 : State := specified ([0, 3] ++ List.replicate 14 0) [7, 8, 9]

/-- BITS of table E as numbers. -/
def countsE : List Nat := [1, 1, 2] ++ List.replicate 13 0

/-- BITS[2] = 3 as numbers. -/
def counts23 : List Nat := [0, 3] ++ List.replicate 14 0

theorem witness_HtBuild : SpecLoaded specE countsE ∧ codeSpace countsE 16 = 65536 ∧ 0 < specE.cfg.nht := by
  have h : CountsWritten specE countsE := specLoaded_of (bits := bitsE) rfl (by decide) (by decide)
  exact ⟨⟨⟨by decide, h, by decide, by decide⟩, by decide⟩, by decide, by decide⟩

theorem witness_HtBuild_codeword : (1 - 1 < countOf countsE 3) ∧ 0xC000 / 2 ^ (16 - 3) = firstCode countsE 3 + 0 ∧
    0xFFFF / 2 ^ (16 - 3) = firstCode countsE 3 + 1 ∧ firstSymbol countsE 3 = 2 := by decide

theorem witness_HtBuild_unfilled : SpecLoaded spec23 counts23 ∧ codeSpace counts23 16 = 0xC000 := by
  have h : CountsWritten spec23 counts23 :=
    specLoaded_of (bits := [0, 3] ++ List.replicate 14 0) rfl (by decide) (by decide)
  exact ⟨⟨⟨by decide, h, by decide, by decide⟩, by decide⟩, by decide⟩

theorem witness_HtBuildRejects_hvlen : (1 : BitVec 4).toNat < State.reset.cfg.nht ∧ 256 < ({ State.reset with hvlen := 257 } : State).hvlen.toNat := by decide

theorem witness_HtBuildRejects_first :
    (specified (2 :: List.replicate 15 0) [0, 1]).mem.readWord (MemName.htBits.wordAddr 0) = some 2 ∧
      2 ^ (0 + 1) ≤ (2 : Word).toNat := by decide

theorem witness_HtBuildRejects_last : let s := specified (List.replicate 15 0 ++ [65536]) []
    s.hvlen.toNat ≤ 256 ∧ (∀ j < 15, s.mem.readWord (MemName.htBits.wordAddr j) = some 0) ∧
      s.mem.readWord (MemName.htBits.wordAddr 15) = some 65536 ∧ 2 ^ (15 + 1) ≤ (65536 : Word).toNat := by decide

theorem witness_HtBuildRejects_sum : let s := specified ([0, 2] ++ List.replicate 14 0) [5]
    s.hvlen.toNat ≤ 256 ∧ CountsWritten s ([0, 2] ++ List.replicate 14 0) ∧
      ([0, 2] ++ List.replicate 14 0).sum ≠ s.hvlen.toNat := by
  have h : CountsWritten (specified ([0, 2] ++ List.replicate 14 0) [5]) ([0, 2] ++ List.replicate 14 0) :=
    specLoaded_of (bits := [0, 2] ++ List.replicate 14 0) rfl (by decide) (by decide)
  exact ⟨by decide, h, by decide⟩

/-- BITS[1] = 1, BITS[2] = 3 with four symbols, loaded. -/
def specKraft2 : State := specified ([1, 3] ++ List.replicate 14 0) [0, 1, 2, 3]

/-- BITS[1] = 1, BITS[2] = 1 to BITS[15] = 1 and BITS[16] = 3, loaded. -/
def specKraft16 : State := specified (List.replicate 15 1 ++ [3]) (List.replicate 18 0)

theorem witness_CodeSpaceOverflow_2 : SpecLoaded specKraft2 ([1, 3] ++ List.replicate 14 0) ∧
    2 ^ 2 < codeSpace ([1, 3] ++ List.replicate 14 0) 2 ∧
    (∀ l < 2, 1 ≤ l → codeSpace ([1, 3] ++ List.replicate 14 0) l ≤ 2 ^ l) := by
  have h : CountsWritten specKraft2 ([1, 3] ++ List.replicate 14 0) :=
    specLoaded_of (bits := [1, 3] ++ List.replicate 14 0) rfl (by decide) (by decide)
  exact ⟨⟨⟨by decide, h, by decide, by decide⟩, by decide⟩, by decide, by decide⟩

theorem witness_CodeSpaceOverflow_16 : SpecLoaded specKraft16 (List.replicate 15 1 ++ [3]) ∧
    2 ^ 16 < codeSpace (List.replicate 15 1 ++ [3]) 16 ∧
    (∀ l < 16, 1 ≤ l → codeSpace (List.replicate 15 1 ++ [3]) l ≤ 2 ^ l) := by
  have h : CountsWritten specKraft16 (List.replicate 15 1 ++ [3]) :=
    specLoaded_of (bits := List.replicate 15 1 ++ [3]) rfl (by decide) (by decide)
  exact ⟨⟨⟨by decide, h, by decide, by decide⟩, by decide⟩, by decide, by decide⟩

theorem witness_Lookup : TableLegal tableE ∧ (lookup tableE 0x8000).1 = 2 ∧
    0xBFFF / 2 ^ (16 - (lookup tableE 0x8000).1) = 0x8000 / 2 ^ (16 - (lookup tableE 0x8000).1) := by decide

/-- A primed reader with table E in slot 0. -/
def decoding (v : Word) : State := (primed v).setSlot 0 (.valid tableE)

/-- The same with ZERO_FILL and 8 bits left. -/
def decodingTail (v : Word) : State := { (decoding v).consume 24 with cfg := zeroFill }

theorem witness_HtDecode : (0 : BitVec 4).toNat < (decoding 0xCF000000).cfg.nht ∧
    (decoding 0xCF000000).slot (0 : BitVec 4).toNat = .valid tableE ∧ (decoding 0xCF000000).Primed ∧
    LookaheadIs (decoding 0xCF000000) 0xCF00 ∧ (lookup tableE 0xCF00).1 = 3 ∧
    3 ≤ (decoding 0xCF000000).reader.remaining :=
  ⟨by decide, by decide, by decide, .inl (by decide), by decide, by decide⟩

theorem witness_HtDecode_tail : (0 : BitVec 4).toNat < (decodingTail 0xE8).cfg.nht ∧
    (decodingTail 0xE8).slot (0 : BitVec 4).toNat = .valid tableE ∧ (decodingTail 0xE8).Primed ∧
    LookaheadIs (decodingTail 0xE8) 0xE800 ∧ (lookup tableE 0xE800).1 = 3 ∧
    (decodingTail 0xE8).reader.remaining = 8 :=
  ⟨by decide, by decide, by decide, .inr ⟨by decide, by decide, 0xE8, by decide, by decide⟩, by decide, by decide⟩

theorem witness_HtDecodeFailures_strict : let s := (decoding 0xE8).consume 17
    (0 : BitVec 4).toNat < s.cfg.nht ∧ s.slot (0 : BitVec 4).toNat = .valid tableE ∧ s.Primed ∧
      s.cfg.tailMode = .strict ∧ s.reader.remaining = 15 := by decide

/-- A primed reader over v with p bits consumed and the table in slot 0 (95_test_vectors.md 2.3). -/
def decodingAt (v : Word) (p : Nat) (t : List LutRun) (m : TailMode) : State :=
  { ((primed v).setSlot 0 (.valid t)).consume p with cfg := { Config.standard with tailMode := m } }

/-- The one codeword of length 16 of 95_test_vectors.md 2.3. -/
def table16 : List LutRun := [⟨0, 16, 0xAB⟩]

theorem witness_HtDecodeFailures_invalid : let s := decodingAt 0x40000000 16 tableS8 .strict
    (0 : BitVec 4).toNat < s.cfg.nht ∧ s.slot (0 : BitVec 4).toNat = .valid tableS8 ∧ s.Primed ∧
      s.reader.remaining = 16 ∧ LookaheadIs s 0 ∧ (lookup tableS8 0x4000).1 = 0 ∧
      LookaheadIs (decodingAt 0x40000000 0 tableS8 .strict) 0x4000 :=
  ⟨by decide, by decide, by decide, by decide, .inl (by decide), by decide, .inl (by decide)⟩

theorem witness_HtDecodeFailures_unfilled : let s := decodingAt 1 30 tableS8 .zeroFill
    (0 : BitVec 4).toNat < s.cfg.nht ∧ s.slot (0 : BitVec 4).toNat = .valid tableS8 ∧ s.Primed ∧ LookaheadIs s 0x4000 ∧
      s.reader.remaining < 16 ∧ (lookup tableS8 0x4000).1 = 0 :=
  ⟨by decide, by decide, by decide, .inr ⟨by decide, by decide, 1, by decide, by decide⟩, by decide, by decide⟩

theorem witness_HtDecodeFailures_too_long : let s := decodingAt 0 17 table16 .zeroFill
    (0 : BitVec 4).toNat < s.cfg.nht ∧ s.slot (0 : BitVec 4).toNat = .valid table16 ∧ s.Primed ∧ LookaheadIs s 0 ∧
      s.reader.remaining = 15 ∧ 15 < (lookup table16 0).1 :=
  ⟨by decide, by decide, by decide, .inr ⟨by decide, by decide, 0, by decide, by decide⟩, by decide, by decide⟩

theorem witness_HtProbe : (1 : BitVec 4).toNat < State.reset.cfg.nht ∧
    (State.reset.setSlot 1 (.valid tableE)).slot (1 : BitVec 4).toNat = .valid tableE ∧ TableLegal tableE := by decide

theorem decoding_inv : (decoding 0xCF000000).Inv :=
  ⟨by decide, by decide, by decide, by decide, by decide, by decide⟩

theorem witness_DecodingInverts : let s := decoding 0xCF000000
    let rs : List LutRun := [⟨0xC000, 3, 0x12⟩, ⟨0x0000, 1, 0x00⟩, ⟨0xE000, 3, 0x7F⟩]
    let last : LutRun := ⟨0x8000, 2, 0x01⟩
    s.Inv ∧ (0 : BitVec 4).toNat < s.cfg.nht ∧ s.slot (0 : BitVec 4).toNat = .valid tableE ∧ s.Primed ∧
      (∀ r ∈ rs ++ [last], r ∈ tableE) ∧ SpellsCodewords s.mem s.reader.p.toNat (rs ++ [last]) ∧
      s.Remain ((rs.map (fun r => r.len)).sum + 16) ∧
      StreamWritten s.mem s.reader.p.toNat (min ((rs.map (fun r => r.len)).sum + 16) s.reader.remaining) := by
  refine ⟨decoding_inv, by decide, by decide, by decide, by decide, ?_, by decide, by decide⟩
  simp only [List.cons_append, List.nil_append, SpellsCodewords]
  decide

/-- The same with ZERO_FILL and two bits left, which are the codeword 10 of table E. -/
def decodingLast : State := { (decoding 2).consume 30 with cfg := zeroFill }

theorem decodingLast_inv : decodingLast.Inv :=
  ⟨by decide, by decide, by decide, by decide, by decide, by decide⟩

theorem witness_DecodingInverts_tail : let s := decodingLast
    let last : LutRun := ⟨0x8000, 2, 0x01⟩
    s.Inv ∧ (0 : BitVec 4).toNat < s.cfg.nht ∧ s.slot (0 : BitVec 4).toNat = .valid tableE ∧ s.Primed ∧ last ∈ tableE ∧
      SpellsCodewords s.mem s.reader.p.toNat [last] ∧ (s.cfg.tailMode = .zeroFill ∧ s.Remain 2) ∧
      StreamWritten s.mem s.reader.p.toNat (min (0 + 16) s.reader.remaining) := by
  refine ⟨decodingLast_inv, by decide, by decide, by decide, by decide, ?_, by decide, by decide⟩
  simp only [SpellsCodewords]
  decide

theorem witness_FxDescale : (0 : BitVec 6).toNat < 32 ∧ (31 : BitVec 6).toNat < 32 := by decide

theorem witness_DqCoef : let m := (Memory.storeWord [] 0x4FC 512).storeWord 0x5FC 9
    m.readWord (0x400 + 4 * (63 : BitVec 6).toNat) = some 512 ∧
      m.readWord (0x500 + 4 * (63 : BitVec 6).toNat) = some 9 ∧
      m.readWord (0x400 + 4 * (0 : BitVec 6).toNat) = none := by decide

theorem witness_DqCoef_coef : let m := Memory.storeWord [] 0x400 512
    m.readWord (0x400 + 4 * (0 : BitVec 6).toNat) ≠ none ∧ m.readWord (0x500 + 4 * (0 : BitVec 6).toNat) = none := by
  decide

theorem witness_Idct : (blocks qt65536 coefV1).block .qt = some qt65536 ∧
    (blocks qt65536 coefV1).block .coef = some coefV1 := blocks_read rfl rfl

theorem witness_IdctPass2 :
    ((blocks qt65536 coefV1).setMem ((blocks qt65536 coefV1).mem.storeWords MemName.ws.base
      (pass1Block qt65536 coefV1))).block .ws = some (pass1Block qt65536 coefV1) :=
  block_ws_pass1 (blocks qt65536 coefV1) qt65536 coefV1

theorem witness_FlatBlock : qt65536 = 65536 :: List.replicate 63 65536 ∧ coefV1 = 80 :: List.replicate 63 0 :=
  ⟨rfl, rfl⟩

theorem witness_UnwrittenStops_qt_ws : State.reset.block .qt = none ∧ State.reset.block .ws = none := by decide

theorem witness_UnwrittenStops_coef : let s := { State.reset with mem := Memory.storeWords [] 0x400 qt65536 }
    s.block .qt ≠ none ∧ s.block .coef = none := by
  have h := Memory.readWords_storeWords [] 0x400 qt65536
  rw [show qt65536.length = 64 from rfl] at h
  refine ⟨fun hn => ?_, ?_⟩
  · exact absurd (hn.symm.trans h) (by simp)
  · have h5 : Memory.readWord (Memory.storeWords [] 0x400 qt65536) 0x500 = none := by
      simp only [Memory.readWord]
      rw [Memory.read_storeWords_of_ne _ _ (by rw [show qt65536.length = 64 from rfl]; omega)]
      rfl
    simp only [State.block, MemName.base, Config.blockSize, Memory.readWords, h5]

/-- A reader primed over four bytes that nothing has written: its prefetch holds a free value. -/
def unwrittenBuffer : State :=
  { State.reset with
    brLen := 4, reader := { Reader.initial with rstate := .ready, lenLatched := 4, nw := 32, idx := 1 }, freeCount := 1,
    slots := [.valid tableE, .invalid none] }

theorem witness_UnwrittenStops_reader : (1 : BitVec 6).toNat < 32 ∧ unwrittenBuffer.Primed ∧ unwrittenBuffer.Remain 31 ∧
    ¬ StreamWritten unwrittenBuffer.mem unwrittenBuffer.reader.p.toNat 1 ∧
    ¬ StreamWritten unwrittenBuffer.mem unwrittenBuffer.reader.p.toNat 31 := by decide

theorem witness_CommandsStop : unwrittenBuffer.Inv ∧
    faultOf (exec (.brPeek 1) unwrittenBuffer) = some (.unwritten .buf) :=
  ⟨⟨by decide, by decide, by decide, by decide, by decide, by decide⟩, by decide⟩

theorem witness_UnwrittenStops_htDecode : (0 : BitVec 4).toNat < unwrittenBuffer.cfg.nht ∧
    unwrittenBuffer.slot (0 : BitVec 4).toNat = .valid tableE ∧ 16 ≤ unwrittenBuffer.reader.remaining ∧
    ¬ StreamWritten unwrittenBuffer.mem unwrittenBuffer.reader.p.toNat 16 := by decide

theorem witness_UnwrittenStops_htDecode_tail :
    let s := { unwrittenBuffer with cfg := zeroFill, reader := { unwrittenBuffer.reader with p := 17, nw := 15 } }
    s.Primed ∧ s.reader.remaining = 15 ∧ s.cfg.tailMode = .zeroFill ∧ ¬ StreamWritten s.mem s.reader.p.toNat 15 := by
  decide

theorem witness_UnwrittenStops_htBits : State.reset.hvlen.toNat ≤ 256 ∧
    State.reset.mem.readWord (MemName.htBits.wordAddr 0) = none := by decide

theorem witness_UnwrittenStops_htBits_last :
    let s := { State.reset with mem := Memory.storeWords [] 0x100 (List.replicate 15 1) }
    (∀ j < 15, s.mem.readWord (MemName.htBits.wordAddr j) = some 1) ∧
      s.mem.readWord (MemName.htBits.wordAddr 15) = none := by decide

theorem witness_UnwrittenStops_huffval : let s := { specified bitsE [0x00, 0x01, 0x12] with hvlen := 4 }
    CountsLoaded s countsE ∧ codeSpace countsE 16 ≤ 65536 ∧ s.mem.read (MemName.huffval.byteAddr 3) = none := by
  have h : CountsWritten { specified bitsE [0x00, 0x01, 0x12] with hvlen := 4 } countsE :=
    specLoaded_of (bits := bitsE) rfl (by decide) (by decide)
  exact ⟨⟨by decide, h, by decide, by decide⟩, by decide, by decide⟩

/-- Configurations at the ends of the ranges of 00_scope.md R11. -/
def smallest : Config := { pass1Bits := 0, nht := 2, bufMaxBytes := 4, tailMode := .strict, hdteBase := 0 }

/-- See `smallest`. -/
def largest : Config := { pass1Bits := 7, nht := 16, bufMaxBytes := 262140, tailMode := .zeroFill, hdteBase := 0x80000 }

theorem witness_Registers : ∀ off ∈ [0x004, 0x008, 0x018, 0x01C], (asked [.write off 4 7]).Writes off 7 [] := by decide

theorem witness_MemoryWords : ∀ off ∈ [0x100, 0x13C, 0x200, 0x2FC, 0x400, 0x4FC, 0x500, 0x5FC, 0x40000, 0x4FFFC],
    (InWordWindow off ∨ InByteWindow Config.standard off) ∧ (asked [.write off 4 7]).Writes off 7 [] := by decide

theorem witness_MemoryWords_last : InByteWindow largest 0x7FFF8 ∧
    ({ asked [.write 0xFFFF8 4 7] with cfg := largest } : State).Writes 0x7FFF8 7 [] := by decide

theorem witness_BufWord : (31 : Nat) < 32 ∧ 32 / 32 ≠ 0 := by decide

theorem witness_IgnoredWrites : ∀ off ∈ [0x024, 0x0FC, 0x140, 0x1FC, 0x300, 0x3FC, 0x740, 0x3FFFC, 0x50000, 0x7FFFC, 0x00C,
      0x010, 0x014, 0x020, 0x600, 0x6FC, 0x700, 0x73C],
    (off ∈ [0x00C, 0x010, 0x014, 0x020] ∨ InReadOnlyWindow off ∨ Unmapped Config.standard off) ∧
      (asked [.write off 4 7]).Writes off 7 [] := by decide

theorem witness_HostReads : ∀ off ∈ [0x000, 0x004, 0x008, 0x00C, 0x010, 0x014, 0x018, 0x01C, 0x020, 0x024, 0x700, 0x40000,
      0x4FFFC, 0x7FFFC], (asked [.read off 4]).Reads off [] := by decide

theorem witness_HostReads_word : InByteWindow Config.standard 0x40000 ∧ (loaded 7).mem.readWord 0x40000 = some 7 ∧
    InWordWindow 0x400 ∧ (Memory.storeWord [] 0x400 7).readWord 0x400 = some 7 ∧
    InReadOnlyWindow 0x73C ∧ (Memory.storeWord [] 0x73C 7).readWord 0x73C = some 7 := by decide

theorem witness_UnsupportedAccess : (asked [.read 0x201 4]).busy = false ∧ 0x7FFFF < Config.apertureBytes ∧
    0x201 % 4 ≠ 0 ∧ 0x7FFFF % 4 ≠ 0 ∧ (2 : Nat) ≠ 4 := by decide

theorem witness_Config : smallest.Legal ∧ largest.Legal ∧ Config.standard.Legal := by decide

theorem witness_Status : State.reset.err = none ∧ State.reset.reader.rstate = .idle ∧ bufferA.reader.rstate = .ready ∧
    (∀ e ∈ [ErrCode.malformedTable, .streamOverrun, .argRange, .invalidCode, .illegalCommand, .notReady,
      .badBufferLength], (State.reset.raise e 0).err = some e) ∧ bufferA.faultReader.reader.rstate = .faulted := by decide

theorem witness_BusyStalls : let s := { asked [.write 0x7FFFC 4 7] with busy := true }
    s.busy = true ∧ 0x7FFFC < Config.apertureBytes ∧ s.requests = .write (s.cfg.hdteBase + 0x7FFFC) 4 7 :: [] := by decide

theorem witness_OutsideAccess : (asked [.read 0x80000 4]).busy = false ∧
    (asked [.read 0x80000 4]).cfg.hdteBase + Config.apertureBytes ≤ 0x80000 ∧ 0x7FFFF < largest.hdteBase := by decide

theorem witness_BusyReadsStatus : let s := { asked [.read 0x00C 4] with busy := true }
    after (step s) (fun t => t.replies) = some [1] := by decide

theorem witness_StepKeeps : let s := { decoding 0xCF000000 with requests := [cmdRequest Config.standard 0x11000000] }
    s.Inv ∧ (after (step s) (fun t => t.reader.p)) = some 3 :=
  ⟨⟨by decide, by decide, by decide, by decide, by decide, by decide⟩, by decide⟩

theorem witness_CommandsWrite : after (exec .idctPass1 (blocks qt65536 coefV1)) (fun t => t.block .ws) = some (some wsV1) :=
  test_idctPass1_V1

theorem witness_FailingCommand : State.reset.err = none ∧
    after (exec (.brPeek 0) State.reset) (fun t => t.err) = some (some .notReady) ∧
    after (exec (.htBuild 0) { State.reset with hvlen := 257 }) (fun t => t.err) = some (some .malformedTable) := by decide

theorem witness_SlotChanges : after (step { specE with requests := [cmdRequest Config.standard 0x10000000] })
    (fun t => decide (t.slot 0 ≠ specE.slot 0)) = some true := by decide

theorem witness_ErrorRecord :
    after (step (issuedUnderError 0xF0000000)) (fun t => (t.err, t.errInfo)) = some (none, 0) ∧
    after (step (issuedUnderError 0x23000000)) (fun t => (t.err, t.errInfo)) = some (some .argRange, 32) := by decide

end Sys2Proof.Machine.Test
end

section
/-! The configuration, BUSY and the error record along a step (spec/00_scope.md R20; spec/10_state.md R35, R37;
spec/20_memory.md R86). -/

namespace Sys2Proof.Machine

/-! ### What the host's accesses other than a command leave unchanged -/

/-- A host read changes nothing but what the outside world sees: the replies and the count of free values. -/
theorem State.hostRead_frame (s : State) (off : Nat) : ∃ rs n,
    s.hostRead off = { s with replies := rs, freeCount := n } := by
  simp only [State.hostRead]
  split
  · exact ⟨_, _, rfl⟩
  · split <;> exact ⟨_, _, rfl⟩
  · exact ⟨_, _, rfl⟩

/-- A host write of a register changes at most the four read-write registers. -/
theorem State.writeReg_frame (s : State) (v : Word) (q : Reg) : ∃ a a2 len hv,
    s.writeReg v q = { s with arg := a, arg2 := a2, brLen := len, hvlen := hv } := by
  cases q <;> exact ⟨_, _, _, _, rfl⟩

/-- A host write of a memory word changes at most the memories and the mark of R304. -/
theorem State.writeMem_frame (s : State) (m : MemName) (off : Nat) (v : Word) : ∃ mem d,
    s.writeMem m off v = { s with mem := mem, bufDirty := d } := by
  simp only [State.writeMem]
  split <;> exact ⟨_, _, rfl⟩

/-! ### What the reader's progress leaves unchanged -/

section Moved

variable {n : Word} {s t : State}

theorem MovedBy.cfg_eq (h : MovedBy n s t) : t.cfg = s.cfg := by rw [h]

theorem MovedBy.err_eq (h : MovedBy n s t) : t.err = s.err := by rw [h]

theorem MovedBy.errInfo_eq (h : MovedBy n s t) : t.errInfo = s.errInfo := by rw [h]

end Moved

/-- BR_SKIP's chunks add up to ARG: it moves the reader by ARG. -/
theorem State.skipAll_movedBy (s : State) :
    MovedBy (BitVec.ofNat 32 s.arg.toNat) s (State.skipLoop (s.arg.toNat / 31 + 1) s.arg.toNat s) :=
  s.skipLoop_movedBy _ _ (by omega)

/-! ### Commands -/

/-- No command changes the configuration (R20). -/
theorem Effect.cfg_eq {i : Instr} {s t : State} (h : Effect i s t) : t.cfg = s.cfg := by
  cases h with
  | consumed v n => exact (State.consume_movedBy n (s.setResult v)).cfg_eq
  | skipped => exact s.skipAll_movedBy.cfg_eq
  | primed =>
    obtain ⟨_, _, _, _, _, _, hp⟩ := s.prime_frame s.brLen
    rw [hp]
  | _ => rfl

/-- A command keeps the error record, clears it or records an error. -/
theorem Effect.errorRecord_cases {i : Instr} {s t : State} (h : Effect i s t) :
    (t.err = s.err ∧ t.errInfo = s.errInfo) ∨ (t.err = Option.none ∧ t.errInfo = 0) ∨ ∃ e, t.err = some e := by
  cases h with
  | clear | soft => exact .inr (.inl ⟨rfl, rfl⟩)
  | raise | overrun | invalid | buildFailed => exact .inr (.inr ⟨_, rfl⟩)
  | consumed v n =>
    have hm := State.consume_movedBy n (s.setResult v)
    exact .inl ⟨hm.err_eq, hm.errInfo_eq⟩
  | skipped => exact .inl ⟨s.skipAll_movedBy.err_eq, s.skipAll_movedBy.errInfo_eq⟩
  | primed =>
    obtain ⟨_, _, _, _, _, _, hp⟩ := s.prime_frame s.brLen
    rw [hp]
    exact .inl ⟨rfl, rfl⟩
  | none | built | result | wroteWs | wroteOut | wroteBoth => exact .inl ⟨rfl, rfl⟩

/-- A command keeps "ERR = 0 implies ERRINFO = 0" (R35, R37). -/
theorem Effect.errorLegal {i : Instr} {s t : State} (h : Effect i s t) (hs : s.ErrorLegal) : t.ErrorLegal := by
  intro ht
  rcases h.errorRecord_cases with ⟨he, hi⟩ | ⟨-, hi⟩ | ⟨e, he⟩
  · exact hi.trans (hs (he.symm.trans ht))
  · exact hi
  · rw [he] at ht
    cases ht

/-- The issue of a word, dropped, illegal or executed, keeps the configuration and a well-formed error record. -/
theorem issue_keeps_cfg_errorLegal {v : Word} {s u : State} (h : issue v s = .next u) :
    u.cfg = s.cfg ∧ (s.ErrorLegal → u.ErrorLegal) := by
  rcases issue_cases h with ⟨-, -, rfl⟩ | ⟨-, -, rfl⟩ | ⟨-, i, -, hx⟩
  · exact ⟨rfl, id⟩
  · exact ⟨rfl, fun _ ht => nomatch ht⟩
  · exact ⟨(exec_cases hx).cfg_eq, (exec_cases hx).errorLegal⟩

/-! ### The step -/

/-- Settles O54, by the kinds of request a step serves. -/
theorem stepKeepsConfigAndErrorRecord : Obligations.StepKeepsConfigAndErrorRecord := by
  intro s t h
  rcases step_cases h with rfl | ⟨r, rest, -, hreset | hread | hcmd | hreg | hmem | hunmapped⟩
  · exact ⟨rfl, id, id⟩
  · obtain ⟨-, rfl⟩ := hreset
    exact ⟨rfl, fun _ => rfl, fun _ _ => rfl⟩
  · obtain ⟨_, off, -, -, -, rfl⟩ := hread
    obtain ⟨_, _, hf⟩ := State.hostRead_frame { s with requests := rest } off
    rw [hf]
    exact ⟨rfl, id, id⟩
  · obtain ⟨_, v, u, -, -, -, hu, rfl⟩ := hcmd
    obtain ⟨hcfg, herr⟩ := issue_keeps_cfg_errorLegal hu
    exact ⟨hcfg, fun _ => rfl, herr⟩
  · obtain ⟨_, _, q, v, -, -, -, -, rfl⟩ := hreg
    obtain ⟨_, _, _, _, hf⟩ := State.writeReg_frame { s with requests := rest } v q
    rw [hf]
    exact ⟨rfl, id, id⟩
  · obtain ⟨_, off, m, v, -, -, -, -, rfl⟩ := hmem
    obtain ⟨_, _, hf⟩ := State.writeMem_frame { s with requests := rest } m off v
    rw [hf]
    exact ⟨rfl, id, id⟩
  · obtain ⟨_, _, _, -, -, -, rfl⟩ := hunmapped
    exact ⟨rfl, id, id⟩

end Sys2Proof.Machine
end

section
/-! The invariant between the prefetch state and P along a step (spec/10_state.md R50; spec/40_bitreader.md R131). -/

namespace Sys2Proof.Machine

/-! ### What the invariant depends on -/

/-- A slot's table is legal where the slots are. -/
theorem State.SlotsLegal.tableLegal {s : State} (h : s.SlotsLegal) {k : Nat} {t : List LutRun}
    (hs : s.slot k = .valid t) : TableLegal t := by
  rw [State.slot, List.getD_eq_getElem?_getD] at hs
  cases hx : s.slots[k]? with
  | none => simp [hx] at hs
  | some x =>
    obtain rfl : x = .valid t := by simpa [hx] using hs
    exact h.2 _ (List.mem_of_getElem? hx)

/-- A reader that is not READY has no prefetch state to keep in step. -/
theorem State.prefetchHolds_of_not_ready {s : State} (h : s.reader.rstate ≠ .ready) : s.PrefetchHolds :=
  fun hr => absurd hr h

/-- The prefetched bits lie within the latched stream, so a memory with the same stream has the same bits there. -/
theorem State.PrefetchBits.congr {s t : State} (hc : s.PrefetchCounts) (hb : s.PrefetchBits)
    (hr : t.reader = s.reader) (hm : ∀ k < s.reader.streamLen, streamBit t.mem k = streamBit s.mem k) :
    t.PrefetchBits := by
  obtain ⟨hwhole, -, hidx, hcount, -⟩ := hc
  obtain ⟨hw, hrs⟩ := hb
  simp only [Reader.streamLen] at hm
  simp only [State.PrefetchBits, hr]
  refine ⟨fun i hi hn => ?_, fun i hi hn => ?_⟩
  · rw [hm _ (by omega)]; exact hw i hi hn
  · rw [hm _ (by omega)]; exact hrs i hi hn

/-- The invariant speaks of the configuration, the reader and, while the mark of R304 is unset, of the latched stream. -/
theorem State.PrefetchHolds.congr {s t : State} (h : s.PrefetchHolds) (hcfg : t.cfg = s.cfg)
    (hr : t.reader = s.reader) (hm : s.reader.rstate = .ready → s.reader.lenLatched.toNat % 4 = 0 → t.bufDirty = false →
      s.bufDirty = false ∧ ∀ k < s.reader.streamLen, streamBit t.mem k = streamBit s.mem k) :
    t.PrefetchHolds := by
  intro hready
  rw [hr] at hready
  obtain ⟨hc, hb⟩ := h hready
  refine ⟨by simpa only [State.PrefetchCounts, hcfg, hr] using hc, fun hclean => ?_⟩
  obtain ⟨hclean', hsame⟩ := hm hready hc.1 hclean
  exact State.PrefetchBits.congr hc (hb hclean') hr hsame

/-- A store that ends before the BUF window leaves the stream as it is. -/
theorem streamBit_store_below_buf (m : Memory) {a : Nat} {bs : List Byte} (h : a + bs.length ≤ MemName.buf.base)
    (k : Nat) : streamBit (m.store a bs) k = streamBit m k := by
  refine streamBit_congr ?_
  rw [Memory.read_store, if_neg]
  simp only [MemName.byteAddr]
  omega

/-! ### Commands -/

/-- A codeword of a legal slot, and a count that BR_READ accepts, has at most 32 bits. -/
theorem consumedCount_le {s : State} {n : Nat} (hs : s.SlotsLegal)
    (hn : n ≤ 31 ∨ ∃ (b : BitVec 4) (t : List LutRun) (k : Nat), s.slot b.toNat = .valid t ∧ n = (lookup t k).1) :
    n ≤ 32 := by
  rcases hn with hn | ⟨b, t, k, hslot, rfl⟩
  · omega
  · exact Nat.le_trans (lookup_len_le (hs.tableLegal hslot) k) (by omega)

/-- A command keeps the prefetch state in step with P. -/
theorem Effect.prefetchHolds {i : Instr} {s t : State} (h : Effect i s t) (hcfg : s.cfg.Legal) (hs : s.SlotsLegal)
    (hp : s.PrefetchHolds) : t.PrefetchHolds := by
  cases h with
  | none | clear | raise | buildFailed | built | result => exact hp
  | soft | overrun | invalid => exact State.prefetchHolds_of_not_ready (by simp [Reader.initial])
  | consumed v n hprimed hrem hn =>
    obtain ⟨hc, hb⟩ := hp hprimed.1
    obtain ⟨hc', hb'⟩ :=
      consume_holds (s := s.setResult v) hcfg hc (hb hprimed.2) (consumedCount_le hs hn) hrem
    exact fun _ => ⟨hc', fun _ => hb'⟩
  | skipped hprimed hrem =>
    obtain ⟨hc, hb⟩ := hp hprimed.1
    obtain ⟨hc', hb'⟩ := skipLoop_holds (s.arg.toNat / 31 + 1) s.arg.toNat hcfg hc (hb hprimed.2) hrem
    exact fun _ => ⟨hc', fun _ => hb'⟩
  | primed h4 hle =>
    obtain ⟨hc, hb⟩ := prime_holds h4 hle
    exact fun _ => ⟨hc, fun _ => hb⟩
  | wroteWs vs _ hl =>
    refine hp.congr rfl rfl fun _ _ hd => ⟨hd, fun k _ => streamBit_store_below_buf _ ?_ k⟩
    simp only [flatMap_wordBytes_length, hl, MemName.base]
    omega
  | wroteOut bs _ hl =>
    refine hp.congr rfl rfl fun _ _ hd => ⟨hd, fun k _ => streamBit_store_below_buf _ ?_ k⟩
    simp only [hl, MemName.base]
    omega
  | wroteBoth vs bs _ hlw hlo =>
    refine hp.congr rfl rfl fun _ _ hd => ⟨hd, fun k _ => ?_⟩
    refine (streamBit_store_below_buf _ ?_ k).trans (streamBit_store_below_buf _ ?_ k)
    · simp only [hlo, MemName.base]; omega
    · simp only [flatMap_wordBytes_length, hlw, MemName.base]; omega

/-- The issue of a word, dropped, illegal or executed, keeps the prefetch state in step with P. -/
theorem issue_keeps_prefetchHolds {v : Word} {s u : State} (h : issue v s = .next u) (hcfg : s.cfg.Legal)
    (hs : s.SlotsLegal) (hp : s.PrefetchHolds) : u.PrefetchHolds := by
  rcases issue_cases h with ⟨-, -, rfl⟩ | ⟨-, -, rfl⟩ | ⟨-, i, -, hx⟩
  · exact hp
  · exact hp
  · exact (exec_cases hx).prefetchHolds hcfg hs hp

/-! ### The host's writes -/

/-- A word written off the latched part of the buffer leaves the latched stream as it is. -/
theorem streamBit_storeWord_of_not_primedWord {s : State} {off : Nat} (v : Word) (ha : off % 4 = 0)
    (hready : s.reader.rstate = .ready) (h4 : s.reader.lenLatched.toNat % 4 = 0) (hn : ¬ s.PrimedWord off) {k : Nat}
    (hk : k < s.reader.streamLen) : streamBit (s.mem.storeWord off v) k = streamBit s.mem k := by
  refine streamBit_congr (Memory.read_storeWord_of_ne _ _ fun hin => hn ⟨hready, ?_⟩)
  simp only [MemName.byteAddr, MemName.base, Reader.streamLen] at *
  omega

/-- A host write of a memory word keeps the prefetch state in step: a write of a latched word sets the mark of R304. -/
theorem State.writeMem_prefetchHolds {s : State} (hp : s.PrefetchHolds) (m : MemName) {off : Nat} (v : Word)
    (ha : off % 4 = 0) : (s.writeMem m off v).PrefetchHolds := by
  simp only [State.writeMem]
  split
  · refine hp.congr rfl rfl fun hready h4 hd => ?_
    obtain ⟨hclean, hn⟩ := Bool.or_eq_false_iff.mp hd
    rw [decide_eq_false_iff_not] at hn
    exact ⟨hclean, fun k hk => streamBit_storeWord_of_not_primedWord v ha hready h4 hn hk⟩
  · exact hp

/-! ### The step -/

/-- What a step with a next state did to the block: at most the read-write registers changed (idle, stalled, a host read,
a write of a register or of an unmapped offset), a reset, a command, or a host write of a memory word. -/
theorem step_block_cases {s t : State} (h : step s = .next t) :
    (∃ a a2 len hv rq rp n, t = { s with
      arg := a, arg2 := a2, brLen := len, hvlen := hv, requests := rq, replies := rp, freeCount := n }) ∨
    (∃ rest, t = State.hardReset { s with requests := rest }) ∨
    (∃ v rest u, issue v { s with requests := rest, busy := true } = .next u ∧ t = u.setBusy false) ∨
    ∃ rest m off v, off % 4 = 0 ∧ placeAt s.cfg off = .mem m ∧
      t = State.writeMem { s with requests := rest } m off v := by
  rcases step_cases h with rfl | ⟨r, rest, -, hreset | hread | hcmd | hreg | hmem | hunmapped⟩
  · exact .inl ⟨_, _, _, _, _, _, _, rfl⟩
  · exact .inr (.inl ⟨rest, hreset.2⟩)
  · obtain ⟨_, off, -, -, -, rfl⟩ := hread
    obtain ⟨_, _, hf⟩ := State.hostRead_frame { s with requests := rest } off
    rw [hf]
    exact .inl ⟨_, _, _, _, _, _, _, rfl⟩
  · obtain ⟨_, v, u, -, -, -, hu, rfl⟩ := hcmd
    exact .inr (.inr (.inl ⟨v, rest, u, hu, rfl⟩))
  · obtain ⟨_, _, q, v, -, -, -, -, rfl⟩ := hreg
    obtain ⟨_, _, _, _, hf⟩ := State.writeReg_frame { s with requests := rest } v q
    rw [hf]
    exact .inl ⟨_, _, _, _, _, _, _, rfl⟩
  · obtain ⟨_, off, m, v, -, -, ha, hplace, rfl⟩ := hmem
    exact .inr (.inr (.inr ⟨rest, m, off, v, ha, hplace, rfl⟩))
  · obtain ⟨_, _, _, -, -, -, rfl⟩ := hunmapped
    exact .inl ⟨_, _, _, _, _, _, _, rfl⟩

/-- Settles O53, by what a step does to the block. -/
theorem stepKeepsPrefetchHolds : Obligations.StepKeepsPrefetchHolds := by
  intro s t hcfg hs hp h
  rcases step_block_cases h with
    ⟨_, _, _, _, _, _, _, rfl⟩ | ⟨rest, rfl⟩ | ⟨v, rest, u, hu, rfl⟩ | ⟨rest, m, off, v, ha, -, rfl⟩
  · exact hp
  · exact State.prefetchHolds_of_not_ready (by simp [Reader.initial])
  · have hkept : u.PrefetchHolds := issue_keeps_prefetchHolds hu hcfg hs hp
    exact hkept
  · exact State.writeMem_prefetchHolds (s := { s with requests := rest }) hp m v ha

end Sys2Proof.Machine
end

section
/-! The decode-table slots, the memories and the invariant at reset (spec/10_state.md R41 to R47, R51, R52). -/

namespace Sys2Proof.Machine

/-! ### The slots -/

@[simp] theorem Slot.table_invalidate (x : Slot) : x.invalidate.table = x.table := by
  cases x <;> rfl

theorem tableLegal_nil : TableLegal [] := ⟨nofun, .nil⟩

/-- NHT empty slots, as a reset leaves them, are legal. -/
theorem State.slotsLegal_of_empty {s : State} (h : s.slots = List.replicate s.cfg.nht (.invalid none)) :
    s.SlotsLegal := by
  refine ⟨by rw [h, List.length_replicate], fun x hx => ?_⟩
  rw [h] at hx
  rw [List.eq_of_mem_replicate hx]
  exact tableLegal_nil

/-- Putting a legal table in a slot keeps the slots legal. -/
theorem State.SlotsLegal.setSlot {s : State} (h : s.SlotsLegal) (k : Nat) {x : Slot} (hx : TableLegal x.table) :
    (s.setSlot k x).SlotsLegal := by
  obtain ⟨hlen, htab⟩ := h
  refine ⟨by simpa using hlen, fun y hy => ?_⟩
  rcases List.mem_or_eq_of_mem_set hy with hy | rfl
  · exact htab y hy
  · exact hx

/-- SOFT_RESET keeps the tables (R252), so it keeps them legal. -/
theorem State.SlotsLegal.softReset {s : State} (h : s.SlotsLegal) : s.softReset.SlotsLegal := by
  obtain ⟨hlen, htab⟩ := h
  refine ⟨by simpa using hlen, fun y hy => ?_⟩
  obtain ⟨x, hx, rfl⟩ := List.mem_map.mp hy
  rw [Slot.table_invalidate]
  exact htab x hx

/-- The reader's progress leaves the slots as they are. -/
theorem MovedBy.slotsLegal {n : Word} {s t : State} (h : MovedBy n s t) (hs : s.SlotsLegal) : t.SlotsLegal := by
  rw [h]
  exact hs

/-- A command keeps the slots legal. -/
theorem Effect.slotsLegal {i : Instr} {s t : State} (h : Effect i s t) (hs : s.SlotsLegal) : t.SlotsLegal := by
  cases h with
  | soft => exact hs.softReset
  | buildFailed b => exact hs.setSlot b.toNat tableLegal_nil
  | built b t _ _ ht => exact hs.setSlot b.toNat ht
  | consumed v n => exact (State.consume_movedBy n (s.setResult v)).slotsLegal hs
  | skipped => exact s.skipAll_movedBy.slotsLegal hs
  | primed =>
    obtain ⟨_, _, _, _, _, _, hp⟩ := s.prime_frame s.brLen
    rw [hp]
    exact hs
  | none | clear | raise | overrun | invalid | result | wroteWs | wroteOut | wroteBoth => exact hs

/-- The issue of a word, dropped, illegal or executed, keeps the slots legal. -/
theorem issue_keeps_slotsLegal {v : Word} {s u : State} (h : issue v s = .next u) (hs : s.SlotsLegal) :
    u.SlotsLegal := by
  rcases issue_cases h with ⟨-, -, rfl⟩ | ⟨-, -, rfl⟩ | ⟨-, i, -, hx⟩
  · exact hs
  · exact hs
  · exact (exec_cases hx).slotsLegal hs

/-- Settles O52, by what a step does to the block. -/
theorem stepKeepsSlotsLegal : Obligations.StepKeepsSlotsLegal := by
  intro s t hs h
  rcases step_block_cases h with
    ⟨_, _, _, _, _, _, _, rfl⟩ | ⟨rest, rfl⟩ | ⟨v, rest, u, hu, rfl⟩ | ⟨rest, m, off, v, -, -, rfl⟩
  · exact hs
  · exact State.slotsLegal_of_empty rfl
  · have hkept : u.SlotsLegal := issue_keeps_slotsLegal hu hs
    exact hkept
  · obtain ⟨_, _, hf⟩ := State.writeMem_frame { s with requests := rest } m off v
    rw [hf]
    exact hs

/-! ### The invariant at reset -/

/-- The invariant holds right after a reset with a legal configuration. -/
theorem State.resetWith_inv {c : Config} (h : c.Legal) : (State.resetWith c).Inv := by
  have hmem : (State.resetWith c).MemoryLegal := ⟨List.Pairwise.nil, fun _ hc => nomatch hc⟩
  exact ⟨h, rfl, fun _ => rfl, State.slotsLegal_of_empty rfl, hmem, State.prefetchHolds_of_not_ready nofun⟩

/-- Settles O50: the default parameters are a legal configuration. -/
theorem invariantHoldsAtReset : Obligations.InvariantHoldsAtReset :=
  ⟨State.resetWith_inv (by decide), fun _ h => State.resetWith_inv h⟩

/-! ### The memories -/

/-- The reader's progress leaves the memories as they are. -/
theorem MovedBy.mem_eq {n : Word} {s t : State} (h : MovedBy n s t) : t.mem = s.mem := by rw [h]

/-- A command leaves the memories as they are, or it is a transform and writes WS, OUT or both. -/
theorem Effect.mem_cases {i : Instr} {s t : State} (h : Effect i s t) :
    t.mem = s.mem ∨
    (i = .idctPass1 ∧ ∃ vs, vs.length = 64 ∧ t.mem = s.mem.storeWords MemName.ws.base vs) ∨
    (i = .idctPass2 ∧ ∃ bs, bs.length = 64 ∧ t.mem = s.mem.store MemName.out.base bs) ∨
    (i = .idctBlock ∧ ∃ vs bs, vs.length = 64 ∧ bs.length = 64 ∧
      t.mem = (s.mem.storeWords MemName.ws.base vs).store MemName.out.base bs) := by
  cases h with
  | wroteWs vs hi hl => exact .inr (.inl ⟨hi, vs, hl, rfl⟩)
  | wroteOut bs hi hl => exact .inr (.inr (.inl ⟨hi, bs, hl, rfl⟩))
  | wroteBoth vs bs hi hlw hlo => exact .inr (.inr (.inr ⟨hi, vs, bs, hlw, hlo, rfl⟩))
  | consumed v n => exact .inl (State.consume_movedBy n (s.setResult v)).mem_eq
  | skipped => exact .inl s.skipAll_movedBy.mem_eq
  | primed => exact .inl (State.topUp_mem _)
  | none | clear | soft | raise | overrun | invalid | buildFailed | built | result => exact .inl rfl

/-- Writing WS leaves every byte outside the windows of WS and OUT. -/
theorem read_storeWs_outside (m : Memory) {vs : List Word} (hl : vs.length = 64) {a : Nat}
    (ha : ¬ (0x600 ≤ a ∧ a < 0x740)) : (m.storeWords MemName.ws.base vs).read a = m.read a := by
  refine Memory.read_storeWords_of_ne m vs ?_
  rw [hl, MemName.base]
  omega

/-- Writing OUT leaves every byte outside the windows of WS and OUT. -/
theorem read_storeOut_outside (m : Memory) {bs : List Byte} (hl : bs.length = 64) {a : Nat}
    (ha : ¬ (0x600 ≤ a ∧ a < 0x740)) : (m.store MemName.out.base bs).read a = m.read a := by
  rw [Memory.read_store, if_neg]
  rw [hl, MemName.base]
  omega

/-- Settles O55, by what a command does to the memories. -/
theorem commandsWriteOnlyWsAndOut : Obligations.CommandsWriteOnlyWsAndOut := by
  intro i s t h
  rcases (exec_cases h).mem_cases with
    hm | ⟨hi, vs, hl, hm⟩ | ⟨hi, bs, hl, hm⟩ | ⟨hi, vs, bs, hlw, hlo, hm⟩
  · exact ⟨fun a _ => by rw [hm], fun _ _ _ => hm⟩
  · exact ⟨fun a ha => by rw [hm, read_storeWs_outside _ hl ha], fun h1 _ _ => absurd hi h1⟩
  · exact ⟨fun a ha => by rw [hm, read_storeOut_outside _ hl ha], fun _ h2 _ => absurd hi h2⟩
  · exact ⟨fun a ha => by rw [hm, read_storeOut_outside _ hlo ha, read_storeWs_outside _ hlw ha],
      fun _ _ h3 => absurd hi h3⟩

end Sys2Proof.Machine
end

section
/-! The registers as the host sees them (spec/10_state.md R33 to R40, R48, R51; spec/60_exceptions.md R261). -/

namespace Sys2Proof.Machine

/-! ### Writes -/

/-- A host write at the offset of a register other than CMD writes that register. -/
theorem hostWrite_reg {q : Reg} (hq : q ≠ .cmd) (v : Word) (s : State) :
    hostWrite q.offset v s = .next (s.writeReg v q) := by
  rw [hostWrite, placeAt_reg]
  cases q with
  | cmd => exact absurd rfl hq
  | _ => rfl

/-- Settles O42: each offset is that of a read-write register. -/
theorem registersKeepWhatTheHostWrites : Obligations.RegistersKeepWhatTheHostWrites := by
  intro s v rest
  refine ⟨fun h => ?_, fun h => ?_, fun h => ?_, fun h => ?_⟩
  · exact (step_write h).trans (hostWrite_reg (q := .arg) nofun v _)
  · exact (step_write h).trans (hostWrite_reg (q := .arg2) nofun v _)
  · exact (step_write h).trans (hostWrite_reg (q := .brLen) nofun v _)
  · exact (step_write h).trans (hostWrite_reg (q := .hvlen) nofun v _)

/-! ### The fields of STATUS -/

section Fields

variable (s : State)

theorem State.statusWord_busy : s.statusWord.getLsbD 0 = s.busy := by
  rw [State.statusWord, BitVec.getLsbD_append, if_pos (by decide), BitVec.getLsbD_ofBool]
  rfl

theorem State.statusWord_err : s.statusWord.getLsbD 1 = s.err.isSome := by
  rw [State.statusWord, BitVec.getLsbD_append, if_neg (by decide), BitVec.getLsbD_append, if_pos (by decide),
    BitVec.getLsbD_ofBool]
  rfl

theorem State.statusWord_reserved_low : s.statusWord.extractLsb' 2 2 = 0 := by
  rw [State.statusWord, BitVec.extractLsb'_append_eq_of_le (by decide), BitVec.extractLsb'_append_eq_of_le (by decide)]
  exact BitVec.extractLsb'_append_eq_right

theorem State.statusWord_errCode : s.statusWord.extractLsb' 4 4 = errCodeField s.err := by
  rw [State.statusWord, BitVec.extractLsb'_append_eq_of_le (by decide), BitVec.extractLsb'_append_eq_of_le (by decide),
    BitVec.extractLsb'_append_eq_of_le (by decide)]
  exact BitVec.extractLsb'_append_eq_right

theorem State.statusWord_rstate : s.statusWord.extractLsb' 8 2 = s.reader.rstate.code := by
  rw [State.statusWord, BitVec.extractLsb'_append_eq_of_le (by decide), BitVec.extractLsb'_append_eq_of_le (by decide),
    BitVec.extractLsb'_append_eq_of_le (by decide), BitVec.extractLsb'_append_eq_of_le (by decide)]
  exact BitVec.extractLsb'_append_eq_right

theorem State.statusWord_reserved_high : s.statusWord.extractLsb' 10 6 = 0 := by
  rw [State.statusWord, BitVec.extractLsb'_append_eq_of_le (by decide), BitVec.extractLsb'_append_eq_of_le (by decide),
    BitVec.extractLsb'_append_eq_of_le (by decide), BitVec.extractLsb'_append_eq_of_le (by decide),
    BitVec.extractLsb'_append_eq_of_le (by decide)]
  exact BitVec.extractLsb'_append_eq_right

theorem State.statusWord_htValid (k : Nat) : s.statusWord.getLsbD (16 + k) = s.htValid.getLsbD k := by
  simp only [State.statusWord, BitVec.getLsbD_append]
  rw [if_neg (by omega), if_neg (by omega), if_neg (by omega), if_neg (by omega), if_neg (by omega), if_neg (by omega)]
  congr 1
  omega

/-- Bit k of the VALID bits of the slots from slot i on. -/
theorem validBits_getLsbD (ts : List Slot) (i : Nat) {k : Nat} (hk : k < 16) :
    (validBits ts i).getLsbD k = (decide (i ≤ k) && (ts.getD (k - i) (.invalid none)).isValid) := by
  induction ts generalizing i with
  | nil => simp [validBits, Slot.isValid]
  | cons t ts ih =>
    have hhead : (if t.isValid then 1#16 <<< i else 0).getLsbD k = (decide (k = i) && t.isValid) := by
      rw [← BitVec.twoPow_eq]
      cases t.isValid <;> simp [hk]
    rw [validBits, BitVec.getLsbD_or, hhead, ih]
    rcases Nat.lt_trichotomy k i with hlt | rfl | hgt
    · simp [show k ≠ i by omega, show ¬ i ≤ k by omega, show ¬ i + 1 ≤ k by omega]
    · simp
    · simp [show k ≠ i by omega, show i ≤ k by omega, show i + 1 ≤ k by omega, show k - i = k - (i + 1) + 1 by omega]

/-- VALID(k) is bit 16 + k (R35); a slot that does not exist reads 0. -/
theorem State.statusWord_valid {k : Nat} (hk : k < 16) : s.statusWord.getLsbD (16 + k) = (s.slot k).isValid := by
  rw [s.statusWord_htValid, State.htValid, validBits_getLsbD _ _ hk]
  simp [State.slot]

end Fields

/-! ### The fields of CONFIG -/

section Fields

variable {c : Config} (h : c.Legal)
include h

theorem configWord_nht : ((configWord c).extractLsb' 0 5).toNat = c.nht := by
  obtain ⟨-, ⟨-, hnht⟩, -, -⟩ := h
  rw [configWord, BitVec.extractLsb'_append_eq_right, BitVec.toNat_ofNat]
  omega

theorem configWord_pass1Bits : ((configWord c).extractLsb' 5 3).toNat = c.pass1Bits := by
  obtain ⟨hbits, -⟩ := h
  rw [configWord, BitVec.extractLsb'_append_eq_of_le (by decide)]
  rw [BitVec.extractLsb'_append_eq_right, BitVec.toNat_ofNat]
  omega

theorem configWord_bufWords : ((configWord c).extractLsb' 16 16).toNat = c.bufMaxBytes / 4 := by
  obtain ⟨-, -, ⟨-, hmax, -⟩, -⟩ := h
  rw [configWord, BitVec.extractLsb'_append_eq_of_le (by decide), BitVec.extractLsb'_append_eq_of_le (by decide),
    BitVec.extractLsb'_append_eq_of_le (by decide), BitVec.extractLsb'_append_eq_left, BitVec.toNat_ofNat]
  omega

omit h

theorem configWord_tail (c : Config) : (configWord c).getLsbD 8 = true ↔ c.tailMode = .zeroFill := by
  rw [configWord, BitVec.getLsbD_append, if_neg (by decide), BitVec.getLsbD_append, if_neg (by decide),
    BitVec.getLsbD_append, if_pos (by decide), BitVec.getLsbD_ofBool]
  simp

theorem configWord_reserved (c : Config) : (configWord c).extractLsb' 9 7 = 0 := by
  rw [configWord, BitVec.extractLsb'_append_eq_of_le (by decide), BitVec.extractLsb'_append_eq_of_le (by decide),
    BitVec.extractLsb'_append_eq_of_le (by decide)]
  exact BitVec.extractLsb'_append_eq_right

end Fields

/-- Settles O48, field by field. -/
theorem statusAndConfigWordFields : Obligations.StatusAndConfigWordFields := by
  refine ⟨fun s => ⟨s.statusWord_busy, s.statusWord_err, s.statusWord_reserved_low, fun c hc he => ?_,
    fun c hc hr => ?_, s.statusWord_reserved_high, fun k hk => s.statusWord_valid hk⟩, by decide, fun c h =>
    ⟨configWord_nht h, configWord_pass1Bits h, configWord_tail c, configWord_reserved c, configWord_bufWords h⟩⟩
  · rw [s.statusWord_errCode, he]
    clear he
    revert c
    decide
  · rw [s.statusWord_rstate, hr]
    clear hr
    revert c
    decide

end Sys2Proof.Machine
end

section
/-! The commands that read an unwritten entry stop (spec/10_state.md R53; spec/70_reset_and_hazards.md R310, R313). -/

namespace Sys2Proof.Machine

/-! ### The stream -/

/-- A number is not there exactly when one of its bits is unwritten. -/
theorem streamBits_eq_none_iff {m : Memory} {p n : Nat} : streamBits m p n = none ↔ ¬ StreamWritten m p n := by
  constructor
  · intro h hw
    obtain ⟨v, hv⟩ := streamBits_isSome hw
    rw [h] at hv
    cases hv
  · intro h
    cases hv : streamBits m p n with
    | none => rfl
    | some v => exact absurd (StreamWritten.of_streamBits hv) h

theorem withStreamBits_unwritten {s : State} {n : Nat} (h : ¬ StreamWritten s.mem s.reader.p.toNat n)
    (k : Nat → Result) : withStreamBits n s k = .fault (.unwritten .buf) := by
  rw [withStreamBits, streamBits_eq_none_iff.mpr h]

/-- The lookahead of HT_DECODE stops at an unwritten bit, in both tail modes (R168). -/
theorem decodeLookahead_unwritten {s : State}
    (h : (16 ≤ s.reader.remaining ∧ ¬ StreamWritten s.mem s.reader.p.toNat 16) ∨
      (s.reader.remaining < 16 ∧ s.cfg.tailMode = .zeroFill ∧
        ¬ StreamWritten s.mem s.reader.p.toNat s.reader.remaining)) (k : Nat → Result) :
    decodeLookahead s k = .fault (.unwritten .buf) := by
  rcases h with ⟨hrem, hw⟩ | ⟨hrem, htail, hw⟩
  · rw [decodeLookahead, if_pos hrem, withStreamBits_unwritten hw]
  · rw [decodeLookahead, if_neg (by omega), htail]
    exact withStreamBits_unwritten hw _

/-! ### The transforms -/

theorem runPass1_of_qt_unwritten {s : State} (h : s.block .qt = none) : runPass1 s = .fault (.unwritten .qt) := by
  simp [runPass1, h]

theorem runPass1_of_coef_unwritten {s : State} (hq : s.block .qt ≠ none) (h : s.block .coef = none) :
    runPass1 s = .fault (.unwritten .coef) := by
  obtain ⟨qt, hq⟩ := Option.ne_none_iff_exists'.mp hq
  simp [runPass1, hq, h]

theorem runPass2_of_ws_unwritten {s : State} (h : s.block .ws = none) : runPass2 s = .fault (.unwritten .ws) := by
  simp [runPass2, h]

/-- IDCT_BLOCK stops where its pass 1 does (R225). -/
theorem execIdctBlock_of_pass1_fault {s : State} {e : Fault} (h : runPass1 s = .fault e) :
    execIdctBlock s = .fault e := by
  rw [execIdctBlock, h, andThen_fault]

/-! ### The counts of a table build -/

theorem codeLengths_getElem? {j i : Nat} : codeLengths[j]? = some i ↔ j < 16 ∧ i = j + 1 := by
  simp only [codeLengths, List.getElem?_eq_some_iff, List.length_range', List.getElem_range', exists_prop]
  omega

/-- Reading the counts stops at the first unwritten one, if those before it pass check 2. -/
theorem readCounts_stops {m : Memory} {pre post : List Nat} {i : Nat}
    (hpre : ∀ l ∈ pre, ∃ c, m.readWord (MemName.htBits.wordAddr (l - 1)) = some c ∧ c.toNat < 2 ^ l)
    (hi : m.readWord (MemName.htBits.wordAddr (i - 1)) = none) :
    readCounts m (pre ++ i :: post) = .error (.unwritten .htBits) := by
  induction pre with
  | nil => simp only [List.nil_append, readCounts, hi]
  | cons l pre ih =>
    obtain ⟨c, hc, hlt⟩ := hpre l (by simp)
    simp only [List.cons_append, readCounts, hc]
    rw [if_neg (by omega), ih fun l' hl' => hpre l' (by simp [hl'])]

/-- A build stops at the first unwritten entry of HT_BITS, if HVLEN and the entries before it pass their checks. -/
theorem buildTable_of_htBits_unwritten {m : Memory} {hvlen : Word} {i : Nat} (hi : i < 16) (hv : hvlen.toNat ≤ 256)
    (hpre : ∀ j < i, ∃ c, m.readWord (MemName.htBits.wordAddr j) = some c ∧ c.toNat < 2 ^ (j + 1))
    (hn : m.readWord (MemName.htBits.wordAddr i) = none) : buildTable m hvlen = .error (.unwritten .htBits) := by
  have hsplit : codeLengths = List.range' 1 i ++ (i + 1) :: List.range' (i + 2) (15 - i) := by
    have hcons : (i + 1) :: List.range' (i + 2) (15 - i) = List.range' (1 + 1 * i) (16 - i) := by
      rw [show 16 - i = 15 - i + 1 by omega, List.range'_succ, Nat.one_mul, Nat.add_comm 1 i]
    rw [hcons, List.range'_append, codeLengths, show i + (16 - i) = 16 by omega]
  have hread : readCounts m codeLengths = .error (.unwritten .htBits) := by
    rw [hsplit]
    refine readCounts_stops (fun l hl => ?_) hn
    obtain ⟨hl1, hl2⟩ := List.mem_range'_1.mp hl
    simpa [show l - 1 + 1 = l by omega] using hpre (l - 1) (by omega)
  have hcap : ¬ hvlen.toNat > Config.hvCap := by rw [Config.hvCap]; omega
  simp only [buildTable, validateCounts, if_neg hcap, hread]

/-- Loaded counts pass Validate. -/
theorem CountsLoaded.validateCounts {s : State} {cs : List Nat} (h : CountsLoaded s cs) :
    validateCounts s.mem s.hvlen = .ok cs := by
  obtain ⟨hlen, hcs, hsum, hcap⟩ := h
  have hread : readCounts s.mem codeLengths = .ok cs := by
    refine readCounts_of (by rw [hlen]; rfl) fun j i hj => ?_
    obtain ⟨hj16, rfl⟩ := codeLengths_getElem?.mp hj
    obtain ⟨c, hc, he, hlt⟩ := hcs j hj16
    refine ⟨c, hc, ?_, hlt⟩
    rw [he, List.getElem?_eq_getElem (by omega), List.getD_eq_getElem _ _ (by omega)]
  have hcap' : ¬ s.hvlen.toNat > Config.hvCap := by rw [Config.hvCap]; omega
  simp only [Machine.validateCounts, if_neg hcap', hread]
  rw [if_neg (by simp [hsum])]

/-! ### The code space -/

/-- The first codeword of a length is twice what the length before it left off at (R164). -/
theorem firstCode_succ (cs : List Nat) {len : Nat} (h : 1 ≤ len) : firstCode cs (len + 1) = codeSpace cs len * 2 := by
  obtain ⟨n, rfl⟩ := Nat.exists_eq_add_of_le' h
  have hdouble : ∀ l ∈ List.range n, cs.getD l 0 * 2 ^ (n + 1 - l) = cs.getD l 0 * 2 ^ (n - l) * 2 := by
    intro l hl
    rw [show n + 1 - l = n - l + 1 by have := List.mem_range.mp hl; omega, Nat.pow_succ, Nat.mul_assoc]
  simp only [codeSpace, firstCode, countOf, Nat.add_sub_cancel, List.range_succ, List.map_append, List.sum_append,
    List.map_congr_left hdouble, List.sum_map_mul_right, List.map_cons, List.map_nil, List.sum_cons, List.sum_nil]
  rw [show n + 1 - n = 1 by omega]
  omega

/-- Counts that fit the code space at the last length fit it at every length before. -/
theorem codeSpace_fits {cs : List Nat} {n : Nat} (h : codeSpace cs n ≤ 2 ^ n) {len : Nat} (hpos : 1 ≤ len)
    (hle : len ≤ n) : codeSpace cs len ≤ 2 ^ len := by
  induction n, hle using Nat.le_induction with
  | base => exact h
  | succ n hn ih =>
    refine ih ?_
    rw [codeSpace, firstCode_succ cs (by omega), Nat.pow_succ] at h
    omega

/-! ### The symbols of a table build -/

/-- Codewords that fit their length do not exhaust its code space. -/
theorem assignLength_ne_malformed {m : Memory} {len n code k r d : Nat} (h : code + n ≤ 2 ^ len) :
    assignLength m len n code k ≠ .error (.malformed r d) := by
  induction n generalizing code k with
  | zero => simp [assignLength]
  | succ n ih =>
    have hrest : assignLength m len n (code + 1) (k + 1) ≠ .error (.malformed r d) := ih (by omega)
    simp only [assignLength]
    rw [if_neg (by omega)]
    split
    · simp
    · split
      · simp
      · rename_i e he
        rw [he] at hrest
        exact fun h => hrest (by cases h; rfl)

/-- Counts that fit the code space at every length do not exhaust it. -/
theorem assignCodes_ne_malformed {m : Memory} {cs rest : List Nat} {len k r d : Nat} (hpos : 1 ≤ len)
    (hrest : cs.drop (len - 1) = rest) (hfit : ∀ l, len ≤ l → l < len + rest.length → codeSpace cs l ≤ 2 ^ l) :
    assignCodes m len rest (firstCode cs len) k ≠ .error (.malformed r d) := by
  induction rest generalizing len k with
  | nil => simp [assignCodes]
  | cons c rest ih =>
    have hcount : countOf cs len = c := by
      have hget : cs[len - 1]? = some c := by
        rw [← Nat.add_zero (len - 1), ← List.getElem?_drop, hrest, List.getElem?_cons_zero]
      simp [countOf, hget]
    have htail : cs.drop (len + 1 - 1) = rest := by
      simpa [List.tail_drop, show len - 1 + 1 = len by omega] using congrArg List.tail hrest
    have hlater : assignCodes m (len + 1) rest (firstCode cs (len + 1)) (k + c) ≠ .error (.malformed r d) :=
      ih (by omega) htail fun l h1 h2 => hfit l (by omega) (by rw [List.length_cons]; omega)
    have hhere : codeSpace cs len ≤ 2 ^ len := hfit len (by omega) (by rw [List.length_cons]; omega)
    rw [firstCode_succ cs hpos, codeSpace, hcount] at hlater
    rw [codeSpace, hcount] at hhere
    simp only [assignCodes]
    split
    · rename_i e he
      exact fun h => assignLength_ne_malformed hhere (he.trans h)
    · split
      · simp
      · rename_i e he
        exact fun h => hlater (he.trans h)

/-- A build that succeeds has read every symbol its counts give. -/
theorem assignCodes_reads {m : Memory} {len : Nat} {cs : List Nat} {code k : Nat} {t : List LutRun}
    (h : assignCodes m len cs code k = .ok t) {x : Nat} (hx : x < cs.sum) :
    (m.read (MemName.huffval.byteAddr (k + x))).isSome := by
  induction cs generalizing len code k t x with
  | nil => simp at hx
  | cons c cs ih =>
    simp only [assignCodes] at h
    split at h
    · cases h
    · rename_i runs hruns
      split at h
      · rename_i rest hrest
        rw [List.sum_cons] at hx
        by_cases hc : x < c
        · obtain ⟨hl, hg⟩ := assignLength_ok_iff hruns
          obtain ⟨-, -, -, hsym⟩ := hg x _ (List.getElem?_eq_getElem (by omega))
          rw [hsym]
          rfl
        · have := ih hrest (x := x - c) (by omega)
          rwa [show k + c + (x - c) = k + x by omega] at this
      · cases h

/-- A build stops at an unwritten symbol below HVLEN, if its counts pass Validate and fit the code space. -/
theorem buildTable_of_huffval_unwritten {s : State} {cs : List Nat} (h : CountsLoaded s cs)
    (hfit : codeSpace cs 16 ≤ 65536) (hn : ∃ k < s.hvlen.toNat, s.mem.read (MemName.huffval.byteAddr k) = none) :
    buildTable s.mem s.hvlen = .error (.unwritten .huffval) := by
  obtain ⟨k, hk, hn⟩ := hn
  have hfits : ∀ l, 1 ≤ l → l < 1 + cs.length → codeSpace cs l ≤ 2 ^ l := fun l h1 h2 =>
    codeSpace_fits (n := 16) hfit h1 (by rw [h.1] at h2; omega)
  have hcode : assignCodes s.mem 1 cs 0 0 = assignCodes s.mem 1 cs (firstCode cs 1) 0 := rfl
  simp only [buildTable, h.validateCounts]
  cases hr : assignCodes s.mem 1 cs 0 0 with
  | ok t =>
    have hread := assignCodes_reads hr (x := k) (by rw [h.2.2.1]; exact hk)
    rw [Nat.zero_add, hn] at hread
    cases hread
  | error e =>
    cases e with
    | malformed r d => exact absurd (hcode.symm.trans hr) (assignCodes_ne_malformed (Nat.le_refl 1) rfl hfits)
    | unwritten e => rw [(assignCodes_unwritten hr).1]

/-- HT_BUILD of a slot that exists stops where its build does. -/
theorem execHtBuild_of_unwritten {s : State} {b : BitVec 4} {m : MemName} (hb : b.toNat < s.cfg.nht)
    (h : buildTable s.mem s.hvlen = .error (.unwritten m)) : exec (.htBuild b) s = .fault (.unwritten m) := by
  rw [exec, execHtBuild, requireSlot_lt hb, h]

/-! ### The commands -/

/-- Settles O59: the transforms, the reader's commands, HT_DECODE and HT_BUILD in turn. -/
theorem unwrittenMemoryStops : Obligations.UnwrittenMemoryStops := by
  refine ⟨fun s => ⟨fun hq => ?_, fun hq hc => ?_, fun hw => runPass2_of_ws_unwritten hw⟩,
    fun s n hn hp hr hw => ⟨?_, ?_⟩, fun s b t hb hs hp hw => ?_,
    fun s b hb => ⟨fun i hi hv hpre hn => ?_, fun cs hc hfit hn => ?_⟩⟩
  · have h := runPass1_of_qt_unwritten hq
    exact ⟨h, execIdctBlock_of_pass1_fault h⟩
  · have h := runPass1_of_coef_unwritten hq hc
    exact ⟨h, execIdctBlock_of_pass1_fault h⟩
  · rw [exec, execBrPeek, requireCount_lt hn, requireReady_primed hp, requireBits_remain hr, withStreamBits_unwritten hw]
  · rw [exec, execBrRead, requireCount_lt hn, requireReady_primed hp, requireBits_remain hr, withStreamBits_unwritten hw]
  · rw [exec, execHtDecode, requireSlot_lt hb, requireTable_valid hs, requireReady_primed hp,
      decodeLookahead_unwritten hw]
  · exact execHtBuild_of_unwritten hb (buildTable_of_htBits_unwritten hi hv hpre hn)
  · exact execHtBuild_of_unwritten hb (buildTable_of_huffval_unwritten hc hfit hn)

end Sys2Proof.Machine
end

section
/-! The commands stop only on an unwritten entry of a memory they read, or on a changed buffer (spec/10_state.md R53;
spec/20_memory.md R92; spec/70_reset_and_hazards.md R304). -/

namespace Sys2Proof.Machine

/-- What `Obligations.CommandsStopOnlyOnBrokenDuties` admits as the outcome of command i in state s. -/
def StopsOnlyOnBrokenDuties (i : Instr) (s : State) (r : Result) : Prop :=
  (∃ t, r = .next t) ∨
    (∃ (m : MemName) (a : Nat), r = .fault (.unwritten m) ∧ m ∈ memoriesRead i ∧ s.mem.read a = none ∧
      (s.Inv → m.Holds s.cfg a)) ∨
    (r = .fault .bufChangedWhilePrimed ∧ s.reader.rstate = .ready ∧ s.bufDirty = true)

namespace StopsOnlyOnBrokenDuties

variable {i : Instr} {s : State}

theorem next (t : State) : StopsOnlyOnBrokenDuties i s (.next t) := .inl ⟨t, rfl⟩

/-- A stop on a byte of a memory's window that is unwritten; for BUF the place of the byte may rest on the invariant. -/
theorem unwritten {m : MemName} {j : Nat} (hm : m ∈ memoriesRead i) (hn : s.mem.read (m.base + j) = none)
    (hj : s.Inv → j < m.bytes s.cfg) : StopsOnlyOnBrokenDuties i s (.fault (.unwritten m)) :=
  .inr (.inl ⟨m, m.base + j, rfl, hm, hn, fun hinv => ⟨Nat.le_add_right _ _, Nat.add_lt_add_left (hj hinv) _⟩⟩)

/-! ### The shared checks -/

theorem requireCount {n : BitVec 6} {k : Result} (h : StopsOnlyOnBrokenDuties i s k) :
    StopsOnlyOnBrokenDuties i s (requireCount n s k) := by
  rw [Machine.requireCount]
  split
  · exact next _
  · exact h

theorem requireSlot {q : Instr} {b : BitVec 4} {k : Result} (h : StopsOnlyOnBrokenDuties i s k) :
    StopsOnlyOnBrokenDuties i s (requireSlot q b s k) := by
  rw [Machine.requireSlot]
  split
  · exact next _
  · exact h

theorem requireTable {b : BitVec 4} {k : List LutRun → Result} (h : ∀ t, StopsOnlyOnBrokenDuties i s (k t)) :
    StopsOnlyOnBrokenDuties i s (requireTable b s k) := by
  rw [Machine.requireTable]
  split
  · exact next _
  · exact h _

theorem requireBits {n : Nat} {k : Result} (h : s.Remain n → StopsOnlyOnBrokenDuties i s k) :
    StopsOnlyOnBrokenDuties i s (requireBits n s k) := by
  rw [Machine.requireBits]
  split
  · exact next _
  · exact h (by rw [State.Remain]; omega)

theorem requireReady {k : Result} (h : s.reader.rstate = .ready → StopsOnlyOnBrokenDuties i s k) :
    StopsOnlyOnBrokenDuties i s (requireReady s k) := by
  rw [Machine.requireReady]
  split
  · rename_i hready
    split
    · rename_i hdirty
      exact .inr (.inr ⟨rfl, hready, hdirty⟩)
    · exact h hready
  · exact next _
  · exact next _

/-! ### The stream -/

/-- A stream bit that is not there stands in an unwritten byte of BUF; the invariant bounds the latched length. -/
theorem withStreamBits {n : Nat} {k : Nat → Result} (hm : .buf ∈ memoriesRead i) (hready : s.reader.rstate = .ready)
    (hn : n ≤ s.reader.remaining) (h : ∀ v, StopsOnlyOnBrokenDuties i s (k v)) :
    StopsOnlyOnBrokenDuties i s (withStreamBits n s k) := by
  rw [Machine.withStreamBits]
  split
  · exact h _
  · rename_i hnone
    obtain ⟨j, hj, hbit⟩ := unwritten_of_streamBits hnone
    refine unwritten hm (Option.map_eq_none_iff.mp hbit) fun hinv => ?_
    obtain ⟨-, -, -, -, -, hp⟩ := hinv
    obtain ⟨⟨-, hlen, -⟩, -⟩ := hp hready
    simp only [Reader.remaining, Reader.streamLen] at hn
    simp only [MemName.bytes]
    omega

theorem decodeLookahead {k : Nat → Result} (hm : .buf ∈ memoriesRead i) (hready : s.reader.rstate = .ready)
    (h : ∀ v, StopsOnlyOnBrokenDuties i s (k v)) : StopsOnlyOnBrokenDuties i s (decodeLookahead s k) := by
  rw [Machine.decodeLookahead]
  split
  · rename_i hrem
    exact withStreamBits hm hready hrem h
  · split
    · refine requireBits fun hrem => withStreamBits hm hready ?_ h
      simp only [Reader.remaining]
      exact Nat.le_sub_of_add_le' hrem
    · exact withStreamBits hm hready (Nat.le_refl _) fun v => h _

theorem finishDecode (t : List LutRun) (v : Nat) : StopsOnlyOnBrokenDuties i s (finishDecode t s v) := by
  simp only [Machine.finishDecode]
  split
  · split <;> exact next _
  · split <;> exact next _

/-! ### The table build -/

/-- A build that stops stops on an unwritten byte of HT_BITS or of HUFFVAL. -/
theorem buildTable_unwritten {m : Memory} {hvlen : Word} {e : MemName}
    (h : buildTable m hvlen = .error (.unwritten e)) :
    (e = .htBits ∧ ∃ j < 64, m.read (MemName.htBits.base + j) = none) ∨
      (e = .huffval ∧ ∃ j < 256, m.read (MemName.huffval.base + j) = none) := by
  simp only [buildTable, validateCounts] at h
  split at h
  · rename_i e' hv
    cases h
    split at hv
    · cases hv
    · split at hv
      · rename_i e' hr
        cases hv
        obtain ⟨he, l, hl, hword⟩ := readCounts_unwritten hr
        obtain ⟨j, hj, hn⟩ := Memory.unwritten_of_readWord hword
        have hl16 : l - 1 < 16 := by
          have := List.mem_range'_1.mp hl
          omega
        refine .inl ⟨he, 4 * (l - 1) + j, by omega, ?_⟩
        rw [← Nat.add_assoc]
        exact hn
      · split at hv <;> cases hv
  · rename_i cs hv
    obtain ⟨he, k, hk, hn⟩ := assignCodes_unwritten h
    split at hv
    · cases hv
    · rename_i hcap
      split at hv
      · cases hv
      · split at hv
        · cases hv
        · rename_i hsum
          cases hv
          rw [Config.hvCap] at hcap
          exact .inr ⟨he, k, by omega, hn⟩

theorem execHtBuild (b : BitVec 4) : StopsOnlyOnBrokenDuties (.htBuild b) s (execHtBuild b s) := by
  refine requireSlot ?_
  split
  · exact next _
  · exact next _
  · rename_i m hm
    rcases buildTable_unwritten hm with ⟨rfl, j, hj, hn⟩ | ⟨rfl, j, hj, hn⟩
    · exact unwritten (by simp [memoriesRead]) hn fun _ => hj
    · exact unwritten (by simp [memoriesRead]) hn fun _ => hj

/-! ### The transforms and the dequantizer -/

/-- A block that is not there has an unwritten byte within the 256 bytes of its memory. -/
theorem block {m : MemName} (hm : m ∈ memoriesRead i) (hbytes : m.bytes s.cfg = 256) (h : s.block m = none) :
    StopsOnlyOnBrokenDuties i s (.fault (.unwritten m)) := by
  obtain ⟨j, hj, hn⟩ := Memory.unwritten_of_readWords h
  exact unwritten hm hn fun _ => by rw [hbytes]; exact hj

/-- An entry of QT or COEF that is not there has an unwritten byte within the 256 bytes of its memory. -/
theorem entry {m : MemName} {k : BitVec 6} (hm : m ∈ memoriesRead i) (hbytes : m.bytes s.cfg = 256)
    (h : s.mem.readWord (m.wordAddr k.toNat) = none) : StopsOnlyOnBrokenDuties i s (.fault (.unwritten m)) := by
  obtain ⟨j, hj, hn⟩ := Memory.unwritten_of_readWord h
  refine unwritten (j := 4 * k.toNat + j) hm ?_ fun _ => by omega
  rw [← Nat.add_assoc]
  exact hn

theorem execDqCoef (k : BitVec 6) : StopsOnlyOnBrokenDuties (.dqCoef k) s (execDqCoef k s) := by
  rw [Machine.execDqCoef, withDequantized]
  split
  · exact next _
  · rename_i hq
    exact entry (by simp [memoriesRead]) rfl hq
  · rename_i hc
    exact entry (by simp [memoriesRead]) rfl hc

theorem runPass1 (hq : .qt ∈ memoriesRead i) (hc : .coef ∈ memoriesRead i) :
    StopsOnlyOnBrokenDuties i s (runPass1 s) := by
  rw [Machine.runPass1]
  split
  · exact next _
  · rename_i hn
    exact block hq rfl hn
  · rename_i hn
    exact block hc rfl hn

theorem runPass2 (hw : .ws ∈ memoriesRead i) : StopsOnlyOnBrokenDuties i s (runPass2 s) := by
  rw [Machine.runPass2]
  split
  · exact next _
  · rename_i hn
    exact block hw rfl hn

/-- After pass 1 the workspace is written, so IDCT_BLOCK stops only in pass 1. -/
theorem execIdctBlock : StopsOnlyOnBrokenDuties .idctBlock s (execIdctBlock s) := by
  have h1 : StopsOnlyOnBrokenDuties .idctBlock s (Machine.runPass1 s) :=
    runPass1 (by simp [memoriesRead]) (by simp [memoriesRead])
  rw [Machine.execIdctBlock]
  cases hr : Machine.runPass1 s with
  | next t =>
    obtain ⟨qt, coef, -, -, rfl⟩ := runPass1_cases hr
    rw [andThen_next, runPass2_eq (block_ws_pass1 s qt coef)]
    exact next _
  | fault e => rwa [hr] at h1
  | refused e => rwa [hr] at h1

/-! ### The commands -/

/-- The outcome of every command. -/
theorem exec (i : Instr) (s : State) : StopsOnlyOnBrokenDuties i s (exec i s) := by
  cases i with
  | nop | clearErr | softReset | fxMul | fxRlimit => exact next _
  | brInit =>
    rw [Machine.exec, execBrInit]
    split <;> exact next _
  | brPeek n =>
    refine requireCount <| requireReady fun hready => requireBits fun hrem => ?_
    exact withStreamBits (by simp [memoriesRead]) hready (Nat.le_sub_of_add_le' hrem) fun _ => next _
  | brRead n =>
    refine requireCount <| requireReady fun hready => requireBits fun hrem => ?_
    exact withStreamBits (by simp [memoriesRead]) hready (Nat.le_sub_of_add_le' hrem) fun _ => next _
  | brSkip => exact requireReady fun _ => requireBits fun _ => next _
  | brPos => exact requireReady fun _ => next _
  | htBuild b => exact execHtBuild b
  | htDecode b =>
    refine requireSlot <| requireTable fun t => requireReady fun hready => ?_
    exact decodeLookahead (by simp [memoriesRead]) hready fun v => finishDecode t v
  | htProbe b v => exact requireSlot <| requireTable fun _ => next _
  | dqCoef k => exact execDqCoef k
  | fxDescale n => exact requireCount (next _)
  | idctPass1 => exact runPass1 (by simp [memoriesRead]) (by simp [memoriesRead])
  | idctPass2 => exact runPass2 (by simp [memoriesRead])
  | idctBlock => exact execIdctBlock

end StopsOnlyOnBrokenDuties

/-- Settles O60, command by command. -/
theorem commandsStopOnlyOnBrokenDuties : Obligations.CommandsStopOnlyOnBrokenDuties :=
  StopsOnlyOnBrokenDuties.exec

end Sys2Proof.Machine
end

section
/-! The host's accesses: which wait, which complete and which stop, what a read returns and what a write stores
(spec/20_memory.md R70 to R86). -/

namespace Sys2Proof.Machine

/-! ### Supported accesses -/

/-- A request that waits leaves the block as it is. -/
theorem step_stalled {s : State} {r : HostRequest} {rest : List HostRequest} (h : s.requests = r :: rest)
    (hs : stalls s r = true) : step s = .next s := by
  rw [step, hostStep, h]
  exact if_pos hs

/-- While BUSY = 1 a write waits (R86). -/
theorem stalls_write_of_busy {s : State} (h : s.busy = true) (addr bytes : Nat) (v : Word) :
    stalls s (.write addr bytes v) = true := by
  rw [stalls, h]
  rfl

/-- While BUSY = 1 a read in the aperture waits exactly when it is not of STATUS (R86). -/
theorem stalls_read {s : State} {off : Nat} (ho : off < Config.apertureBytes) (bytes : Nat) :
    stalls s (.read (s.cfg.hdteBase + off) bytes) = (s.busy && decide (off ≠ Reg.status.offset)) := by
  simp [stalls, ho]

/-- An address below or above the aperture has no offset (R70). -/
theorem offsetOf_outside {c : Config} {addr : Nat}
    (h : addr < c.hdteBase ∨ c.hdteBase + Config.apertureBytes ≤ addr) : offsetOf c addr = none := by
  rw [offsetOf, if_neg (by omega)]

section Access

variable {s : State} (k : Nat → Result)

theorem withAccess_outside {addr : Nat} (h : offsetOf s.cfg addr = none) (bytes : Nat) :
    withAccess addr bytes s k = .fault .outsideAperture := by
  rw [withAccess, h]

theorem withAccess_aligned {off : Nat} (ho : off < Config.apertureBytes) (ha : off % 4 = 0) :
    withAccess (s.cfg.hdteBase + off) 4 s k = k off := by
  rw [withAccess, offsetOf_base_add _ ho]
  exact if_pos ⟨rfl, ha⟩

theorem withAccess_unsupported {off bytes : Nat} (ho : off < Config.apertureBytes) (h : bytes ≠ 4 ∨ off % 4 ≠ 0) :
    withAccess (s.cfg.hdteBase + off) bytes s k = .refused .unsupportedAccess := by
  rw [withAccess, offsetOf_base_add _ ho]
  exact if_neg (by omega)

end Access

/-- A read and a write pass the same check: where it stops every access, it stops the step. -/
theorem step_of_withAccess {s : State} {addr bytes : Nat} {v : Word} {rest : List HostRequest} {o : Result}
    (hb : s.busy = false) (hreq : s.requests = .read addr bytes :: rest ∨ s.requests = .write addr bytes v :: rest)
    (h : ∀ k, withAccess addr bytes { s with requests := rest } k = o) : step s = o := by
  rcases hreq with hr | hr
  · exact (step_serve hr (stalls_of_not_busy hb _)).trans (h _)
  · exact (step_serve hr (stalls_of_not_busy hb _)).trans (h _)

/-- Settles O47, by the check of the access. -/
theorem unsupportedAccessIsRefused : Obligations.UnsupportedAccessIsRefused := by
  intro s off bytes v rest hb ho hbad hreq
  exact step_of_withAccess hb hreq fun k => withAccess_unsupported (s := { s with requests := rest }) k ho hbad

/-! ### Reads -/

/-- A host read gives one value: that of the register at the offset, or the word of the memory there if it is written.
Besides the reply only the count of free values can move. -/
theorem State.hostRead_returns (s : State) (off : Nat) : ∃ v n,
    s.hostRead off = { s with replies := v :: s.replies, freeCount := n } ∧
    (∀ q : Reg, off = q.offset → v = s.regValue q) ∧
    ∀ m w, placeAt s.cfg off = .mem m → s.mem.readWord off = some w → v = w := by
  rw [State.hostRead]
  cases hp : placeAt s.cfg off with
  | reg r =>
    refine ⟨s.regValue r, _, rfl, fun q hq => ?_, nofun⟩
    rw [hq, placeAt_reg] at hp
    cases hp
    rfl
  | mem m =>
    have noReg : ∀ q : Reg, off ≠ q.offset := by
      rintro q rfl
      rw [placeAt_reg] at hp
      cases hp
    cases hw : s.mem.readWord off with
    | some v => exact ⟨v, _, rfl, fun q hq => absurd hq (noReg q), fun _ _ _ h => Option.some.inj h⟩
    | none => exact ⟨_, _, rfl, fun q hq => absurd hq (noReg q), nofun⟩
  | unmapped =>
    refine ⟨_, _, rfl, fun q hq => ?_, nofun⟩
    rw [hq, placeAt_reg] at hp
    cases hp

/-- The windows of R72, given as numbers, are memories'. -/
theorem placeAt_of_window {c : Config} {off : Nat}
    (h : InWordWindow off ∨ InByteWindow c off ∨ InReadOnlyWindow off) : ∃ m, placeAt c off = .mem m := by
  rcases or_assoc.mpr h with h | h
  · obtain ⟨m, hm, -⟩ := holds_of_writableWindow h
    exact ⟨m, placeAt_of_holds hm⟩
  · obtain ⟨m, hm, -⟩ := holds_of_readOnlyWindow c h
    exact ⟨m, placeAt_of_holds hm⟩

/-- Settles O46, register by register and window by window. -/
theorem hostReadsHaveNoSideEffect : Obligations.HostReadsHaveNoSideEffect := by
  refine ⟨fun s off rest h => ?_, rfl, rfl, rfl, rfl, rfl, rfl, rfl⟩
  obtain ⟨v, n, hread, hreg, hmem⟩ := State.hostRead_returns { s with requests := rest } off
  refine ⟨v, n, (step_read h).trans (congrArg _ hread), hreg .cmd, hreg .arg, hreg .arg2, hreg .status, hreg .result,
    hreg .errInfo, hreg .brLen, hreg .hvlen, hreg .config, fun w hwin hw => ?_⟩
  obtain ⟨m, hm⟩ := placeAt_of_window hwin
  exact hmem m w hm hw

/-- Settles O49: the stall, the read of STATUS, the idle block and the aperture's bounds. -/
theorem busyIdleAndOutsideAccesses : Obligations.BusyIdleAndOutsideAccesses := by
  refine ⟨fun s off v rest hb ho hreq => ?_, fun s rest hr => ?_, fun s => step_idle,
    fun s addr bytes v rest hb hout hreq => ?_⟩
  · rcases hreq with hr | ⟨hoff, hr⟩
    · exact step_stalled hr (stalls_write_of_busy hb _ _ _)
    · refine step_stalled hr ?_
      rw [stalls_read ho, hb]
      exact decide_eq_true hoff
  · have ho : Reg.status.offset < Config.apertureBytes := by decide
    have hs : stalls s (.read (s.cfg.hdteBase + Reg.status.offset) 4) = false := by
      simp [stalls_read ho]
    refine (step_serve hr hs).trans ((withAccess_aligned (s := { s with requests := rest }) _ ho rfl).trans ?_)
    rw [State.hostRead, placeAt_reg]
    rfl
  · exact step_of_withAccess hb hreq fun k =>
      withAccess_outside (s := { s with requests := rest }) k (offsetOf_outside hout) bytes

/-! ### Writes -/

/-- A step on a host write at an offset of a memory's window is a write of that memory. -/
theorem step_write_mem {s : State} {off : Nat} {v : Word} {rest : List HostRequest} {m : MemName}
    (h : s.Writes off v rest) (hm : m.Holds s.cfg off) :
    step s = .next (State.writeMem { s with requests := rest } m off v) := by
  rw [step_write h, hostWrite, placeAt_of_holds hm]

/-- A step on a host write at an unmapped offset ignores it (R78). -/
theorem step_write_unmapped {s : State} {off : Nat} {v : Word} {rest : List HostRequest} (h : s.Writes off v rest)
    (hu : Unmapped s.cfg off) : step s = .next { s with requests := rest } := by
  rw [step_write h, hostWrite, placeAt_of_unmapped hu]

/-- A host write of a memory the host may not write is ignored (R78). -/
theorem State.writeMem_of_not_writable {m : MemName} (h : m.hostWritable = false) (s : State) (off : Nat) (v : Word) :
    s.writeMem m off v = s := by
  rw [State.writeMem, h]
  rfl

/-- A host write of a writable memory stores the word and marks a write under a primed reader (R304). -/
theorem State.writeMem_of_writable {m : MemName} (h : m.hostWritable = true) (s : State) (off : Nat) (v : Word) :
    s.writeMem m off v =
      { s with mem := s.mem.storeWord off v, bufDirty := s.bufDirty || decide (s.PrimedWord off) } := by
  rw [State.writeMem, h]
  rfl

/-- Settles O45, by what stands at the offset. -/
theorem readOnlyAndUnmappedWritesAreIgnored : Obligations.ReadOnlyAndUnmappedWritesAreIgnored := by
  intro s off v rest h hoff
  rcases hoff with rfl | rfl | rfl | rfl | hro | hun
  · exact (step_write h).trans (hostWrite_reg (q := .status) nofun v _)
  · exact (step_write h).trans (hostWrite_reg (q := .result) nofun v _)
  · exact (step_write h).trans (hostWrite_reg (q := .errInfo) nofun v _)
  · exact (step_write h).trans (hostWrite_reg (q := .config) nofun v _)
  · obtain ⟨m, hm, hw⟩ := holds_of_readOnlyWindow s.cfg hro
    rw [step_write_mem h hm, State.writeMem_of_not_writable hw]
  · exact step_write_unmapped h hun

/-- A stored word's bytes, the most significant first (R79). -/
theorem Memory.read_storeWord_byte (m : Memory) (a : Nat) (v : Word) {j : Nat} (hj : j < 4) :
    (m.storeWord a v).read (a + j) = some (v.extractLsb' (24 - 8 * j) 8) := by
  rw [Memory.storeWord, Memory.read_store, wordBytes_length, if_pos (by omega), Nat.add_sub_cancel_left]
  interval_cases j <;> rfl

/-- Settles O43: the offset is in the window of a memory the host may write. -/
theorem memoryWordsKeepWhatTheHostWrites : Obligations.MemoryWordsKeepWhatTheHostWrites := by
  intro s off v rest hwin h
  obtain ⟨m, hm, hw⟩ := holds_of_writableWindow hwin
  have hbyte : ∀ j < 4, (s.mem.storeWord off v).read (off + j) = some (v.extractLsb' (24 - 8 * j) 8) :=
    fun j hj => Memory.read_storeWord_byte s.mem off v hj
  refine ⟨State.writeMem { s with requests := rest } m off v, step_write_mem h hm, ?_⟩
  rw [State.writeMem_of_writable hw]
  exact ⟨rfl, Memory.readWord_storeWord _ _ _, fun a ha => Memory.read_storeWord_of_ne _ _ ha, fun _ => hbyte,
    fun _ => hbyte⟩

/-- Settles O44: the stored word is the one the reader would load, and all its stream bits are written. -/
theorem bufWordIsTheStreamDword : Obligations.BufWordIsTheStreamDword := by
  intro m w v j hj
  refine ⟨?_, fun k hk => streamBit_congr (Memory.read_storeWord_of_ne _ _ ?_)⟩
  · have hbit := readWordOr_bitIs (m.storeWord (MemName.buf.wordAddr w) v) w 0 hj
    rw [readWordOr_of_readWord (Memory.readWord_storeWord _ _ _)] at hbit
    refine hbit.resolve_left fun hnone => ?_
    have hbyte := Memory.read_storeWord_byte m (MemName.buf.wordAddr w) v (j := j / 8) (by omega)
    rw [streamBit, show MemName.buf.byteAddr ((32 * w + j) / 8) = MemName.buf.wordAddr w + j / 8 by
      simp only [MemName.byteAddr, MemName.wordAddr]; omega, hbyte] at hnone
    cases hnone
  · simp only [MemName.byteAddr, MemName.wordAddr]
    omega

end Sys2Proof.Machine
end

section
/-! The memories' form along a step: canonical, inside the mapped windows and of whole words (spec/20_memory.md R72, R84;
spec/10_state.md R53). -/

namespace Sys2Proof.Machine

/-! ### Stores of whole words inside a window -/

/-- A store unwrites nothing. -/
theorem Memory.isSome_read_store {m : Memory} {x : Nat} (h : (m.read x).isSome) (a : Nat) (bs : List Byte) :
    ((m.store a bs).read x).isSome := by
  rw [Memory.read_store]
  split
  · rw [List.getElem?_eq_getElem (by omega)]
    rfl
  · exact h

/-- An entry of a memory after a store is one of the stored bytes or was there before. -/
theorem Memory.mem_store_cases {m : Memory} {a : Nat} {bs : List Byte} {c : Host.Cell} (h : c ∈ m.store a bs) :
    (a ≤ c.1 ∧ c.1 < a + bs.length) ∨ c ∈ m := by
  rw [Memory.store, List.mem_append, List.mem_append] at h
  rcases h with (h | h) | h
  · exact .inr (List.mem_filter.mp h).1
  · exact .inl (cellsFrom_bounds h)
  · exact .inr (List.mem_filter.mp h).1

/-- The memories' form depends on the configuration and the memories only. -/
theorem State.MemoryLegal.congr {s t : State} (h : s.MemoryLegal) (hcfg : t.cfg = s.cfg) (hmem : t.mem = s.mem) :
    t.MemoryLegal := by
  rw [State.MemoryLegal, hcfg, hmem]
  exact h

/-- Storing whole aligned words inside a memory's window keeps the memories' form. -/
theorem State.MemoryLegal.store {s t : State} (h : s.MemoryLegal) (m : MemName) {a : Nat} {bs : List Byte}
    (hcfg : t.cfg = s.cfg) (hmem : t.mem = s.mem.store a bs) (ha : a % 4 = 0) (hl : bs.length % 4 = 0)
    (hlo : m.base ≤ a) (hhi : a + bs.length ≤ m.base + m.bytes s.cfg) : t.MemoryLegal := by
  obtain ⟨hwf, hcells⟩ := h
  rw [State.MemoryLegal, hcfg, hmem]
  refine ⟨Memory.store_wf hwf a bs, fun c hc => ?_⟩
  rcases Memory.mem_store_cases hc with hnew | hold
  · have hplace : memAt s.cfg c.1 = some m := memAt_of_holds ⟨by omega, by omega⟩
    refine ⟨by rw [hplace]; nofun, fun j hj => ?_⟩
    rw [Memory.read_store, if_pos (by omega), List.getElem?_eq_getElem (by omega)]
    rfl
  · obtain ⟨hplace, hword⟩ := hcells c hold
    exact ⟨hplace, fun j hj => Memory.isSome_read_store (hword j hj) a bs⟩

/-- Writing the whole of WS keeps the memories' form. -/
theorem State.MemoryLegal.storeWs {s t : State} (h : s.MemoryLegal) {vs : List Word} (hl : vs.length = 64)
    (hcfg : t.cfg = s.cfg) (hmem : t.mem = s.mem.storeWords MemName.ws.base vs) : t.MemoryLegal := by
  have hlen : (vs.flatMap wordBytes).length = 256 := by rw [flatMap_wordBytes_length, hl]
  exact h.store .ws hcfg hmem rfl (by rw [hlen]) (Nat.le_refl _) (by rw [hlen, MemName.bytes])

/-- Writing the whole of OUT keeps the memories' form. -/
theorem State.MemoryLegal.storeOut {s t : State} (h : s.MemoryLegal) {bs : List Byte} (hl : bs.length = 64)
    (hcfg : t.cfg = s.cfg) (hmem : t.mem = s.mem.store MemName.out.base bs) : t.MemoryLegal :=
  h.store .out hcfg hmem rfl (by rw [hl]) (Nat.le_refl _) (by rw [hl, MemName.bytes])

/-- A window holds whole words: the word of an aligned offset in it ends in it. -/
theorem MemName.Holds.word_end_le {c : Config} {m : MemName} {off : Nat} (h : m.Holds c off) (hc : c.Legal)
    (ha : off % 4 = 0) : off + 4 ≤ m.base + m.bytes c := by
  obtain ⟨-, -, ⟨-, -, h4⟩, -⟩ := hc
  obtain ⟨-, hlt⟩ := h
  cases m <;> simp only [MemName.base, MemName.bytes] at hlt ⊢ <;> omega

/-! ### The step -/

/-- A command keeps the memories' form: it writes all of WS, all of OUT, or nothing. -/
theorem Effect.memoryLegal {i : Instr} {s t : State} (h : Effect i s t) (hs : s.MemoryLegal) : t.MemoryLegal := by
  rcases h.mem_cases with hm | ⟨-, vs, hl, hm⟩ | ⟨-, bs, hl, hm⟩ | ⟨-, vs, bs, hlw, hlo, hm⟩
  · exact hs.congr h.cfg_eq hm
  · exact hs.storeWs hl h.cfg_eq hm
  · exact hs.storeOut hl h.cfg_eq hm
  · have hws : (s.setMem (s.mem.storeWords MemName.ws.base vs)).MemoryLegal := hs.storeWs hlw rfl rfl
    exact hws.storeOut hlo h.cfg_eq hm

/-- The issue of a word, dropped, illegal or executed, keeps the memories' form. -/
theorem issue_keeps_memoryLegal {v : Word} {s u : State} (h : issue v s = .next u) (hs : s.MemoryLegal) :
    u.MemoryLegal := by
  rcases issue_cases h with ⟨-, -, rfl⟩ | ⟨-, -, rfl⟩ | ⟨-, i, -, hx⟩
  · exact hs
  · exact hs
  · exact (exec_cases hx).memoryLegal hs

/-- A host write of an aligned word of a memory's window keeps the memories' form. -/
theorem State.MemoryLegal.writeMem {s : State} (h : s.MemoryLegal) (hcfg : s.cfg.Legal) {m : MemName} {off : Nat}
    (hm : m.Holds s.cfg off) (ha : off % 4 = 0) (v : Word) : (s.writeMem m off v).MemoryLegal := by
  cases hw : m.hostWritable with
  | false => rwa [State.writeMem_of_not_writable hw]
  | true =>
    rw [State.writeMem_of_writable hw]
    exact h.store m (bs := wordBytes v) rfl rfl ha (by rw [wordBytes_length]) hm.1 (hm.word_end_le hcfg ha)

/-- Settles O51, by what a step does to the block. -/
theorem stepKeepsMemoryLegal : Obligations.StepKeepsMemoryLegal := by
  intro s t hcfg hs h
  rcases step_block_cases h with
    ⟨_, _, _, _, _, _, _, rfl⟩ | ⟨rest, rfl⟩ | ⟨v, rest, u, hu, rfl⟩ | ⟨rest, m, off, v, ha, hplace, rfl⟩
  · exact hs
  · exact ⟨.nil, nofun⟩
  · have hkept : u.MemoryLegal := issue_keeps_memoryLegal hu hs
    exact hkept
  · obtain ⟨-, hm⟩ := placeAt_eq_mem hplace
    exact State.MemoryLegal.writeMem (s := { s with requests := rest }) hs hcfg hm ha v

end Sys2Proof.Machine
end

section
/-! The opcode map, the decoder and the encoder (spec/30_encoding.md R101 to R112): a row is known by its opcode, the
words that select it are the words of the commands it reads, and every command is read by a row. -/

namespace Sys2Proof

/-! ### The rows of the opcode map (R108) -/

/-- A row's fixed bits are its opcode in bits 31:24 and 0 in the bits below. -/
theorem OpcodeRow.pattern_eq {r : OpcodeRow} (hr : r ∈ opcodeMap) : r.pattern = formatN r.opcode := by
  revert r
  decide

/-- Every row fixes all bits of the opcode. -/
theorem OpcodeRow.opcodeField_mask {r : OpcodeRow} (hr : r ∈ opcodeMap) : opcodeField r.mask = BitVec.allOnes 8 := by
  revert r
  decide

/-- A row's pattern is 0 outside its mask. -/
theorem OpcodeRow.pattern_and_mask {r : OpcodeRow} (hr : r ∈ opcodeMap) : r.pattern &&& r.mask = r.pattern := by
  revert r
  decide

/-- No row has an opcode that R109 lists as reserved. -/
theorem OpcodeRow.not_reservedOpcode {r : OpcodeRow} (hr : r ∈ opcodeMap) :
    ¬ Machine.ReservedOpcode r.opcode.toNat := by
  revert r
  decide

/-- Two rows with one opcode are one row. -/
theorem OpcodeRow.eq_of_opcode_eq {r q : OpcodeRow} (hr : r ∈ opcodeMap) (hq : q ∈ opcodeMap)
    (h : r.opcode = q.opcode) : r = q :=
  List.inj_on_of_nodup_map (f := OpcodeRow.opcode) (l := opcodeMap) (by decide) hr hq h

theorem opcodeField_formatN (op : BitVec 8) : opcodeField (formatN op) = op := BitVec.extractLsb'_append_eq_left

theorem formatN_getLsbD (op : BitVec 8) (i : Nat) :
    (formatN op).getLsbD i = if i < 24 then false else op.getLsbD (i - 24) := by
  rw [formatN, BitVec.getLsbD_append, BitVec.ofNat_eq_ofNat, BitVec.getLsbD_zero]

/-- A word that selects a row has the row's opcode: the mask keeps bits 31:24. -/
theorem OpcodeRow.Selects.opcodeField_eq {r : OpcodeRow} {v : Word} (h : r.Selects v) (hr : r ∈ opcodeMap) :
    opcodeField v = r.opcode := by
  have hkept : opcodeField (v &&& r.mask) = opcodeField v := by
    rw [opcodeField, BitVec.extractLsb'_and, ← opcodeField, ← opcodeField, OpcodeRow.opcodeField_mask hr,
      BitVec.and_allOnes]
  rw [← hkept, show v &&& r.mask = r.pattern from h, OpcodeRow.pattern_eq hr, opcodeField_formatN]

/-- A word with a set bit that the row fixes at 0 does not select the row (R110). -/
theorem OpcodeRow.not_selects_of_reservedBit {r : OpcodeRow} {v : Word} {k : Nat} (hr : r ∈ opcodeMap) (hk : k < 24)
    (hm : r.mask.getLsbD k = true) (hv : v.getLsbD k = true) : ¬ r.Selects v := by
  intro h
  have hbit : (v &&& r.mask).getLsbD k = r.pattern.getLsbD k := by rw [show v &&& r.mask = r.pattern from h]
  rw [BitVec.getLsbD_and, hv, hm, OpcodeRow.pattern_eq hr, formatN_getLsbD, if_pos hk] at hbit
  cases hbit

/-! ### The decoder (R113) -/

/-- The decoder's search by opcode finds the row that has it. -/
theorem find?_opcodeMap_of_mem {r : OpcodeRow} (hr : r ∈ opcodeMap) :
    opcodeMap.find? (fun q => q.opcode == r.opcode) = some r := by
  obtain ⟨q, hq⟩ : ∃ q, opcodeMap.find? (fun q => q.opcode == r.opcode) = some q :=
    Option.isSome_iff_exists.mp (List.find?_isSome.mpr ⟨r, hr, beq_self_eq_true _⟩)
  rw [hq, OpcodeRow.eq_of_opcode_eq (List.mem_of_find?_eq_some hq) hr (by simpa using List.find?_some hq)]

/-- On a word with a row's opcode the decoder checks the row's fixed bits. -/
theorem decode_of_opcode {r : OpcodeRow} {v : Word} (hr : r ∈ opcodeMap) (h : opcodeField v = r.opcode) :
    decode v = if r.Selects v then .ok (r.read v) else .error .reservedBits := by
  rw [decode, h, find?_opcodeMap_of_mem hr]

/-- A word with no row's opcode is rejected. -/
theorem decode_of_unassigned {v : Word} (h : ∀ r ∈ opcodeMap, r.opcode ≠ opcodeField v) :
    decode v = .error .reservedOpcode := by
  have hnone : opcodeMap.find? (fun r => r.opcode == opcodeField v) = none :=
    List.find?_eq_none.mpr fun r hr => by simpa using h r hr
  rw [decode, hnone]

/-- A word that selects a row decodes to the command the row reads from it. -/
theorem OpcodeRow.Selects.decode_eq {r : OpcodeRow} {v : Word} (h : r.Selects v) (hr : r ∈ opcodeMap) :
    decode v = .ok (r.read v) := by
  rw [decode_of_opcode hr (h.opcodeField_eq hr), if_pos h]

/-- What the decoder accepts: a word that selects a row, from which the row reads the command. -/
theorem exists_row_of_decode {v : Word} {i : Instr} (h : decode v = .ok i) :
    ∃ r ∈ opcodeMap, r.Selects v ∧ r.read v = i := by
  by_cases hop : ∃ r ∈ opcodeMap, r.opcode = opcodeField v
  · obtain ⟨r, hr, hro⟩ := hop
    rw [decode_of_opcode hr hro.symm] at h
    split at h
    · rename_i hsel
      exact ⟨r, hr, hsel, Except.ok.inj h⟩
    · cases h
  · rw [decode_of_unassigned fun r hr hro => hop ⟨r, hr, hro⟩] at h
    cases h

/-- Settles O4: a selected row has the word's opcode, and the decoder accepts exactly the selected words. -/
theorem opcodeMapIsUnambiguousAndTotal : Obligations.OpcodeMapIsUnambiguousAndTotal := by
  refine ⟨fun v r q hr hq hrs hqs => (hrs.opcodeField_eq hr).symm.trans (hqs.opcodeField_eq hq), fun v => ?_⟩
  constructor
  · rintro ⟨i, hi⟩
    obtain ⟨r, hr, hsel, -⟩ := exists_row_of_decode hi
    exact ⟨r, hr, hsel⟩
  · rintro ⟨r, hr, hsel⟩
    exact ⟨r.read v, hsel.decode_eq hr⟩

/-! ### The formats (R102 to R107) -/

/-- The bits of a word with a field above and a field below a gap of zeros. -/
theorem getLsbD_append_zero_append {m w : Nat} (x : BitVec m) (k : Nat) (y : BitVec w) (i : Nat) :
    ((x ++ (0 : BitVec k)) ++ y).getLsbD i =
      if i < w then y.getLsbD i else if i < w + k then false else x.getLsbD (i - (w + k)) := by
  rw [BitVec.getLsbD_append, BitVec.getLsbD_append]
  split
  · rfl
  split
  · rw [if_pos (by omega)]
    exact BitVec.getLsbD_zero
  · rw [if_neg (by omega), Nat.sub_sub]

theorem formatB_getLsbD (op : BitVec 8) (n : BitVec 6) (i : Nat) : (formatB op n).getLsbD i =
    if i < 6 then n.getLsbD i else if i < 24 then false else op.getLsbD (i - 24) :=
  getLsbD_append_zero_append op 18 n i

theorem formatS_getLsbD (op : BitVec 8) (b : BitVec 4) (i : Nat) : (formatS op b).getLsbD i =
    if i < 4 then b.getLsbD i else if i < 24 then false else op.getLsbD (i - 24) :=
  getLsbD_append_zero_append op 20 b i

theorem countField_formatB (op : BitVec 8) (n : BitVec 6) : countField (formatB op n) = n :=
  BitVec.extractLsb'_append_eq_right

theorem indexField_formatB (op : BitVec 8) (n : BitVec 6) : indexField (formatB op n) = n :=
  BitVec.extractLsb'_append_eq_right

theorem slotField_formatS (op : BitVec 8) (b : BitVec 4) : slotField (formatS op b) = b :=
  BitVec.extractLsb'_append_eq_right

theorem probeValueField_formatSP (op : BitVec 8) (b : BitVec 4) (v : BitVec 16) :
    probeValueField (formatSP op b v) = v :=
  BitVec.extractLsb'_append_eq_right

theorem probeSlotField_formatSP (op : BitVec 8) (b : BitVec 4) (v : BitVec 16) :
    probeSlotField (formatSP op b v) = b :=
  calc probeSlotField (formatSP op b v)
    _ = (op ++ b ++ (0 : BitVec 4)).extractLsb' 4 4 := BitVec.extractLsb'_append_eq_of_le (by decide)
    _ = (op ++ b).extractLsb' 0 4 := BitVec.extractLsb'_append_eq_of_le (by decide)
    _ = b := BitVec.extractLsb'_append_eq_right

section Fields

variable (op : BitVec 8) (v : Word)

/-- A format N word written with the mask of its rows, which leaves no bit of v. -/
theorem formatN_eq_or : formatN op = formatN op ||| (v &&& ~~~0xFFFFFFFF) := by
  simp

/-- The word of the count that v holds: the opcode, and the bits of v outside the mask of the format's rows. -/
theorem formatB_countField : formatB op (countField v) = formatN op ||| (v &&& ~~~0xFFFFFFC0) := by
  refine BitVec.eq_of_getLsbD_eq fun i hi => ?_
  rw [formatB_getLsbD, BitVec.getLsbD_or, BitVec.getLsbD_and, formatN_getLsbD, countField]
  interval_cases i <;> simp

/-- The word of the slot that v holds. -/
theorem formatS_slotField : formatS op (slotField v) = formatN op ||| (v &&& ~~~0xFFFFFFF0) := by
  refine BitVec.eq_of_getLsbD_eq fun i hi => ?_
  rw [formatS_getLsbD, BitVec.getLsbD_or, BitVec.getLsbD_and, formatN_getLsbD, slotField]
  interval_cases i <;> simp

/-- The word of the slot and the lookahead value that v holds. -/
theorem formatSP_probeFields :
    formatSP op (probeSlotField v) (probeValueField v) = formatN op ||| (v &&& ~~~0xFF0F0000) := by
  refine BitVec.eq_of_getLsbD_eq fun i hi => ?_
  rw [Laws.formatSP_getLsbD, BitVec.getLsbD_or, BitVec.getLsbD_and, formatN_getLsbD, probeSlotField, probeValueField]
  interval_cases i <;> simp

end Fields

/-! ### Decoding and encoding -/

/-- The word of the command that a row reads from v has the row's fixed bits and, outside the mask, the bits of v. -/
theorem OpcodeRow.encode_read {r : OpcodeRow} (hr : r ∈ opcodeMap) (v : Word) :
    encode (r.read v) = r.pattern ||| (v &&& ~~~r.mask) := by
  revert r
  simp only [opcodeMap, opcodeMapStream, opcodeMapBlock, List.cons_append, List.nil_append, List.forall_mem_cons]
  exact ⟨formatN_eq_or 0x00 v, formatN_eq_or 0x01 v, formatB_countField 0x02 v, formatB_countField 0x03 v,
    formatN_eq_or 0x04 v, formatN_eq_or 0x05 v, formatS_slotField 0x10 v, formatS_slotField 0x11 v,
    formatSP_probeFields 0x12 v, formatB_countField 0x20 v, formatN_eq_or 0x21 v, formatB_countField 0x22 v,
    formatN_eq_or 0x23 v, formatN_eq_or 0x30 v, formatN_eq_or 0x31 v, formatN_eq_or 0x32 v, formatN_eq_or 0xF0 v,
    formatN_eq_or 0xFF v, List.forall_mem_nil _⟩

/-- The words that select a row are those of the commands the row reads: no other bit is free. -/
theorem OpcodeRow.selects_iff_encode_read {r : OpcodeRow} (hr : r ∈ opcodeMap) (v : Word) :
    r.Selects v ↔ encode (r.read v) = v := by
  rw [OpcodeRow.encode_read hr]
  constructor
  · intro h
    rw [← h, ← BitVec.and_or_distrib_left, BitVec.or_not_self, BitVec.and_allOnes]
  · intro h
    have hfree : v &&& ~~~r.mask &&& r.mask = 0#32 := by
      rw [BitVec.and_assoc, BitVec.not_and_self]
      exact BitVec.and_zero
    rw [OpcodeRow.Selects, ← h, BitVec.and_or_distrib_right, OpcodeRow.pattern_and_mask hr, hfree, BitVec.or_zero]

/-- Every command is what some row reads from the command's word. -/
theorem exists_row_reading (i : Instr) : ∃ r ∈ opcodeMap, r.read (encode i) = i := by
  cases i with
  | nop => exact ⟨opcodeMap[0], List.getElem_mem _, rfl⟩
  | brInit => exact ⟨opcodeMap[1], List.getElem_mem _, rfl⟩
  | brPeek n => exact ⟨opcodeMap[2], List.getElem_mem _, congrArg Instr.brPeek (countField_formatB _ n)⟩
  | brRead n => exact ⟨opcodeMap[3], List.getElem_mem _, congrArg Instr.brRead (countField_formatB _ n)⟩
  | brSkip => exact ⟨opcodeMap[4], List.getElem_mem _, rfl⟩
  | brPos => exact ⟨opcodeMap[5], List.getElem_mem _, rfl⟩
  | htBuild b => exact ⟨opcodeMap[6], List.getElem_mem _, congrArg Instr.htBuild (slotField_formatS _ b)⟩
  | htDecode b => exact ⟨opcodeMap[7], List.getElem_mem _, congrArg Instr.htDecode (slotField_formatS _ b)⟩
  | htProbe b v =>
    exact ⟨opcodeMap[8], List.getElem_mem _,
      congrArg₂ Instr.htProbe (probeSlotField_formatSP _ b v) (probeValueField_formatSP _ b v)⟩
  | dqCoef k => exact ⟨opcodeMap[9], List.getElem_mem _, congrArg Instr.dqCoef (indexField_formatB _ k)⟩
  | fxMul => exact ⟨opcodeMap[10], List.getElem_mem _, rfl⟩
  | fxDescale n => exact ⟨opcodeMap[11], List.getElem_mem _, congrArg Instr.fxDescale (countField_formatB _ n)⟩
  | fxRlimit => exact ⟨opcodeMap[12], List.getElem_mem _, rfl⟩
  | idctPass1 => exact ⟨opcodeMap[13], List.getElem_mem _, rfl⟩
  | idctPass2 => exact ⟨opcodeMap[14], List.getElem_mem _, rfl⟩
  | idctBlock => exact ⟨opcodeMap[15], List.getElem_mem _, rfl⟩
  | clearErr => exact ⟨opcodeMap[16], List.getElem_mem _, rfl⟩
  | softReset => exact ⟨opcodeMap[17], List.getElem_mem _, rfl⟩

/-- Settles O2: the row that reads the command from its word is selected by it. -/
theorem decodeOfEncodeIsIdentity : Obligations.DecodeOfEncodeIsIdentity := by
  intro i
  obtain ⟨r, hr, hread⟩ := exists_row_reading i
  have hsel : r.Selects (encode i) := (OpcodeRow.selects_iff_encode_read hr _).mpr (congrArg encode hread)
  rw [hsel.decode_eq hr, hread]

/-- Settles O3: the row that accepted the word is selected by it. -/
theorem encodeOfDecodeIsIdentity : Obligations.EncodeOfDecodeIsIdentity := by
  intro v i h
  obtain ⟨r, hr, hsel, rfl⟩ := exists_row_of_decode h
  exact (OpcodeRow.selects_iff_encode_read hr v).mp hsel

/-- Settles O1: each word is, by the formats, the word of the command. -/
theorem specWordsDecode : Obligations.SpecWordsDecode :=
  have hdecode := decodeOfEncodeIsIdentity
  ⟨hdecode .nop, hdecode .brInit, hdecode (.brPeek 4), hdecode (.brRead 31), hdecode .brSkip, hdecode .brPos,
    hdecode (.htBuild 1), hdecode (.htDecode 1), hdecode (.htProbe 1 0xBFFF), hdecode (.dqCoef 5),
    hdecode (.fxDescale 8), hdecode .idctBlock, hdecode .clearErr, hdecode .softReset⟩

end Sys2Proof
end

section
/-! The issue of a command word (spec/30_encoding.md R109 to R113): a legal word executes, and an illegal one or one
that names an absent slot raises ILLEGAL_COMMAND and changes nothing else. -/

namespace Sys2Proof.Machine

/-! ### Legal words -/

theorem decodeTableWord_eq_some_iff {nbits w : Nat} {i : Instr} :
    decodeTableWord nbits w = some i ↔ decode (tableWord nbits w) = .ok i := by
  rw [decodeTableWord]
  cases decode (tableWord nbits w) <;> simp

/-- A step on a legal word that no recorded error drops executes the command, with BUSY set around it. -/
theorem step_of_decode {s : State} {v : Word} {rest : List HostRequest} {i : Instr} (h : s.Issues v rest)
    (hg : s.err = none ∨ ExecutesUnderError v) (hd : decode v = .ok i) :
    step s = mapNext (fun t => t.setBusy false) (exec i { s with requests := rest, busy := true }) := by
  have hissue := issue_of_decode (s := { s with requests := rest, busy := true }) hd hg
  rw [step_issue h, hissue]

/-- Settles O5: `withFetchWord` issues the table's word. -/
theorem stepRunsTheDecodedCommand : Obligations.StepRunsTheDecodedCommand := by
  refine ⟨fun s v rest i h hg hd => step_of_decode h hg hd, fun s nbits w i hw herr => ?_⟩
  have hissues : (s.withFetchWord nbits w).Issues (tableWord nbits w) s.requests := ⟨rfl, rfl⟩
  exact step_of_decode hissues (.inl herr) (decodeTableWord_eq_some_iff.mp hw)

/-! ### Illegal words -/

/-- A step whose word is answered with ILLEGAL_COMMAND changes the error record and nothing else. -/
theorem step_of_issue_illegal {s : State} {v : Word} {rest : List HostRequest} (h : s.Issues v rest)
    (hi : issue v { s with requests := rest, busy := true } =
      .next (State.raise { s with requests := rest, busy := true } .illegalCommand v)) :
    step s = .next { s with requests := rest, err := some .illegalCommand, errInfo := v } := by
  have hb : s.busy = false := h.1
  rw [step_issue h, hi, mapNext_next, ← hb]
  rfl

/-- A word with a reserved opcode, or with a set bit that its opcode's row fixes at 0, is rejected (R109, R110). -/
theorem decode_rejects {v : Word} (h : ReservedOpcode (opcodeField v).toNat ∨
    ∃ r ∈ opcodeMap, ∃ k < 24, opcodeField v = r.opcode ∧ r.mask.getLsbD k = true ∧ v.getLsbD k = true) :
    ∃ e, decode v = .error e := by
  rcases h with hop | ⟨r, hr, k, hk, hop, hm, hv⟩
  · refine ⟨_, decode_of_unassigned fun r hr hro => OpcodeRow.not_reservedOpcode hr ?_⟩
    rwa [hro]
  · have hnot : ¬ r.Selects v := OpcodeRow.not_selects_of_reservedBit hr hk hm hv
    exact ⟨_, (decode_of_opcode hr hop).trans (if_neg hnot)⟩

/-- Settles O6: the decoder rejects the word. -/
theorem illegalWordRaisesIllegalCommand : Obligations.IllegalWordRaisesIllegalCommand := by
  intro s v rest h herr hbad
  obtain ⟨e, he⟩ := decode_rejects hbad
  exact step_of_issue_illegal h (issue_of_reject he herr)

/-! ### Absent slots -/

theorem requireSlot_of_absent {b : BitVec 4} {s : State} (h : s.cfg.nht ≤ b.toNat) (i : Instr) (k : Result) :
    requireSlot i b s k = .next (s.raise .illegalCommand (encode i)) := by
  rw [requireSlot, if_pos h]

theorem wellFormed_eq_false_iff {c : Config} {i : Instr} :
    i.wellFormed c = false ↔ ∃ b, i.slot = some b ∧ c.nht ≤ b.toNat := by
  rw [Instr.wellFormed]
  cases i.slot <;> simp

/-- A command that names an absent slot raises ILLEGAL_COMMAND with its word before anything else (R111). -/
theorem exec_of_absent_slot {i : Instr} {b : BitVec 4} {s : State} (hi : i.slot = some b) (hb : s.cfg.nht ≤ b.toNat) :
    exec i s = .next (s.raise .illegalCommand (encode i)) := by
  cases i with
  | htBuild | htDecode | htProbe =>
    cases hi
    exact requireSlot_of_absent hb _ _
  | _ => cases hi

/-- The word of a command that names an absent slot raises ILLEGAL_COMMAND: the command's word is the word issued. -/
theorem issue_of_absent_slot {v : Word} {i : Instr} {b : BitVec 4} {s : State} (hd : decode v = .ok i)
    (herr : s.err = none) (hi : i.slot = some b) (hb : s.cfg.nht ≤ b.toNat) :
    issue v s = .next (s.raise .illegalCommand v) := by
  rw [issue_of_decode hd (.inl herr), exec_of_absent_slot hi hb, encodeOfDecodeIsIdentity v i hd]

/-- Settles O7: a command that is not well formed names an absent slot. -/
theorem absentSlotRaisesIllegalCommand : Obligations.AbsentSlotRaisesIllegalCommand := by
  intro s v rest i h herr hd hwf
  obtain ⟨b, hslot, hb⟩ := wellFormed_eq_false_iff.mp hwf
  exact step_of_issue_illegal h (issue_of_absent_slot hd herr hslot hb)

end Sys2Proof.Machine
end

section
/-! The bit reader's commands (spec/40_bitreader.md R130 to R139; spec/60_exceptions.md R262, R265): what each returns and
consumes on a primed reader, and which error it raises where a check fails. -/

namespace Sys2Proof.Machine

/-! ### Priming (R134) -/

/-- TopUp stops at a full W. -/
theorem State.topUpLoop_of_full {s : State} (h : s.reader.nw = 32) (fuel : Nat) : s.topUpLoop fuel = s := by
  cases fuel with
  | zero => rfl
  | succ fuel => rw [State.topUpLoop, if_pos h]

/-- A transfer from a whole dword into an empty W moves the dword. -/
theorem Reader.transfer_of_empty {r : Reader} (hw : r.w = 0) (hnw : r.nw = 0) (hnr : r.nr = 32) :
    r.transfer = { r with w := r.rs, nw := 32, rs := 0, nr := 0 } := by
  simp [Reader.transfer_eq, hw, hnw, hnr]

/-- TopUp changes nothing once the reservoir is empty and the stream is loaded to its end. -/
theorem State.topUp_of_exhausted {s : State} (hnr : s.reader.nr = 0)
    (hidx : s.reader.idx = s.reader.lenLatched.toNat / 4) : s.topUp = s := by
  simp [State.topUp, State.topUpLoop, hnr, hidx]

/-- TopUp of an empty prefetch state loads the next dword of the stream into W. -/
theorem State.topUp_of_empty {s : State} (hw : s.reader.w = 0) (hnw : s.reader.nw = 0) (hnr : s.reader.nr = 0)
    (hidx : s.reader.idx ≠ s.reader.lenLatched.toNat / 4) : ∃ v n,
    s.topUp = { s with
      reader := { s.reader with w := v, nw := 32, rs := 0, nr := 0, idx := s.reader.idx + 1 }, freeCount := n } ∧
    ∀ x, s.mem.readWord (MemName.buf.wordAddr s.reader.idx) = some x → v = x := by
  obtain ⟨v, n, hload, hv, -⟩ := s.loadReservoir_cases
  have hround : s.topUp = (s.loadReservoir.setReader s.loadReservoir.reader.transfer).topUpLoop 2 := by
    rw [State.topUp, State.topUpLoop, if_neg (by omega), if_pos hnr, if_neg hidx]
  have hfull : s.loadReservoir.reader.transfer =
      { s.reader with w := v, nw := 32, rs := 0, nr := 0, idx := s.reader.idx + 1 } := by
    rw [hload]
    exact Reader.transfer_of_empty hw hnw rfl
  refine ⟨v, n, ?_, hv⟩
  rw [hround, hfull, State.topUpLoop_of_full rfl, hload]
  rfl

/-- Over a buffer without a dword priming loads nothing. -/
theorem State.prime_of_no_dword (s : State) {len : Word} (h : len.toNat / 4 = 0) :
    s.prime len =
      { s with reader := { Reader.initial with rstate := .ready, lenLatched := len }, bufDirty := false } :=
  State.topUp_of_exhausted rfl h.symm

/-- Over a buffer of at least one dword priming loads the first into W. -/
theorem State.prime_of_dword (s : State) {len : Word} (h : len.toNat / 4 ≠ 0) : ∃ v n,
    s.prime len = { s with
      reader := { rstate := .ready, p := 0, lenLatched := len, w := v, nw := 32, rs := 0, nr := 0, idx := 1 }
      bufDirty := false, freeCount := n } ∧
    ∀ x, s.mem.readWord MemName.buf.base = some x → v = x :=
  State.topUp_of_empty (s := { s with
    reader := { Reader.initial with rstate := .ready, lenLatched := len }, bufDirty := false }) rfl rfl rfl h.symm

theorem exec_brInit_of_legal {s : State} (h4 : s.brLen.toNat % 4 = 0) (hmax : s.brLen.toNat ≤ s.cfg.bufMaxBytes) :
    exec .brInit s = .next (s.prime s.brLen) := by
  rw [exec, execBrInit, if_neg (by omega)]

theorem exec_brInit_of_illegal {s : State} (h : s.brLen.toNat % 4 ≠ 0 ∨ s.cfg.bufMaxBytes < s.brLen.toNat) :
    exec .brInit s = .next (s.raise .badBufferLength s.brLen) := by
  rw [exec, execBrInit, if_pos h]

/-- Settles O12: an empty buffer, a buffer of at least one dword, and an illegal length. -/
theorem brInitPrimesTheReader : Obligations.BrInitPrimesTheReader := by
  refine ⟨fun s h4 hmax => ⟨s.prime s.brLen, exec_brInit_of_legal h4 hmax, ?_⟩, fun s h => exec_brInit_of_illegal h⟩
  by_cases h0 : s.brLen = 0
  · rw [State.prime_of_no_dword s (by simp [h0])]
    exact ⟨rfl, rfl, rfl, rfl, rfl, fun _ => ⟨rfl, rfl⟩, fun hne => absurd h0 hne⟩
  · have hpos : s.brLen.toNat ≠ 0 := fun h => h0 (BitVec.eq_of_toNat_eq h)
    obtain ⟨v, n, hprime, hv⟩ := s.prime_of_dword (len := s.brLen) (by omega)
    rw [hprime]
    exact ⟨rfl, rfl, rfl, rfl, rfl, fun h => absurd h h0, fun _ => ⟨rfl, rfl, hv⟩⟩

/-! ### Commands on a primed reader with enough bits (R135 to R138) -/

section Reading

variable {s : State} {n : BitVec 6} {v : Nat}

theorem exec_brPeek_of_streamBits (hn : n.toNat < 32) (hp : s.Primed) (hr : s.Remain n.toNat)
    (hv : streamBits s.mem s.reader.p.toNat n.toNat = some v) :
    exec (.brPeek n) s = .next { s with result := BitVec.ofNat 32 v } := by
  rw [exec, execBrPeek, requireCount_lt hn, requireReady_primed hp, requireBits_remain hr, withStreamBits_some hv]
  rfl

/-- BR_READ returns the stream's next number and moves the reader by its count. -/
theorem exec_brRead_of_streamBits (hn : n.toNat < 32) (hp : s.Primed) (hr : s.Remain n.toNat)
    (hv : streamBits s.mem s.reader.p.toNat n.toNat = some v) :
    ∃ t, exec (.brRead n) s = .next t ∧ MovedBy (n.setWidth 32) (s.setResult (BitVec.ofNat 32 v)) t := by
  refine ⟨(s.setResult (BitVec.ofNat 32 v)).consume n.toNat, ?_, ?_⟩
  · rw [exec, execBrRead, requireCount_lt hn, requireReady_primed hp, requireBits_remain hr, withStreamBits_some hv]
  · rw [← BitVec.ofNat_toNat]
    exact State.consume_movedBy _ _

end Reading

/-- Settles O13: the written bits make a number, and BR_PEEK returns it. -/
theorem brPeekReturnsTheNextBits : Obligations.BrPeekReturnsTheNextBits := by
  intro s n hn hp hr hw
  obtain ⟨v, hv⟩ := streamBits_isSome hw
  exact ⟨_, exec_brPeek_of_streamBits hn hp hr hv, streamBits_isStreamBits hv (by omega)⟩

/-- Settles O14: the written bits make a number, and BR_READ returns it. -/
theorem brReadReturnsTheNextBitsAndAdvances : Obligations.BrReadReturnsTheNextBitsAndAdvances := by
  intro s n hn hp hr hw
  obtain ⟨v, hv⟩ := streamBits_isSome hw
  obtain ⟨t, ht, hmoved⟩ := exec_brRead_of_streamBits hn hp hr hv
  exact ⟨_, t, ht, hmoved, streamBits_isStreamBits hv (by omega)⟩

/-- Settles O15: the chunks of the skip add up to ARG. -/
theorem brSkipAdvancesByArg : Obligations.BrSkipAdvancesByArg := by
  intro s hp hr
  refine ⟨State.skipLoop (s.arg.toNat / 31 + 1) s.arg.toNat s, ?_, ?_⟩
  · rw [exec, execBrSkip, requireReady_primed hp, requireBits_remain hr]
  · have hmoved := s.skipAll_movedBy
    rwa [BitVec.ofNat_toNat, BitVec.setWidth_eq] at hmoved

/-- Settles O16: the check that the reader is primed passes. -/
theorem brPosReturnsThePosition : Obligations.BrPosReturnsThePosition := by
  intro s hp
  rw [exec, execBrPos, requireReady_primed hp]
  rfl

/-! ### Two reads for one (R139 (c)) -/

section Moved

variable {n : Word} {s t : State}

theorem MovedBy.result_eq (h : MovedBy n s t) : t.result = s.result := by rw [h]

theorem MovedBy.reader_p_eq (h : MovedBy n s t) : t.reader.p = s.reader.p + n := by rw [h]

theorem MovedBy.lenLatched_eq (h : MovedBy n s t) : t.reader.lenLatched = s.reader.lenLatched := by rw [h]

theorem MovedBy.primed (h : MovedBy n s t) (hp : s.Primed) : t.Primed := by
  rw [h]
  exact hp

end Moved

/-- While the counts hold, the latched stream is too short for P to wrap within it. -/
theorem State.PrefetchCounts.streamLen_lt {s : State} (hc : s.PrefetchCounts) (hcfg : s.cfg.Legal) :
    s.reader.streamLen < 2 ^ 32 := by
  obtain ⟨-, hlen, -⟩ := hc
  obtain ⟨-, -, ⟨-, hmax, -⟩, -⟩ := hcfg
  simp only [Reader.streamLen]
  omega

/-- A number of up to 32 bits fits the RESULT register. -/
theorem streamBits_toNat_ofNat {m : Memory} {p n v : Nat} (h : streamBits m p n = some v) (hn : n ≤ 32) :
    (BitVec.ofNat 32 v).toNat = v := by
  rw [BitVec.toNat_ofNat]
  exact Nat.mod_eq_of_lt (Nat.lt_of_lt_of_le (streamBits_lt h) (Nat.pow_le_pow_right (by omega) hn))

/-- Written bits make a number, and so do the first a of them and the b after those. -/
theorem streamBits_split {m : Memory} {p a b : Nat} (h : StreamWritten m p (a + b)) : ∃ x y,
    streamBits m p a = some x ∧ streamBits m (p + a) b = some y ∧ streamBits m p (a + b) = some (x * 2 ^ b + y) := by
  obtain ⟨x, hx⟩ : ∃ x, streamBits m p a = some x := streamBits_isSome fun k hk => h k (by omega)
  obtain ⟨y, hy⟩ : ∃ y, streamBits m (p + a) b = some y :=
    streamBits_isSome fun k hk => by rw [Nat.add_assoc]; exact h (a + k) (by omega)
  exact ⟨x, y, hx, hy, streamBits_add hx hy⟩

/-- Settles O20: the number of a + b bits is its first a bits, then its next b bits. -/
theorem splitReadsConcatenate : Obligations.SplitReadsConcatenate := by
  intro s a b c hinv hc hc31 hp hr hw
  obtain ⟨hcfg, -, -, -, -, hholds⟩ := hinv
  have hlen := (hholds hp.1).1.streamLen_lt hcfg
  obtain ⟨x, y, hx, hy, hxy⟩ := streamBits_split (hc ▸ hw)
  rw [← hc] at hxy
  obtain ⟨t1, ht1, hm1⟩ := exec_brRead_of_streamBits (n := a) (by omega) hp (by omega) hx
  have hp1 : t1.reader.p.toNat = s.reader.p.toNat + a.toNat := by
    rw [hm1.reader_p_eq, State.setResult_reader, BitVec.toNat_add, BitVec.toNat_setWidth]
    omega
  have hr1 : t1.Remain b.toNat := by
    rw [State.Remain, Reader.streamLen, hp1, hm1.lenLatched_eq, Nat.add_assoc, ← hc]
    exact hr
  have hmem : t1.mem = s.mem := hm1.mem_eq
  rw [← hp1, ← hmem] at hy
  obtain ⟨t2, ht2, hm2⟩ := exec_brRead_of_streamBits (n := b) (by omega) (hm1.primed hp) hr1 hy
  obtain ⟨u, hu, hmu⟩ := exec_brRead_of_streamBits (n := c) (by omega) hp hr hxy
  refine ⟨t1, t2, u, ht1, ht2, hu, ?_, ?_⟩
  · simp only [hm1.result_eq, hm2.result_eq, hmu.result_eq, State.setResult_result]
    rw [streamBits_toNat_ofNat hx (by omega), streamBits_toNat_ofNat hy (by omega),
      streamBits_toNat_ofNat hxy (by omega)]
  · have hcount : c.setWidth 32 = a.setWidth 32 + b.setWidth 32 := by bv_omega
    simp only [hm2.reader_p_eq, hm1.reader_p_eq, hmu.reader_p_eq, State.setResult_reader]
    rw [hcount, BitVec.add_assoc]

/-! ### The read-ahead word (R131) -/

/-- Bit j of Lookahead(n) stands n − 1 − j places from the top of W. -/
theorem Reader.lookahead_testBit (r : Reader) {n j : Nat} (hn : n ≤ 32) (hj : j < n) :
    (r.lookahead n).testBit j = r.w.getLsbD (31 - (n - 1 - j)) := by
  rw [Reader.lookahead, Nat.testBit_div_two_pow, ← BitVec.getLsbD, show 31 - (n - 1 - j) = j + (32 - n) by omega]

theorem Reader.lookahead_lt (r : Reader) {n : Nat} (hn : n ≤ 32) : r.lookahead n < 2 ^ n := by
  rw [Reader.lookahead, Nat.div_lt_iff_lt_mul (Nat.two_pow_pos _), ← Nat.pow_add, Nat.add_sub_cancel' hn]
  exact r.w.isLt

/-- Settles O21: bit by bit, W holds the stream from P on. -/
theorem lookaheadEqualsStreamBits : Obligations.LookaheadEqualsStreamBits := by
  intro s n v hinv hp hpos hn hr hv
  obtain ⟨-, -, -, -, -, hholds⟩ := hinv
  obtain ⟨hcounts, hbits⟩ := hholds hp.1
  obtain ⟨-, -, -, -, -, hnw, -⟩ := hcounts
  obtain ⟨hw, -⟩ := hbits hp.2
  refine Nat.eq_of_testBit_eq fun j => ?_
  by_cases hj : n ≤ j
  · have hpow : 2 ^ n ≤ 2 ^ j := Nat.pow_le_pow_right (by omega) hj
    rw [Nat.testBit_lt_two_pow (Nat.lt_of_lt_of_le (s.reader.lookahead_lt hn) hpow),
      Nat.testBit_lt_two_pow (Nat.lt_of_lt_of_le (streamBits_lt hv) hpow)]
  rw [Nat.not_le] at hj
  have hbit := streamBits_testBit hv hj
  rw [s.reader.lookahead_testBit hn hj]
  rcases hw (n - 1 - j) (by omega) (by omega) with hnone | hsome
  · rw [hnone] at hbit
    cases hbit
  · rw [hsome] at hbit
    exact Option.some.inj hbit

/-! ### Failing checks (R132, R262, R265) -/

theorem requireCount_ge {n : BitVec 6} (h : 32 ≤ n.toNat) (s : State) (k : Result) :
    requireCount n s k = .next (s.raise .argRange (n.setWidth 32)) := by
  rw [requireCount, if_pos h, BitVec.ofNat_toNat]

theorem requireReady_unready {s : State} {info : Word}
    (h : (s.reader.rstate = .idle ∧ info = 0) ∨ (s.reader.rstate = .faulted ∧ info = 2)) (k : Result) :
    requireReady s k = .next (s.raise .notReady info) := by
  rcases h with ⟨hr, rfl⟩ | ⟨hr, rfl⟩
  · rw [requireReady, hr]
  · rw [requireReady, hr]

theorem requireBits_short {s : State} {n : Nat} (h : ¬ s.Remain n) (k : Result) :
    requireBits n s k = .next s.overrun := by
  rw [requireBits, if_pos (Nat.lt_of_not_le h)]

theorem requireTable_invalid {b : BitVec 4} {s : State} (h : (s.slot b.toNat).isValid = false)
    (k : List LutRun → Result) :
    requireTable b s k = .next (s.raise .notReady (BitVec.ofNat 32 (0x100 + b.toNat))) := by
  cases hs : s.slot b.toNat with
  | invalid c => rw [requireTable, hs]
  | valid t =>
    rw [hs] at h
    cases h

/-- Settles O17: the check of the remaining bits fails before anything is consumed. -/
theorem requestPastTheEndOverruns : Obligations.RequestPastTheEndOverruns := by
  refine fun s hp => ⟨fun n hn hr => ⟨?_, ?_⟩, fun hr => ?_⟩
  · rw [exec, execBrPeek, requireCount_lt hn, requireReady_primed hp, requireBits_short hr]
    rfl
  · rw [exec, execBrRead, requireCount_lt hn, requireReady_primed hp, requireBits_short hr]
    rfl
  · rw [exec, execBrSkip, requireReady_primed hp, requireBits_short hr]
    rfl

/-- Settles O18: the count is checked first. -/
theorem countOutOfRangeRaisesArgRange : Obligations.CountOutOfRangeRaisesArgRange :=
  fun s _ hn => ⟨requireCount_ge hn s _, requireCount_ge hn s _, requireCount_ge hn s _⟩

/-- Settles O19: the slot's validity is checked before the reader's state. -/
theorem unreadyReaderOrSlotRaisesNotReady : Obligations.UnreadyReaderOrSlotRaisesNotReady := by
  refine ⟨fun s info h => ⟨fun n hn => ⟨?_, ?_⟩, requireReady_unready h _, requireReady_unready h _,
    fun b t hb ht => ?_⟩, fun s b v hb hs => ⟨?_, ?_⟩⟩
  · exact (requireCount_lt hn s _).trans (requireReady_unready h _)
  · exact (requireCount_lt hn s _).trans (requireReady_unready h _)
  · rw [exec, execHtDecode, requireSlot_lt hb, requireTable_valid ht, requireReady_unready h]
    rfl
  · exact (requireSlot_lt hb _ _).trans (requireTable_invalid hs _)
  · exact (requireSlot_lt hb _ _).trans (requireTable_invalid hs _)

end Sys2Proof.Machine
end

section
/-! The decode-table slots along a step (spec/41_huffman.md R171): only HT_BUILD and the two resets write one. -/

namespace Sys2Proof.Machine

theorem State.slot_congr {s t : State} (h : t.slots = s.slots) (k : Nat) : t.slot k = s.slot k := by
  rw [State.slot, h, State.slot]

theorem State.slot_setSlot_of_ne {s : State} {i k : Nat} (h : i ≠ k) (x : Slot) :
    (s.setSlot i x).slot k = s.slot k := by
  simp [State.slot, List.getD_eq_getElem?_getD, List.getElem?_set_ne h]

/-- The reader's progress leaves the slots as they are. -/
theorem MovedBy.slots_eq {n : Word} {s t : State} (h : MovedBy n s t) : t.slots = s.slots := by rw [h]

/-- A command leaves the slots as they are, or it is SOFT_RESET, or HT_BUILD and sets its own slot. -/
theorem Effect.slots_cases {i : Instr} {s t : State} (h : Effect i s t) :
    t.slots = s.slots ∨ i = .softReset ∨ ∃ b x, i = .htBuild b ∧ t.slots = s.slots.set b.toNat x := by
  cases h with
  | soft hi => exact .inr (.inl hi)
  | buildFailed b _ hi => exact .inr (.inr ⟨b, _, hi, rfl⟩)
  | built b t hi => exact .inr (.inr ⟨b, _, hi, rfl⟩)
  | consumed v n => exact .inl (State.consume_movedBy n (s.setResult v)).slots_eq
  | skipped => exact .inl s.skipAll_movedBy.slots_eq
  | primed => exact .inl (State.topUp_slots _)
  | none | clear | raise | overrun | invalid | result | wroteWs | wroteOut | wroteBoth => exact .inl rfl

/-- A word whose issue changes a slot is the word of SOFT_RESET or of HT_BUILD of that slot. -/
theorem decode_of_issue_changes_slot {v : Word} {s u : State} {k : Nat} (h : issue v s = .next u)
    (hk : u.slot k ≠ s.slot k) :
    decode v = .ok .softReset ∨ ∃ b : BitVec 4, b.toNat = k ∧ decode v = .ok (.htBuild b) := by
  rcases issue_cases h with ⟨-, -, rfl⟩ | ⟨-, -, rfl⟩ | ⟨-, i, hd, hx⟩
  · exact absurd rfl hk
  · exact absurd rfl hk
  rcases (exec_cases hx).slots_cases with hs | rfl | ⟨b, x, rfl, hs⟩
  · exact absurd (State.slot_congr hs k) hk
  · exact .inl hd
  · refine .inr ⟨b, ?_, hd⟩
    by_contra hb
    exact hk ((State.slot_congr (s := s.setSlot b.toNat x) hs k).trans (State.slot_setSlot_of_ne hb x))

/-- Settles O57, by the kinds of request a step serves. -/
theorem onlyBuildAndResetChangeASlot : Obligations.OnlyBuildAndResetChangeASlot := by
  intro s t k h hk
  rcases step_cases h with rfl | ⟨r, rest, hr, hreset | hread | hcmd | hreg | hmem | hunmapped⟩
  · exact absurd rfl hk
  · obtain ⟨rfl, -⟩ := hreset
    exact ⟨rest, .inl hr⟩
  · obtain ⟨_, off, -, -, -, rfl⟩ := hread
    obtain ⟨_, _, hf⟩ := State.hostRead_frame { s with requests := rest } off
    rw [hf] at hk
    exact absurd rfl hk
  · obtain ⟨addr, v, u, rfl, ho, -, hu, rfl⟩ := hcmd
    exact ⟨rest, .inr ⟨addr, v, hr, ho, decode_of_issue_changes_slot hu hk⟩⟩
  · obtain ⟨_, _, q, v, -, -, -, -, rfl⟩ := hreg
    obtain ⟨_, _, _, _, hf⟩ := State.writeReg_frame { s with requests := rest } v q
    rw [hf] at hk
    exact absurd rfl hk
  · obtain ⟨_, off, m, v, -, -, -, -, rfl⟩ := hmem
    obtain ⟨_, _, hf⟩ := State.writeMem_frame { s with requests := rest } m off v
    rw [hf] at hk
    exact absurd rfl hk
  · obtain ⟨_, _, _, -, -, -, rfl⟩ := hunmapped
    exact absurd rfl hk

end Sys2Proof.Machine
end

section
/-! Lookups and the commands that make them (spec/41_huffman.md R166 to R170): what HT_PROBE and HT_DECODE return, when
HT_DECODE fails, and that decoding inverts the concatenation of codewords. -/

namespace Sys2Proof.Machine

/-! ### Lookups (R166, R169) -/

/-- In a legal table a lookahead that begins with a run's codeword has the run's length and symbol. -/
theorem lookup_of_codeword {t : List LutRun} (h : TableLegal t) {r : LutRun} (hr : r ∈ t) {v : Nat}
    (hv : v / 2 ^ (16 - r.len) = r.base / 2 ^ (16 - r.len)) : lookup t v = (r.len, r.sym) :=
  lookup_of_covers h hr ((covers_iff (h.1 r hr) v).mpr hv)

/-- Settles O26: the run that covers the one lookahead covers the other. -/
theorem lookupDependsOnTheCodewordOnly : Obligations.LookupDependsOnTheCodewordOnly := by
  intro t v v' h hfound hv
  rcases lookup_cases t v with ⟨r, hr, hcov, he⟩ | ⟨-, he⟩
  · rw [he] at hv ⊢
    exact lookup_of_codeword h hr (hv.trans ((covers_iff (h.1 r hr) v).mp hcov))
  · rw [he] at hfound
    exact absurd rfl hfound

section Fields

variable {e : Nat × Byte} (h : e.1 ≤ 16)

include h

/-- RESULT after HT_PROBE as a number: the length and the symbol stand side by side below the filled flag. -/
theorem probeResult_toNat :
    (probeResult e).toNat = (if e.1 ≠ 0 then 2 ^ 31 else 0) + e.1 * 2 ^ 8 + e.2.toNat := by
  have hsym := e.2.isLt
  rw [probeResult, BitVec.toNat_ofNat, Nat.mod_eq_of_lt]
  split <;> omega

theorem probeResult_filled : (probeResult e).getLsbD 31 = decide (e.1 ≠ 0) := by
  have hsym := e.2.isLt
  rw [BitVec.getLsbD, probeResult_toNat h, Nat.testBit_eq_decide_div_mod_eq, decide_eq_decide]
  split <;> omega

theorem probeResult_length : ((probeResult e).extractLsb' 8 5).toNat = e.1 := by
  have hsym := e.2.isLt
  rw [BitVec.extractLsb'_toNat, Nat.shiftRight_eq_div_pow, probeResult_toNat h]
  split <;> omega

theorem probeResult_symbol : (probeResult e).extractLsb' 0 8 = e.2 := by
  have hsym := e.2.isLt
  refine BitVec.eq_of_toNat_eq ?_
  rw [BitVec.extractLsb'_toNat, Nat.shiftRight_zero, probeResult_toNat h]
  split <;> omega

theorem probeResult_reserved : (probeResult e).extractLsb' 13 18 = 0 := by
  have hsym := e.2.isLt
  refine BitVec.eq_of_toNat_eq ?_
  rw [BitVec.extractLsb'_toNat, Nat.shiftRight_eq_div_pow, probeResult_toNat h,
    BitVec.ofNat_eq_ofNat, BitVec.toNat_ofNat]
  split <;> omega

end Fields

/-- Settles O29: a legal table's lengths fit their field. -/
theorem htProbeReturnsTheEntry : Obligations.HtProbeReturnsTheEntry := by
  intro s b v t hb hs ht
  have hlen := lookup_len_le ht v.toNat
  refine ⟨probeResult (lookup t v.toNat), ?_, probeResult_filled hlen, probeResult_length hlen, probeResult_symbol hlen,
    probeResult_reserved hlen⟩
  rw [exec, execHtProbe, requireSlot_lt hb, requireTable_valid hs]
  rfl

/-! ### HT_DECODE -/

section Decode

variable {s : State} {b : BitVec 4} {t : List LutRun} {v : Nat}

/-- The lookahead of HT_DECODE where it is there, in both tail modes (R168). -/
theorem decodeLookahead_of (h : LookaheadIs s v) (k : Nat → Result) : decodeLookahead s k = k v := by
  rcases h with ⟨hrem, hv⟩ | ⟨hrem, htail, u, hu, rfl⟩
  · rw [decodeLookahead, if_pos hrem, withStreamBits_some hv]
  · rw [decodeLookahead, if_neg (by omega), htail]
    exact withStreamBits_some hu _

/-- In STRICT mode a lookahead of fewer than 16 remaining bits overruns (R168). -/
theorem decodeLookahead_strict_short (htail : s.cfg.tailMode = .strict) (hrem : s.reader.remaining < 16)
    (k : Nat → Result) : decodeLookahead s k = .next s.overrun := by
  rw [decodeLookahead, if_neg (by omega), htail]
  exact requireBits_short (by simp only [Reader.remaining] at hrem; simp only [State.Remain]; omega) _

/-- HT_DECODE with a valid slot and a primed reader looks up its lookahead. -/
theorem exec_htDecode (hb : b.toNat < s.cfg.nht) (hs : s.slot b.toNat = .valid t) (hp : s.Primed) :
    exec (.htDecode b) s = decodeLookahead s fun v => finishDecode t s v := by
  rw [exec, execHtDecode, requireSlot_lt hb, requireTable_valid hs, requireReady_primed hp]

end Decode

/-- Settles O27: the lookahead is there, and its codeword fits. -/
theorem htDecodeReturnsLengthAndSymbol : Obligations.HtDecodeReturnsLengthAndSymbol := by
  intro s b t v hb hs hp hv hfound hfits
  refine ⟨_, ?_, State.consume_movedBy _ _⟩
  rw [exec_htDecode hb hs hp, decodeLookahead_of hv, finishDecode, if_neg hfound, if_neg (by omega)]
  rfl

/-- Settles O28: the lookahead cannot be read, has no codeword, or has one that does not fit. -/
theorem htDecodeFailures : Obligations.HtDecodeFailures := by
  refine fun s b t hb hs hp => ⟨fun htail hrem => ?_, fun v hv => ⟨fun hrem hnone => ?_, fun hrem hbad => ?_⟩⟩
  · rw [exec_htDecode hb hs hp, decodeLookahead_strict_short htail hrem]
    rfl
  · rw [exec_htDecode hb hs hp, decodeLookahead_of hv, finishDecode, if_pos hnone, if_neg (by omega)]
    rfl
  · rw [exec_htDecode hb hs hp, decodeLookahead_of hv, finishDecode]
    by_cases hnone : (lookup t v).1 = 0
    · rw [if_pos hnone, if_pos hrem]
      rfl
    · rw [if_neg hnone, if_pos (hbad.resolve_left hnone)]
      rfl

/-! ### Decoding a concatenation of codewords (R170) -/

/-- The first bits of a number of n stream bits. -/
theorem streamBits_take {m : Memory} {p n len u : Nat} (h : streamBits m p n = some u) (hle : len ≤ n) :
    streamBits m p len = some (u / 2 ^ (n - len)) := by
  obtain ⟨k, rfl⟩ := Nat.exists_eq_add_of_le hle
  obtain ⟨x, y, hx, hy, hxy⟩ := streamBits_split (StreamWritten.of_streamBits h)
  obtain rfl : x * 2 ^ k + y = u := Option.some.inj (hxy.symm.trans h)
  rw [hx, Nat.add_sub_cancel_left, Nat.mul_comm, Nat.mul_add_div (Nat.two_pow_pos k),
    Nat.div_eq_of_lt (streamBits_lt hy), Nat.add_zero]

/-- The lookahead begins with the stream's next bits. -/
theorem LookaheadIs.streamBits_take {s : State} {v len : Nat} (h : LookaheadIs s v) (h16 : len ≤ 16)
    (hle : len ≤ s.reader.remaining) :
    streamBits s.mem s.reader.p.toNat len = some (v / 2 ^ (16 - len)) := by
  rcases h with ⟨-, hv⟩ | ⟨hrem, -, u, hu, rfl⟩
  · exact Machine.streamBits_take hv h16
  · have hsplit : 2 ^ (16 - len) = 2 ^ (s.reader.remaining - len) * 2 ^ (16 - s.reader.remaining) := by
      rw [← Nat.pow_add, show s.reader.remaining - len + (16 - s.reader.remaining) = 16 - len by omega]
    rw [hsplit, Nat.mul_div_mul_right _ _ (Nat.two_pow_pos _)]
    exact Machine.streamBits_take hu hle

theorem State.Remain.mono {s : State} {m n : Nat} (h : s.Remain n) (hle : m ≤ n) : s.Remain m :=
  Nat.le_trans (Nat.add_le_add_left hle _) h

/-- The lookahead is there when its bits within the buffer are written and 16 bits remain or the tail is zero-filled. -/
theorem exists_lookaheadIs {s : State} (hmode : 16 ≤ s.reader.remaining ∨ s.cfg.tailMode = .zeroFill)
    (hw : StreamWritten s.mem s.reader.p.toNat (min 16 s.reader.remaining)) : ∃ v, LookaheadIs s v := by
  obtain ⟨u, hu⟩ := streamBits_isSome hw
  by_cases hrem : 16 ≤ s.reader.remaining
  · rw [Nat.min_eq_left hrem] at hu
    exact ⟨u, .inl ⟨hrem, hu⟩⟩
  · rw [Nat.min_eq_right (by omega)] at hu
    exact ⟨_, .inr ⟨by omega, hmode.resolve_left hrem, u, hu, rfl⟩⟩

/-- HT_DECODE b can decode with table t: slot b exists and holds t, the reader is primed, and its stream is too short for P
to wrap. -/
structure CanDecode (b : BitVec 4) (t : List LutRun) (s : State) : Prop where
  slotExists : b.toNat < s.cfg.nht
  slotHolds : s.slot b.toNat = .valid t
  primed : s.Primed
  streamShort : s.reader.streamLen < 2 ^ 32

theorem CanDecode.of_inv {b : BitVec 4} {t : List LutRun} {s : State} (hinv : s.Inv) (hb : b.toNat < s.cfg.nht)
    (hs : s.slot b.toNat = .valid t) (hp : s.Primed) : CanDecode b t s := by
  obtain ⟨hcfg, -, -, -, -, hholds⟩ := hinv
  exact ⟨hb, hs, hp, (hholds hp.1).1.streamLen_lt hcfg⟩

/-- A result and the reader's progress leave the decoder ready. -/
theorem CanDecode.movedBy {b : BitVec 4} {t : List LutRun} {s u : State} {k v : Word} (h : CanDecode b t s)
    (hm : MovedBy k { s with result := v } u) : CanDecode b t u where
  slotExists := by rw [hm.cfg_eq]; exact h.slotExists
  slotHolds := (State.slot_congr hm.slots_eq _).trans h.slotHolds
  primed := hm.primed h.primed
  streamShort := by rw [Reader.streamLen, hm.lenLatched_eq]; exact h.streamShort

/-- Moving by remaining bits of a short stream does not wrap P. -/
theorem MovedBy.p_toNat {s u : State} {n : Nat} (hm : MovedBy (BitVec.ofNat 32 n) s u)
    (hshort : s.reader.streamLen < 2 ^ 32) (hr : s.Remain n) : u.reader.p.toNat = s.reader.p.toNat + n := by
  rw [hm.reader_p_eq, BitVec.toNat_add, BitVec.toNat_ofNat]
  simp only [State.Remain] at hr
  omega

/-- HT_DECODE of a stream that begins with a codeword of the table returns the codeword's length and symbol, if 16 bits
remain or the tail is zero-filled and the codeword fits. -/
theorem exec_htDecode_of_codeword {s : State} {b : BitVec 4} {t : List LutRun} {r : LutRun} (h : CanDecode b t s)
    (ht : TableLegal t) (hr : r ∈ t)
    (hcode : streamBits s.mem s.reader.p.toNat r.len = some (r.base / 2 ^ (16 - r.len)))
    (htail : s.Remain 16 ∨ (s.cfg.tailMode = .zeroFill ∧ s.Remain r.len))
    (hw : StreamWritten s.mem s.reader.p.toNat (min 16 s.reader.remaining)) : ∃ u,
      exec (.htDecode b) s = .next u ∧ u.reader.p.toNat = s.reader.p.toNat + r.len ∧
      MovedBy (BitVec.ofNat 32 r.len) { s with result := BitVec.ofNat 32 (r.len * 256 + r.sym.toNat) } u := by
  obtain ⟨hpos, h16, -⟩ := ht.1 r hr
  have hfits : s.Remain r.len := htail.elim (fun h16bits => h16bits.mono h16) And.right
  have hrem : r.len ≤ s.reader.remaining := Nat.le_sub_of_add_le' hfits
  obtain ⟨v, hv⟩ := exists_lookaheadIs (htail.imp Nat.le_sub_of_add_le' And.left) hw
  have hfirst := Option.some.inj ((hv.streamBits_take h16 hrem).symm.trans hcode)
  have hlook := lookup_of_codeword ht hr hfirst
  have hdecode := htDecodeReturnsLengthAndSymbol s b t v h.slotExists h.slotHolds h.primed hv
  rw [hlook] at hdecode
  obtain ⟨u, hu, hm⟩ := hdecode (Nat.ne_of_gt hpos) hrem
  exact ⟨u, hu, hm.p_toNat h.streamShort hfits, hm⟩

/-- Successive HT_DECODE commands move P by the sum of the codewords' lengths. -/
theorem DecodesTo.p_toNat {b : BitVec 4} {rs : List LutRun} {s u : State} (h : DecodesTo b rs s u) :
    u.reader.p.toNat = s.reader.p.toNat + (rs.map (fun r => r.len)).sum := by
  induction rs generalizing s with
  | nil =>
    obtain rfl : u = s := h
    rfl
  | cons r rs ih =>
    obtain ⟨u', -, -, hp, hrest⟩ := h
    rw [ih hrest, hp, List.map_cons, List.sum_cons, Nat.add_assoc]

/-- A stream that spells codewords of the table decodes to them: one HT_DECODE command returns the first, and the rest of the
stream spells the others. -/
theorem exists_decodesTo {b : BitVec 4} {t : List LutRun} (ht : TableLegal t) (rs : List LutRun) {last : LutRun}
    {s : State} (h : CanDecode b t s) (hmem : ∀ r ∈ rs ++ [last], r ∈ t)
    (hspell : SpellsCodewords s.mem s.reader.p.toNat (rs ++ [last]))
    (htail : s.Remain ((rs.map (fun r => r.len)).sum + 16) ∨
      (s.cfg.tailMode = .zeroFill ∧ s.Remain ((rs ++ [last]).map (fun r => r.len)).sum))
    (hw : StreamWritten s.mem s.reader.p.toNat (min ((rs.map (fun r => r.len)).sum + 16) s.reader.remaining)) :
    ∃ u, DecodesTo b (rs ++ [last]) s u := by
  induction rs generalizing s with
  | nil =>
    obtain ⟨hcode, -⟩ := hspell
    simp only [List.map_nil, List.sum_nil, List.nil_append, List.map_cons, List.sum_cons, Nat.zero_add,
      Nat.add_zero] at htail hw
    obtain ⟨u, hu, hp, hm⟩ := exec_htDecode_of_codeword h ht (hmem last (by simp)) hcode htail hw
    exact ⟨u, u, hu, hm.result_eq, hp, rfl⟩
  | cons r rs ih =>
    obtain ⟨hcode, hspell⟩ := hspell
    simp only [List.cons_append, List.map_cons, List.sum_cons, Nat.add_assoc] at htail hw
    obtain ⟨u, hu, hp, hm⟩ := exec_htDecode_of_codeword h ht (hmem r (by simp)) hcode
      (htail.imp (fun hn => hn.mono (by omega)) (And.imp_right fun hn => hn.mono (by omega)))
      fun k hk => hw k (by omega)
    have hstreamLen : u.reader.streamLen = s.reader.streamLen := by rw [Reader.streamLen, hm.lenLatched_eq]
    have hremain : ∀ n, s.Remain (r.len + n) → u.Remain n := fun n hn => by
      rw [State.Remain, hstreamLen, hp, Nat.add_assoc]; exact hn
    have hmem_eq : u.mem = s.mem := hm.mem_eq
    have hcfg : u.cfg = s.cfg := hm.cfg_eq
    have hwritten : StreamWritten u.mem u.reader.p.toNat
        (min ((rs.map (fun r => r.len)).sum + 16) u.reader.remaining) := fun k hk => by
      rw [Reader.remaining, hstreamLen, hp] at hk
      rw [hmem_eq, hp, Nat.add_assoc]
      exact hw (r.len + k) (by simp only [Reader.remaining]; omega)
    obtain ⟨w, hrest⟩ := ih (h.movedBy hm) (fun q hq => hmem q (List.mem_cons_of_mem r hq))
      (by rw [hmem_eq, hp]; exact hspell)
      (htail.imp (hremain _) (And.imp (fun hzero => by rw [hcfg]; exact hzero) (hremain _))) hwritten
    exact ⟨w, u, hu, hm.result_eq, hp, hrest⟩

/-- Settles O30: the codewords are decoded one after the other, and their lengths add up. -/
theorem decodingInvertsTheCodewords : Obligations.DecodingInvertsTheCodewords := by
  intro s b t rs last hinv hb hs hp hmem hspell htail hw
  have ⟨_, _, _, hslots, _⟩ := hinv
  obtain ⟨u, hu⟩ := exists_decodesTo (hslots.tableLegal hs) rs (.of_inv hinv hb hs hp) hmem hspell htail hw
  exact ⟨u, hu, hu.p_toNat⟩

end Sys2Proof.Machine
end

section
/-! The table build (spec/41_huffman.md R162 to R165): the runs of a built table are the canonical code's, and the three
checks of Validate and the code space decide when there is none. -/

namespace Sys2Proof.Machine

/-! ### The counts -/

/-- The lengths below i + 1, then i + 1, then the rest. -/
theorem codeLengths_split {i : Nat} (hi : i < 16) :
    codeLengths = List.range' 1 i ++ (i + 1) :: List.range' (i + 2) (15 - i) := by
  have hcons : (i + 1) :: List.range' (i + 2) (15 - i) = List.range' (1 + 1 * i) (16 - i) := by
    rw [show 16 - i = 15 - i + 1 by omega, List.range'_succ, Nat.one_mul, Nat.add_comm 1 i]
  rw [hcons, List.range'_append, codeLengths, show i + (16 - i) = 16 by omega]

/-- Sixteen written counts, each below 2^L, pass check 2. -/
theorem readCounts_of_written {m : Memory} {cs : List Nat} (hlen : cs.length = 16)
    (hcs : ∀ i < 16, ∃ c, m.readWord (MemName.htBits.wordAddr i) = some c ∧ c.toNat = cs.getD i 0 ∧
      c.toNat < 2 ^ (i + 1)) : readCounts m codeLengths = .ok cs := by
  refine readCounts_of (by rw [hlen]; rfl) fun j i hj => ?_
  obtain ⟨hj16, rfl⟩ := codeLengths_getElem?.mp hj
  obtain ⟨c, hc, he, hlt⟩ := hcs j hj16
  refine ⟨c, hc, ?_, hlt⟩
  rw [he, List.getElem?_eq_getElem (by omega), List.getD_eq_getElem _ _ (by omega)]

/-- Check 2 fails at the first count of 2^L or more. -/
theorem readCounts_codeLengths_fails {m : Memory} {i : Nat} (hi : i < 16)
    (hpre : ∀ j < i, ∃ c, m.readWord (MemName.htBits.wordAddr j) = some c ∧ c.toNat < 2 ^ (j + 1))
    (hbad : ∃ c, m.readWord (MemName.htBits.wordAddr i) = some c ∧ 2 ^ (i + 1) ≤ c.toNat) :
    readCounts m codeLengths = .error (.malformed 2 (i + 1)) := by
  rw [codeLengths_split hi]
  refine readCounts_fails (fun l hl => ?_) hbad
  obtain ⟨hpos, hlt⟩ := List.mem_range'_1.mp hl
  obtain ⟨j, rfl⟩ := Nat.exists_eq_add_of_le' hpos
  exact hpre j (by omega)

/-- HT_BUILD of a slot that exists raises the error of its build and leaves the slot invalid. -/
theorem exec_htBuild_of_malformed {s : State} {b : BitVec 4} {reason detail : Nat} (hb : b.toNat < s.cfg.nht)
    (h : buildTable s.mem s.hvlen = .error (.malformed reason detail)) :
    exec (.htBuild b) s = .next
      { s with slots := s.slots.set b.toNat (.invalid none), err := some .malformedTable,
               errInfo := BitVec.ofNat 32 (reason * 2 ^ 24 + detail) } := by
  rw [exec, execHtBuild, requireSlot_lt hb, h]
  rfl

/-- A build whose HVLEN fits and whose check of the counts fails ends with that check's error. -/
theorem buildTable_of_readCounts_fails {m : Memory} {hvlen : Word} {e : BuildStop} (hv : hvlen.toNat ≤ 256)
    (h : readCounts m codeLengths = .error e) : buildTable m hvlen = .error e := by
  simp only [buildTable, validateCounts, Config.hvCap, if_neg (Nat.not_lt.mpr hv), h]

/-- Settles O24, check by check. -/
theorem htBuildRejectsMalformedCounts : Obligations.HtBuildRejectsMalformedCounts := by
  refine fun s b hb => ⟨fun hv => ?_, fun i hi hv hpre hbad => ?_, fun cs hv hlen hcs hsum => ?_⟩
  · refine exec_htBuild_of_malformed (reason := 1) hb ?_
    simp only [buildTable, validateCounts, Config.hvCap, gt_iff_lt, hv, if_true]
  · exact exec_htBuild_of_malformed (reason := 2) hb
      (buildTable_of_readCounts_fails hv (readCounts_codeLengths_fails hi hpre hbad))
  · refine exec_htBuild_of_malformed (reason := 3) hb ?_
    simp only [buildTable, validateCounts, Config.hvCap, if_neg (Nat.not_lt.mpr hv), readCounts_of_written hlen hcs,
      if_pos hsum]

/-! ### The canonical code -/

/-- The first count of those from length len on is BITS[len]. -/
theorem countOf_of_drop {cs rest : List Nat} {len c : Nat} (hpos : 1 ≤ len) (h : cs.drop (len - 1) = c :: rest) :
    countOf cs len = c ∧ cs.drop (len + 1 - 1) = rest := by
  obtain ⟨n, rfl⟩ := Nat.exists_eq_add_of_le' hpos
  rw [Nat.add_sub_cancel] at h
  refine ⟨?_, ?_⟩
  · have hget : cs[n]? = some c := by rw [← List.head?_drop, h, List.head?_cons]
    simp [countOf, hget]
  · rw [Nat.add_sub_cancel, ← List.tail_drop, h, List.tail_cons]

theorem firstSymbol_succ (cs : List Nat) {len : Nat} (hpos : 1 ≤ len) :
    firstSymbol cs (len + 1) = firstSymbol cs len + countOf cs len := by
  obtain ⟨n, rfl⟩ := Nat.exists_eq_add_of_le' hpos
  simp only [firstSymbol, countOf, Nat.add_sub_cancel, List.take_add_one, List.sum_append]
  cases h : cs[n]? <;> simp [h]

/-- The symbols of every length stand within the HVLEN symbols of the specification. -/
theorem firstSymbol_add_countOf_le (cs : List Nat) {len : Nat} (hpos : 1 ≤ len) :
    firstSymbol cs len + countOf cs len ≤ cs.sum := by
  rw [← firstSymbol_succ cs hpos, firstSymbol]
  exact (List.take_sublist _ cs).sum_le_sum (by simp)

/-- The code space used up to a length, in codewords of a later length, is part of what is used up to that one. -/
theorem codeSpace_mul_le (cs : List Nat) {len n : Nat} (hpos : 1 ≤ len) (hle : len ≤ n) :
    codeSpace cs len * 2 ^ (n - len) ≤ codeSpace cs n := by
  induction n, hle using Nat.le_induction with
  | base => simp
  | succ n hn ih =>
    calc codeSpace cs len * 2 ^ (n + 1 - len) = codeSpace cs len * 2 ^ (n - len) * 2 := by
          rw [Nat.succ_sub hn, Nat.pow_succ, Nat.mul_assoc]
      _ ≤ codeSpace cs n * 2 := Nat.mul_le_mul_right 2 ih
      _ = firstCode cs (n + 1) := (firstCode_succ cs (by omega)).symm
      _ ≤ codeSpace cs (n + 1) := Nat.le_add_right _ _

/-- The run of the canonical code's codeword j of its length, with that codeword's symbol (R164, R165). -/
def IsCanonicalRun (m : Memory) (cs : List Nat) (r : LutRun) : Prop :=
  ∃ j < countOf cs r.len, r.base = (firstCode cs r.len + j) * 2 ^ (16 - r.len) ∧
    m.read (MemName.huffval.byteAddr (firstSymbol cs r.len + j)) = some r.sym

/-- The runs that one length gives. -/
theorem mem_assignLength {m : Memory} {len n code k : Nat} {runs : List LutRun}
    (h : assignLength m len n code k = .ok runs) {r : LutRun} :
    r ∈ runs ↔ r.len = len ∧ ∃ j < n, r.base = (code + j) * 2 ^ (16 - r.len) ∧
      m.read (MemName.huffval.byteAddr (k + j)) = some r.sym := by
  obtain ⟨hlen, hruns⟩ := assignLength_ok_iff h
  constructor
  · intro hr
    obtain ⟨j, hj⟩ := List.mem_iff_getElem?.mp hr
    obtain ⟨rfl, hbase, -, hsym⟩ := hruns j r hj
    exact ⟨rfl, j, hlen ▸ (List.getElem?_eq_some_iff.mp hj).1, hbase, hsym⟩
  · rintro ⟨rfl, j, hj, hbase, hsym⟩
    obtain ⟨q, hq⟩ : ∃ q, runs[j]? = some q := ⟨_, List.getElem?_eq_getElem (hlen ▸ hj)⟩
    obtain ⟨hqlen, hqbase, -, hqsym⟩ := hruns j q hq
    have hrq : r = q := by
      cases r; cases q
      simp_all
    exact hrq ▸ List.mem_of_getElem? hq

/-- The runs of a built table are the canonical code's. -/
theorem mem_assignCodes {m : Memory} {cs rest : List Nat} {len : Nat} {t : List LutRun} (hpos : 1 ≤ len)
    (hrest : cs.drop (len - 1) = rest)
    (h : assignCodes m len rest (firstCode cs len) (firstSymbol cs len) = .ok t) {r : LutRun} :
    r ∈ t ↔ (len ≤ r.len ∧ r.len < len + rest.length) ∧ IsCanonicalRun m cs r := by
  induction rest generalizing len t with
  | nil =>
    cases h
    simp only [List.length_nil, List.not_mem_nil, false_iff]
    omega
  | cons c rest ih =>
    obtain ⟨rfl, htail⟩ := countOf_of_drop hpos hrest
    simp only [assignCodes] at h
    split at h
    · cases h
    · rename_i runs hruns
      split at h
      · rename_i later hlater
        cases h
        rw [← codeSpace, ← firstCode_succ cs hpos, ← firstSymbol_succ cs hpos] at hlater
        rw [List.mem_append, mem_assignLength hruns, ih (by omega) htail hlater, List.length_cons]
        constructor
        · rintro (⟨rfl, hrun⟩ | ⟨hlen, hrun⟩)
          · exact ⟨by omega, hrun⟩
          · exact ⟨by omega, hrun⟩
        · rintro ⟨hlen, hrun⟩
          by_cases hhere : r.len = len
          · subst hhere
            exact .inl ⟨rfl, hrun⟩
          · exact .inr ⟨by omega, hrun⟩
      · cases h

/-- A loaded specification whose codewords fit the code space builds the table of the canonical code's runs. -/
theorem buildTable_of_specLoaded {s : State} {cs : List Nat} (h : SpecLoaded s cs) (hfit : codeSpace cs 16 ≤ 65536) :
    ∃ t, buildTable s.mem s.hvlen = .ok t ∧
      ∀ r, r ∈ t ↔ (1 ≤ r.len ∧ r.len < 17) ∧ IsCanonicalRun s.mem cs r := by
  obtain ⟨hcounts, hsymbols⟩ := h
  have ⟨hlen, _, hsum, _⟩ := hcounts
  have hfits : ∀ l, 1 ≤ l → l < 1 + cs.length → codeSpace cs l ≤ 2 ^ l := fun l h1 h2 =>
    codeSpace_fits (n := 16) hfit h1 (by omega)
  obtain ⟨t, ht⟩ : ∃ t, assignCodes s.mem 1 cs (firstCode cs 1) (firstSymbol cs 1) = .ok t := by
    cases hr : assignCodes s.mem 1 cs (firstCode cs 1) (firstSymbol cs 1) with
    | ok t => exact ⟨t, rfl⟩
    | error e =>
      cases e with
      | malformed r d => exact absurd hr (assignCodes_ne_malformed (Nat.le_refl 1) rfl hfits)
      | unwritten e =>
        obtain ⟨-, x, hx, hn⟩ := assignCodes_unwritten hr
        have hwritten := hsymbols x (by rw [← hsum]; exact hx.trans_eq (Nat.zero_add _))
        rw [hn] at hwritten
        cases hwritten
  refine ⟨t, ?_, fun r => ?_⟩
  · simp only [buildTable, hcounts.validateCounts]
    exact ht
  · rw [mem_assignCodes (rest := cs) (Nat.le_refl 1) rfl ht, hlen]

/-- A canonical run ends within the code space that its counts use up. -/
theorem IsCanonicalRun.end_le {m : Memory} {cs : List Nat} {r : LutRun} (h : IsCanonicalRun m cs r) (hpos : 1 ≤ r.len)
    (h16 : r.len ≤ 16) : r.base + 2 ^ (16 - r.len) ≤ codeSpace cs 16 := by
  obtain ⟨j, hj, hbase, -⟩ := h
  calc r.base + 2 ^ (16 - r.len) = (firstCode cs r.len + (j + 1)) * 2 ^ (16 - r.len) := by rw [hbase]; ring
    _ ≤ codeSpace cs r.len * 2 ^ (16 - r.len) := Nat.mul_le_mul_right _ (Nat.add_le_add_left hj _)
    _ ≤ codeSpace cs 16 := codeSpace_mul_le cs hpos h16

/-- Settles O23: every codeword has its run, and every run is some codeword's. -/
theorem htBuildMakesTheCanonicalTable : Obligations.HtBuildMakesTheCanonicalTable := by
  intro s b cs hb h hfit
  obtain ⟨t, ht, hruns⟩ := buildTable_of_specLoaded h hfit
  obtain ⟨⟨-, -, hsum, -⟩, hsymbols⟩ := h
  refine ⟨t, ?_, fun len hpos h16 j hj v hv => ?_, fun v hv _ => ?_⟩
  · rw [exec, execHtBuild, requireSlot_lt hb, ht]
    rfl
  · have hwritten := firstSymbol_add_countOf_le cs hpos
    obtain ⟨sym, hsym⟩ := Option.isSome_iff_exists.mp (hsymbols (firstSymbol cs len + j) (by omega))
    have hr : (⟨(firstCode cs len + j) * 2 ^ (16 - len), len, sym⟩ : LutRun) ∈ t :=
      (hruns _).mpr ⟨⟨hpos, Nat.lt_succ_of_le h16⟩, j, hj, rfl, hsym⟩
    have hlook := lookup_of_codeword (buildTable_legal ht) hr (v := v)
      (hv.trans (Nat.mul_div_cancel _ (Nat.two_pow_pos _)).symm)
    rw [hlook]
    exact ⟨rfl, hsym.symm⟩
  · rcases lookup_cases t v with ⟨r, hr, ⟨-, hlt⟩, -⟩ | ⟨-, hnone⟩
    · obtain ⟨⟨hpos, h17⟩, hrun⟩ := (hruns r).mp hr
      exact absurd (hlt.trans_le (hrun.end_le hpos (by omega))) (Nat.not_lt.mpr hv)
    · exact hnone

/-! ### Overflow of the code space -/

/-- Assignment fails at the first length whose codewords run out of its code space, if the symbols are written. -/
theorem assignCodes_overflows {m : Memory} {cs rest : List Nat} {len n : Nat} (hpos : 1 ≤ len)
    (hrest : cs.drop (len - 1) = rest) (hsymbols : ∀ x < cs.sum, (m.read (MemName.huffval.byteAddr x)).isSome)
    (hstart : firstCode cs len ≤ 2 ^ len) (hle : len ≤ n) (hlt : n < len + rest.length)
    (hover : 2 ^ n < codeSpace cs n) (hfits : ∀ l, len ≤ l → l < n → codeSpace cs l ≤ 2 ^ l) :
    assignCodes m len rest (firstCode cs len) (firstSymbol cs len) = .error (.malformed 4 n) := by
  induction rest generalizing len with
  | nil => rw [List.length_nil] at hlt; omega
  | cons c rest ih =>
    obtain ⟨rfl, htail⟩ := countOf_of_drop hpos hrest
    have hlast := firstSymbol_add_countOf_le cs hpos
    have hwritten : ∀ j < countOf cs len, (m.read (MemName.huffval.byteAddr (firstSymbol cs len + j))).isSome :=
      fun j hj => hsymbols _ (by omega)
    simp only [assignCodes]
    rcases Nat.eq_or_lt_of_le hle with rfl | hlater
    · rw [assignLength_overflows hover hstart hwritten]
    · have hhere := hfits len (Nat.le_refl _) hlater
      obtain ⟨runs, hruns⟩ := assignLength_succeeds hhere hwritten
      have hnext : firstCode cs (len + 1) ≤ 2 ^ (len + 1) := by rw [firstCode_succ cs hpos, Nat.pow_succ]; omega
      have hfails := ih (by omega) htail hnext hlater (by rw [List.length_cons] at hlt; omega)
        fun l h1 h2 => hfits l (by omega) h2
      rw [firstCode_succ cs hpos, firstSymbol_succ cs hpos] at hfails
      rw [hruns, ← codeSpace, hfails]

/-- Settles O25: the counts pass Validate, and assignment fails at the given length. -/
theorem htBuildRejectsCodeSpaceOverflow : Obligations.HtBuildRejectsCodeSpaceOverflow := by
  intro s b cs len hb h hpos h16 hover hfits
  obtain ⟨hcounts, hsymbols⟩ := h
  have ⟨hlen, _, hsum, _⟩ := hcounts
  have hfails : assignCodes s.mem 1 cs (firstCode cs 1) (firstSymbol cs 1) = .error (.malformed 4 len) :=
    assignCodes_overflows (Nat.le_refl 1) rfl (by rw [hsum]; exact hsymbols) (Nat.zero_le _) hpos (by omega) hover hfits
  refine exec_htBuild_of_malformed (reason := 4) hb ?_
  simp only [buildTable, hcounts.validateCounts]
  exact hfails

end Sys2Proof.Machine
end

section
/-! The datapath on the integers and the commands that use it (spec/42_dequant_fixed.md R190 to R201). -/

namespace Sys2Proof.Machine

/-! ### The operations (R190 to R194) -/

@[simp] theorem add32_toInt (a b : Word) : (add32 a b).toInt = Int.bmod (a.toInt + b.toInt) (2 ^ 32) :=
  BitVec.toInt_add a b

@[simp] theorem sub32_toInt (a b : Word) : (sub32 a b).toInt = Int.bmod (a.toInt - b.toInt) (2 ^ 32) :=
  BitVec.toInt_sub

@[simp] theorem mul32_toInt (a b : Word) : (mul32 a b).toInt = Int.bmod (a.toInt * b.toInt) (2 ^ 32) :=
  BitVec.toInt_mul a b

/-- An arithmetic right shift is a floor division, for every shift count. -/
@[simp] theorem descale_toInt (a : Word) (n : Nat) : (descale a n).toInt = a.toInt / 2 ^ n := by
  rw [descale, BitVec.toInt_sshiftRight, Int.shiftRight_eq_div_pow, Nat.cast_pow, Nat.cast_ofNat]

@[simp] theorem fixedMul_toInt (a b : Word) : (fixedMul a b).toInt = fixedMulInt a.toInt b.toInt := by
  rw [fixedMul, descale_toInt, mul32_toInt, fixedMulInt, Config.constBits]

/-- Below, above and between the bounds of a byte; between them the sum fits the byte. -/
@[simp] theorem rangeLimit_toNat (a : Word) : ((rangeLimit a).toNat : Int) = rangeLimitInt a.toInt := by
  rw [rangeLimit, rangeLimitInt]
  split
  · rename_i hlow
    rw [max_eq_left ((min_le_right 255 _).trans hlow.le)]
    rfl
  · rename_i hlow
    split
    · rename_i hhigh
      rw [min_eq_left hhigh.le]
      rfl
    · rename_i hhigh
      rw [BitVec.toNat_ofInt]
      omega

/-- Settles O31: each operation by its own law. -/
theorem datapathMatchesIntegerArithmetic : Obligations.DatapathMatchesIntegerArithmetic :=
  fun a b => ⟨add32_toInt a b, sub32_toInt a b, mul32_toInt a b, fun n _ => descale_toInt a n, fixedMul_toInt a b,
    rangeLimit_toNat a⟩

/-! ### The constants (R195, R196) -/

/-- Rounding is known by its bounds. -/
theorem fix_eq_iff {x : ℚ} {k : Int} : Config.fix x = k ↔ (k : ℚ) ≤ x * 256 + 1 / 2 ∧ x * 256 + 1 / 2 < k + 1 := by
  rw [Config.fix, Rat.floor_def, ← Rat.floor_def', Int.floor_eq_iff]

/-- Settles O32: each constant lies within the bounds of its real's rounding. -/
theorem transformConstantsAreFix : Obligations.TransformConstantsAreFix := by
  have h1082 : Config.k1082.toInt = 277 := rfl
  have h1414 : Config.k1414.toInt = 362 := rfl
  have h1847 : Config.k1847.toInt = 473 := rfl
  have h2613 : Config.k2613.toInt = 669 := rfl
  rw [Obligations.TransformConstantsAreFix, h1082, h1414, h1847, h2613]
  refine ⟨fix_eq_iff.mpr ?_, fix_eq_iff.mpr ?_, fix_eq_iff.mpr ?_, fix_eq_iff.mpr ?_⟩ <;> norm_num

/-! ### The fixed-point commands (R199 to R201) -/

/-- Settles O33: the word is that of the command, and `fixedMul` is the product on the integers. -/
theorem fxMulResult : Obligations.FxMulResult :=
  ⟨decodeOfEncodeIsIdentity .fxMul, fun s => ⟨_, rfl, fixedMul_toInt s.arg s.arg2⟩⟩

/-- Settles O34: the count passes its check. -/
theorem fxDescaleResult : Obligations.FxDescaleResult :=
  fun s n hn => ⟨_, requireCount_lt hn s _, descale_toInt s.arg n.toNat⟩

/-- Settles O35: the byte keeps its value when it is extended to RESULT's width. -/
theorem fxRlimitResult : Obligations.FxRlimitResult := by
  refine ⟨decodeOfEncodeIsIdentity .fxRlimit, fun s => ⟨_, rfl, ?_⟩⟩
  rw [BitVec.toNat_setWidth_of_le (by decide), rangeLimit_toNat]

/-! ### The dequantizer (R193, R198) -/

theorem withDequantized_written {i : Nat} {s : State} {q c : Word}
    (hq : s.mem.readWord (MemName.qt.wordAddr i) = some q) (hc : s.mem.readWord (MemName.coef.wordAddr i) = some c)
    (k : Word → Result) : withDequantized i s k = k (fixedMul q c) := by
  simp only [withDequantized, hq, hc]

theorem withDequantized_qt_unwritten {i : Nat} {s : State} (hq : s.mem.readWord (MemName.qt.wordAddr i) = none)
    (k : Word → Result) : withDequantized i s k = .fault (.unwritten .qt) := by
  simp only [withDequantized, hq]

theorem withDequantized_coef_unwritten {i : Nat} {s : State} (hq : s.mem.readWord (MemName.qt.wordAddr i) ≠ none)
    (hc : s.mem.readWord (MemName.coef.wordAddr i) = none) (k : Word → Result) :
    withDequantized i s k = .fault (.unwritten .coef) := by
  obtain ⟨q, hq⟩ := Option.ne_none_iff_exists'.mp hq
  simp only [withDequantized, hq, hc]

/-- Settles O36: both entries written, QT's unwritten, COEF's alone unwritten. -/
theorem dqCoefResult : Obligations.DqCoefResult := by
  refine fun s i => ⟨fun q c hq hc => ⟨fixedMul q c, ?_, fixedMul_toInt q c⟩, fun hq => ?_, fun hq hc => ?_⟩
  · rw [exec, execDqCoef, withDequantized_written hq hc]
    rfl
  · rw [exec, execDqCoef, withDequantized_qt_unwritten hq]
  · rw [exec, execDqCoef, withDequantized_coef_unwritten hq hc]

end Sys2Proof.Machine
end

section
/-! The transform (spec/43_idct.md R220 to R226): the butterfly on the integers, its fast path, and what the two passes
and the block command write. -/

namespace Sys2Proof.Machine

/-! ### Eight values (R220) -/

/-- Eight values are known by their entries. -/
theorem Oct.ext_get {o p : Oct} (h : ∀ r < 8, o.get r = p.get r) : o = p := by
  cases o
  cases p
  exact (Oct.mk.injEq ..).mpr ⟨h 0 (by decide), h 1 (by decide), h 2 (by decide), h 3 (by decide), h 4 (by decide),
    h 5 (by decide), h 6 (by decide), h 7 (by decide)⟩

/-- A DC value alone: the column of the fast path (R222). -/
def Oct.dcOnly (c : Word) : Oct := ⟨c, 0, 0, 0, 0, 0, 0, 0⟩

/-- One value in all eight places: what the fast path writes (R222). -/
def Oct.flat (c : Word) : Oct := ⟨c, c, c, c, c, c, c, c⟩

theorem Oct.eq_dcOnly {o : Oct} {c : Word} (h0 : o.get 0 = c) (h : ∀ r, 1 ≤ r → r < 8 → o.get r = 0) :
    o = .dcOnly c := by
  refine Oct.ext_get fun r hr => ?_
  rcases Nat.eq_zero_or_pos r with rfl | hpos
  · exact h0
  · rw [h r hpos hr]
    interval_cases r <;> rfl

theorem Oct.flat_get (c : Word) {r : Nat} (hr : r < 8) : (Oct.flat c).get r = c := by
  interval_cases r <;> rfl

theorem Oct.flat_descale (c : Word) (n : Nat) : (Oct.flat c).descale n = .flat (Machine.descale c n) := rfl

theorem dequantizedColumn_get (qt coef : List Word) (x : Nat) {r : Nat} (hr : r < 8) :
    (dequantizedColumn qt coef x).get r = dequantized qt coef (8 * r + x) := by
  interval_cases r <;> simp [dequantizedColumn, Oct.get, Oct.toList]

theorem workspaceRow_get (ws : List Word) (y : Nat) {x : Nat} (hx : x < 8) :
    (workspaceRow ws y).get x = entry ws (8 * y + x) := by
  interval_cases x <;> rfl

/-- A block is the 64 words of its memory in order. -/
theorem State.block_eq_some_iff {s : State} {m : MemName} {vs : List Word} :
    s.block m = some vs ↔ vs.length = 64 ∧ ∀ k < 64, s.mem.readWord (m.base + 4 * k) = some (vs.getD k 0) := by
  rw [State.block, Memory.readWords_eq_some, Config.blockSize]
  refine and_congr_right fun hl => forall_congr' fun k => ⟨fun h hk => ?_, fun h hk => ?_⟩
  · rw [List.getD_eq_getElem _ _ (hl ▸ hk)]
    exact h (hl ▸ hk)
  · rw [← List.getD_eq_getElem _ 0 hk]
    exact h (hl ▸ hk)

/-! ### The butterfly (R221) and its fast path (R222, R223) -/

@[simp] theorem k1082_toInt : Config.k1082.toInt = 277 := rfl

@[simp] theorem k1414_toInt : Config.k1414.toInt = 362 := rfl

@[simp] theorem k1847_toInt : Config.k1847.toInt = 473 := rfl

@[simp] theorem negK2613_toInt : Config.negK2613.toInt = -669 := rfl

/-- The butterfly passes a lone DC value to every output. -/
theorem butterfly_dcOnly (c : Word) : butterfly (.dcOnly c) = .flat c := by
  simp [butterfly, Oct.dcOnly, Oct.flat, add32, sub32]

theorem acZero_iff {coef : List Word} {x : Nat} :
    acZero coef x = true ↔ ∀ r, 1 ≤ r → r < 8 → entry coef (8 * r + x) = 0 := by
  simp only [acZero, List.all_eq_true, List.mem_range'_1, beq_iff_eq, and_imp]

/-- A column without AC coefficients is its DC value alone. -/
theorem dequantizedColumn_of_acZero {coef : List Word} {x : Nat} (h : acZero coef x = true) (qt : List Word) :
    dequantizedColumn qt coef x = .dcOnly (dequantized qt coef x) := by
  refine Oct.eq_dcOnly ?_ fun r hpos hr => ?_
  · rw [dequantizedColumn_get _ _ _ (by decide), Nat.mul_zero, Nat.zero_add]
  · rw [dequantizedColumn_get _ _ _ hr, dequantized, acZero_iff.mp h r hpos hr]
    exact fixedMul_zero_right _

theorem pass1Column_of_acZero {coef : List Word} {x : Nat} (h : acZero coef x = true) (qt : List Word) :
    pass1Column qt coef x = .flat (descale (dequantized qt coef x) 8) :=
  if_pos h

/-- The fast path gives what the general path gives. -/
theorem pass1Column_eq (qt coef : List Word) (x : Nat) :
    pass1Column qt coef x = (butterfly (dequantizedColumn qt coef x)).descale 8 := by
  cases h : acZero coef x with
  | true =>
    rw [pass1Column_of_acZero h, dequantizedColumn_of_acZero h, butterfly_dcOnly, Oct.flat_descale]
  | false =>
    rw [pass1Column, h]
    rfl

/-- Settles O37: the laws of the datapath carry each equation to the integers. -/
theorem fastPathEqualsGeneralPath : Obligations.FastPathEqualsGeneralPath := by
  refine ⟨fun c => ?_, fun _ _ _ => State.block_eq_some_iff, fun qt coef x r hr => dequantizedColumn_get qt coef x hr,
    fun ws y x hx => workspaceRow_get ws y hx, butterfly_dcOnly, pass1Column_eq⟩
  simp only [Oct.get, Oct.toList, butterfly, List.getD_cons_zero, List.getD_cons_succ, add32_toInt, sub32_toInt,
    fixedMul_toInt, k1082_toInt, k1414_toInt, k1847_toInt, negK2613_toInt, and_self]

/-! ### The passes (R222, R224) -/

/-- Settles O38: the block that pass 1 stores reads back entry by entry. -/
theorem idctPass1WritesTheWorkspace : Obligations.IdctPass1WritesTheWorkspace := by
  intro s qt coef hq hc
  refine ⟨_, runPass1_eq hq hc, fun r hr x hx => ?_, fun a ha => ?_⟩
  · have hentry := pass1Block_get qt coef hr hx
    obtain ⟨hlt, hget⟩ := List.getElem?_eq_some_iff.mp hentry
    refine (Memory.readWord_storeWords s.mem _ _ _ hlt).trans ?_
    rw [hget, pass1Column_eq, Oct.descale_get _ _ hr]
  · refine Memory.read_storeWords_of_ne s.mem _ ?_
    rwa [pass1Block_length]

/-- A byte stored to OUT reads back. -/
theorem read_storeOut {m : Memory} {bs : List Byte} {i : Nat} {b : Byte} (h : bs[i]? = some b) :
    (m.store MemName.out.base bs).read (0x700 + i) = some b := by
  have hlt : i < bs.length := (List.getElem?_eq_some_iff.mp h).1
  rw [Memory.read_store, MemName.base, if_pos (by omega), Nat.add_sub_cancel_left, h]

/-- Settles O39: the bytes that pass 2 stores read back one by one. -/
theorem idctPass2WritesTheOutput : Obligations.IdctPass2WritesTheOutput := by
  intro s ws hw
  refine ⟨_, runPass2_eq hw, fun y hy x hx => read_storeOut (pass2Block_get _ ws hy hx), fun a ha => ?_⟩
  rw [Memory.read_store, pass2Block_length]
  exact if_neg ha

/-! ### The block command (R225) -/

/-- Pass 2 reads WS and writes OUT, so repeating it changes nothing (R224). -/
theorem runPass2_repeat {s t : State} (h : runPass2 s = .next t) : runPass2 t = .next t := by
  obtain ⟨ws, hw, rfl⟩ := runPass2_cases h
  rw [runPass2_eq ((block_ws_storeOut s _).trans hw), State.setMem_mem, State.setMem_cfg, Memory.store_store _ _ rfl]
  rfl

/-- Pass 2 after pass 1 on written tables. -/
theorem runPass2_after_pass1 (s : State) (qt coef : List Word) :
    runPass2 (s.setMem (s.mem.storeWords MemName.ws.base (pass1Block qt coef))) =
      .next (s.setMem ((s.mem.storeWords MemName.ws.base (pass1Block qt coef)).store MemName.out.base
        (pass2Block s.cfg.pass1Bits (pass1Block qt coef)))) :=
  runPass2_eq (block_ws_pass1 s qt coef)

/-- The block command is pass 2 of what pass 1 answers. -/
theorem execIdctBlock_of_pass1 {s t : State} (h : runPass1 s = .next t) : execIdctBlock s = runPass2 t := by
  rw [execIdctBlock, h]
  rfl

/-- Settles O40: the passes' equations in sequence, and their frames. -/
theorem idctBlockIsPass1ThenPass2 : Obligations.IdctBlockIsPass1ThenPass2 := by
  intro s qt coef hq hc
  have h1 := runPass1_eq hq hc
  have h2 := runPass2_after_pass1 s qt coef
  refine ⟨_, _, h1, h2, (execIdctBlock_of_pass1 h1).trans h2, rfl, fun a ha => ?_, runPass2_repeat h2⟩
  exact (read_storeOut_outside _ (pass2Block_length _ _) ha).trans (read_storeWs_outside _ (pass1Block_length _ _) ha)

/-! ### The flat block (R226) -/

/-- The workspace of pass 1, row by row. -/
theorem workspaceRow_pass1Block_get (qt coef : List Word) {x y : Nat} (hx : x < 8) (hy : y < 8) :
    (workspaceRow (pass1Block qt coef) y).get x = (pass1Column qt coef x).get y := by
  rw [workspaceRow_get _ _ hx, entry, List.getD_eq_getElem?_getD, pass1Block_get qt coef hy hx, Option.getD_some]

/-- The block of a lone DC coefficient. -/
def dcBlock (d : Word) : List Word := d :: List.replicate 63 0

theorem entry_dcBlock (d : Word) {i : Nat} (hi : 1 ≤ i) : entry (dcBlock d) i = 0 := by
  obtain ⟨j, rfl⟩ := Nat.exists_eq_add_of_le' hi
  rw [entry, dcBlock, List.getD_cons_succ, List.getD_eq_getElem?_getD, List.getElem?_getD_replicate_default_eq]

theorem acZero_dcBlock (d : Word) (x : Nat) : acZero (dcBlock d) x = true :=
  acZero_iff.mpr fun _ _ _ => entry_dcBlock d (by omega)

/-- A lone DC coefficient gives each workspace row its descaled value alone. -/
theorem workspaceRow_dcBlock (q d : Word) (qs : List Word) {y : Nat} (hy : y < 8) :
    workspaceRow (pass1Block (q :: qs) (dcBlock d)) y = .dcOnly (descale (fixedMul q d) 8) := by
  have hrow : ∀ x < 8, (workspaceRow (pass1Block (q :: qs) (dcBlock d)) y).get x =
      descale (dequantized (q :: qs) (dcBlock d) x) 8 := fun x hx => by
    rw [workspaceRow_pass1Block_get _ _ hx hy, pass1Column_of_acZero (acZero_dcBlock d x), Oct.flat_get _ hy]
  refine Oct.eq_dcOnly (hrow 0 (by decide)) fun x hpos hx => ?_
  rw [hrow x hx, dequantized, entry_dcBlock d hpos]
  simp [descale]

/-- Settles O41: both passes meet a DC value alone, in every column and in every row. -/
theorem flatBlockGivesFlatOutput : Obligations.FlatBlockGivesFlatOutput := by
  intro s q d qs hq hc
  have h1 := runPass1_eq (coef := dcBlock d) hq hc
  refine ⟨_, (execIdctBlock_of_pass1 h1).trans (runPass2_after_pass1 s _ _), fun i hi => read_storeOut ?_⟩
  have hy : i / 8 < 8 := by omega
  have hx : i % 8 < 8 := by omega
  have hbyte := pass2Block_get s.cfg.pass1Bits (pass1Block (q :: qs) (dcBlock d)) hy hx
  rwa [Nat.div_add_mod, workspaceRow_dcBlock q d qs hy, butterfly_dcOnly, Oct.flat_get _ hx] at hbyte

end Sys2Proof.Machine
end

section
/-! The control commands (spec/44_control.md R250 to R252; spec/10_state.md R51, R52). -/

namespace Sys2Proof.Machine

/-- Settles O9: the words are those of the commands. -/
theorem nopAndClearErr : Obligations.NopAndClearErr :=
  ⟨decodeOfEncodeIsIdentity .nop, decodeOfEncodeIsIdentity .clearErr, fun _ => ⟨rfl, rfl⟩⟩

/-! ### The slots after SOFT_RESET -/

@[simp] theorem Slot.isValid_invalidate (x : Slot) : x.invalidate.isValid = false := by
  cases x <;> rfl

/-- A slot that does not exist reads as not valid, before as after. -/
@[simp] theorem State.softReset_slot (s : State) (k : Nat) : s.softReset.slot k = (s.slot k).invalidate :=
  List.getD_map s.slots (.invalid none) Slot.invalidate

/-! ### The reader and STATUS after a reset -/

theorem Reader.atReset_initial : Reader.initial.AtReset := by decide

theorem State.htValid_eq_zero {s : State} (h : ∀ k, (s.slot k).isValid = false) : s.htValid = 0 := by
  refine BitVec.eq_of_getLsbD_eq fun k hk => ?_
  rw [← s.statusWord_htValid, s.statusWord_valid hk, h k, BitVec.ofNat_eq_ofNat, BitVec.getLsbD_zero]

/-- STATUS has no other sources (R35). -/
theorem State.statusWord_eq_zero {s : State} (hslots : ∀ k, (s.slot k).isValid = false)
    (hreader : s.reader.rstate = .idle) (herr : s.err = none) (hbusy : s.busy = false) : s.statusWord = 0 := by
  rw [State.statusWord, State.htValid_eq_zero hslots, hreader, herr, hbusy]
  rfl

/-- Settles O10: what SOFT_RESET leaves gives no bit to STATUS. -/
theorem softResetKeepsMemoriesOnly : Obligations.SoftResetKeepsMemoriesOnly := by
  intro s
  have hvalid (k : Nat) : (s.softReset.slot k).isValid = false := by simp
  refine ⟨s.softReset, rfl, rfl, Reader.atReset_initial, fun k => ⟨hvalid k, by simp⟩, fun hbusy => ?_⟩
  exact State.statusWord_eq_zero hvalid rfl rfl hbusy

end Sys2Proof.Machine
end

section
/-! The error record (spec/30_encoding.md R113; spec/60_exceptions.md R263 to R268): a command that fails is precise, and
a recorded error stays, and blocks the other commands, until it is acknowledged. -/

namespace Sys2Proof.Machine

/-! ### Commands that fail -/

/-- The ways a command records an error: with nothing else changed, with the reader FAULTED, or as a failed build that
makes its slot invalid. -/
theorem Effect.failure_cases {i : Instr} {s t : State} {e : ErrCode} (h : Effect i s t) (hs : s.err = Option.none)
    (ht : t.err = some e) :
    (∃ v, t = s.raise e v) ∨ (∃ v, t = s.faultReader.raise e v) ∨
    ∃ b v, i = .htBuild b ∧ t = (s.setSlot b.toNat (.invalid Option.none)).raise e v := by
  have hnew : t.err ≠ s.err := by simp [hs, ht]
  cases h with
  | raise _ v => cases ht; exact .inl ⟨v, rfl⟩
  | overrun => cases ht; exact .inr (.inl ⟨s.reader.p, rfl⟩)
  | invalid v => cases ht; exact .inr (.inl ⟨v, rfl⟩)
  | buildFailed b v hi => cases ht; exact .inr (.inr ⟨b, v, hi, rfl⟩)
  | clear | soft => cases ht
  | consumed v n => exact absurd (State.consume_movedBy n (s.setResult v)).err_eq hnew
  | skipped => exact absurd s.skipAll_movedBy.err_eq hnew
  | primed => exact absurd (State.topUp_err _) hnew
  | none | built | result | wroteWs | wroteOut | wroteBoth => exact absurd rfl hnew

/-- Settles O56, by the ways a command records an error. -/
theorem failingCommandIsPrecise : Obligations.FailingCommandIsPrecise := by
  intro i s t e hs h ht
  rcases (exec_cases h).failure_cases hs ht with ⟨v, rfl⟩ | ⟨v, rfl⟩ | ⟨b, v, hi, rfl⟩
  · exact ⟨rfl, fun hslots => absurd rfl hslots⟩
  · exact ⟨rfl, fun hslots => absurd rfl hslots⟩
  · exact ⟨rfl, fun _ => ⟨b, hi, rfl⟩⟩

/-! ### Words issued while an error is recorded

NOP, CLEAR_ERR and SOFT_RESET execute in every state (R264). -/

theorem issue_nop (s : State) : issue 0x00000000 s = .next s :=
  issue_of_decode (decodeOfEncodeIsIdentity .nop) (.inr (.inl rfl))

theorem issue_clearErr (s : State) : issue 0xF0000000 s = .next s.clearError :=
  issue_of_decode (decodeOfEncodeIsIdentity .clearErr) (.inr (.inr (.inl rfl)))

theorem issue_softReset (s : State) : issue 0xFF000000 s = .next s.softReset :=
  issue_of_decode (decodeOfEncodeIsIdentity .softReset) (.inr (.inr (.inr rfl)))

/-- While an error is recorded a word changes something only if it is CLEAR_ERR or SOFT_RESET. -/
theorem issue_under_error_cases {v : Word} {s u : State} (he : s.err.isSome) (h : issue v s = .next u) :
    u = s ∨ (v = 0xF0000000 ∧ u = s.clearError) ∨ (v = 0xFF000000 ∧ u = s.softReset) := by
  by_cases hx : ExecutesUnderError v
  · rcases hx with rfl | rfl | rfl
    · cases (issue_nop s).symm.trans h
      exact .inl rfl
    · cases (issue_clearErr s).symm.trans h
      exact .inr (.inl ⟨rfl, rfl⟩)
    · cases (issue_softReset s).symm.trans h
      exact .inr (.inr ⟨rfl, rfl⟩)
  · cases (issue_dropped he hx).symm.trans h
    exact .inl rfl

/-- A step on a word written to CMD takes BUSY back to what it was. -/
theorem step_of_issue {s u : State} {v : Word} {rest : List HostRequest} (h : s.Issues v rest)
    (hi : issue v { s with requests := rest, busy := true } = .next u) : step s = .next (u.setBusy s.busy) := by
  rw [step_issue h, hi, mapNext_next, h.1]

/-- Settles O8: the three words execute, and every other is dropped. -/
theorem recordedErrorBlocksOtherCommands : Obligations.RecordedErrorBlocksOtherCommands := by
  intro s v rest e h he
  refine ⟨fun hnop hclear hsoft => ?_, ?_, ?_, ?_⟩
  · have hx : ¬ ExecutesUnderError v := by rintro (hv | hv | hv) <;> contradiction
    exact step_of_issue h (issue_dropped (Option.isSome_of_eq_some he) hx)
  · rintro rfl
    exact step_of_issue h (issue_nop _)
  · rintro rfl
    exact step_of_issue h (issue_clearErr _)
  · rintro rfl
    exact step_of_issue h (issue_softReset _)

/-! ### The error record along a step -/

/-- A step keeps the error record, or it served a reset or the issue of a word. -/
theorem step_errorRecord_cases {s t : State} (h : step s = .next t) :
    (t.err = s.err ∧ t.errInfo = s.errInfo) ∨
    (∃ rest, s.requests = .reset :: rest ∧ t = State.hardReset { s with requests := rest }) ∨
    ∃ addr v rest u, s.requests = .write addr 4 v :: rest ∧ offsetOf s.cfg addr = some 0 ∧
      issue v { s with requests := rest, busy := true } = .next u ∧ t = u.setBusy false := by
  rcases step_cases h with rfl | ⟨r, rest, hr, hreset | hread | hcmd | hreg | hmem | hunmapped⟩
  · exact .inl ⟨rfl, rfl⟩
  · obtain ⟨rfl, ht⟩ := hreset
    exact .inr (.inl ⟨rest, hr, ht⟩)
  · obtain ⟨_, off, -, -, -, rfl⟩ := hread
    obtain ⟨_, _, hf⟩ := State.hostRead_frame { s with requests := rest } off
    rw [hf]
    exact .inl ⟨rfl, rfl⟩
  · obtain ⟨addr, v, u, rfl, ho, -, hu, ht⟩ := hcmd
    exact .inr (.inr ⟨addr, v, rest, u, hr, ho, hu, ht⟩)
  · obtain ⟨_, _, q, v, -, -, -, -, rfl⟩ := hreg
    obtain ⟨_, _, _, _, hf⟩ := State.writeReg_frame { s with requests := rest } v q
    rw [hf]
    exact .inl ⟨rfl, rfl⟩
  · obtain ⟨_, off, m, v, -, -, -, -, rfl⟩ := hmem
    obtain ⟨_, _, hf⟩ := State.writeMem_frame { s with requests := rest } m off v
    rw [hf]
    exact .inl ⟨rfl, rfl⟩
  · obtain ⟨_, _, _, -, -, -, rfl⟩ := hunmapped
    exact .inl ⟨rfl, rfl⟩

/-- Settles O58: of what a step can serve, only a reset, CLEAR_ERR and SOFT_RESET touch a recorded error. -/
theorem errorRecordStaysUntilAcknowledged : Obligations.ErrorRecordStaysUntilAcknowledged := by
  intro s t e he h
  rcases step_errorRecord_cases h with ⟨herr, hinfo⟩ | ⟨rest, hr, rfl⟩ | ⟨addr, v, rest, u, hr, ho, hu, rfl⟩
  · exact .inl ⟨herr.trans he, hinfo⟩
  · exact .inr ⟨rfl, rfl, rest, .inl hr⟩
  rcases issue_under_error_cases (s := { s with requests := rest, busy := true })
    (Option.isSome_of_eq_some he) hu with rfl | ⟨hv, rfl⟩ | ⟨hv, rfl⟩
  · exact .inl ⟨he, rfl⟩
  · exact .inr ⟨rfl, rfl, rest, .inr ⟨addr, v, hr, ho, .inl hv⟩⟩
  · exact .inr ⟨rfl, rfl, rest, .inr ⟨addr, v, hr, ho, .inr hv⟩⟩

end Sys2Proof.Machine
end

section
/-! Hardware reset, and the hazard of a buffer changed under the primed reader (spec/70_reset_and_hazards.md R300, R304,
R313). -/

namespace Sys2Proof.Machine

/-! ### Hardware reset (R300) -/

/-- The slots that exist are empty, and one that does not exist reads as empty. -/
@[simp] theorem State.resetWith_slot (c : Config) (k : Nat) : (State.resetWith c).slot k = .invalid none := by
  rw [State.slot, List.getD_eq_getElem?_getD]
  exact List.getElem?_getD_replicate_default_eq (Slot.invalid none) c.nht k

/-- A reset state has every reset value of R52, whatever the parameters. -/
theorem State.resetWith_atReset (c : Config) : (State.resetWith c).AtReset := by
  have hstatus : (State.resetWith c).statusWord = 0 :=
    State.statusWord_eq_zero (fun k => by rw [State.resetWith_slot, Slot.isValid]) rfl rfl rfl
  exact ⟨rfl, rfl, rfl, rfl, rfl, rfl, hstatus, Reader.atReset_initial, Memory.read_nil, List.length_replicate,
    State.resetWith_slot c⟩

/-- A reset does not wait for a command to end (R301). -/
theorem stalls_reset (s : State) : stalls s .reset = false := Bool.and_false _

/-- Settles O11: a step on a reset serves it whatever BUSY is, and it leaves the block as `State.resetWith` gives it. -/
theorem hardwareResetGivesResetState : Obligations.HardwareResetGivesResetState := by
  refine ⟨fun s rest h => ?_, State.resetWith_atReset _, rfl, rfl⟩
  exact ⟨State.hardReset { s with requests := rest }, step_serve h (stalls_reset s), State.resetWith_atReset s.cfg,
    rfl, rfl, rfl, rfl⟩

/-! ### A buffer changed under the primed reader (R304) -/

/-- The words of the mapped part of BUF are in its window. -/
theorem MemName.holds_bufWord {c : Config} {d : Nat} (h : 4 * d + 4 ≤ c.bufMaxBytes) :
    MemName.buf.Holds c (MemName.buf.wordAddr d) := by
  simp only [MemName.Holds, MemName.wordAddr, MemName.bytes]
  omega

/-- The first LEN_LATCHED/4 words of BUF are those the primed reader borrows. -/
theorem State.primedWord_bufWord {s : State} {d : Nat} (hr : s.reader.rstate = .ready)
    (hd : d < s.reader.lenLatched.toNat / 4) : s.PrimedWord (MemName.buf.wordAddr d) := by
  refine ⟨hr, Nat.le_add_right _ _, ?_⟩
  rwa [MemName.wordAddr, Nat.add_sub_cancel_left, Nat.mul_div_cancel_left d (by omega)]

/-- A reader whose buffer changed stops every command that needs it READY (R313). -/
theorem requireReady_dirty {s : State} (hr : s.reader.rstate = .ready) (hd : s.bufDirty = true) (k : Result) :
    requireReady s k = .fault .bufChangedWhilePrimed := by
  rw [requireReady, hr, hd]
  rfl

/-- The reader commands whose earlier checks pass stop on a changed buffer (R313). -/
theorem readerCommands_stop_of_dirty {s : State} (hr : s.reader.rstate = .ready) (hd : s.bufDirty = true) :
    exec .brPos s = .fault .bufChangedWhilePrimed ∧ exec .brSkip s = .fault .bufChangedWhilePrimed ∧
    (∀ n : BitVec 6, n.toNat < 32 →
      exec (.brPeek n) s = .fault .bufChangedWhilePrimed ∧ exec (.brRead n) s = .fault .bufChangedWhilePrimed) ∧
    ∀ (b : BitVec 4) (t : List LutRun), b.toNat < s.cfg.nht → s.slot b.toNat = .valid t →
      exec (.htDecode b) s = .fault .bufChangedWhilePrimed := by
  have hstop := requireReady_dirty hr hd
  refine ⟨hstop _, hstop _, fun n hn => ⟨?_, ?_⟩, fun b t hb ht => ?_⟩
  · exact (requireCount_lt hn _ _).trans (hstop _)
  · exact (requireCount_lt hn _ _).trans (hstop _)
  · exact (requireSlot_lt hb _ _).trans ((requireTable_valid ht _).trans (hstop _))

/-- BR_INIT takes the mark of a changed buffer back. -/
theorem State.prime_primed (s : State) (len : Word) : (s.prime len).Primed := by
  obtain ⟨_, _, _, _, _, _, hprime⟩ := s.prime_frame len
  rw [hprime]
  exact ⟨rfl, rfl⟩

/-- A host write of a word of the primed buffer stores the word and marks the buffer as changed. -/
theorem step_write_primedWord {s : State} {rest : List HostRequest} {d : Nat} {v : Word}
    (hr : s.reader.rstate = .ready) (hd : d < s.reader.lenLatched.toNat / 4) (hmax : 4 * d + 4 ≤ s.cfg.bufMaxBytes)
    (hw : s.Writes (MemName.buf.wordAddr d) v rest) :
    step s = .next
      { s with requests := rest, mem := s.mem.storeWord (MemName.buf.wordAddr d) v, bufDirty := true } := by
  have hprimed : State.PrimedWord { s with requests := rest } (MemName.buf.wordAddr d) :=
    State.primedWord_bufWord hr hd
  rw [step_write_mem hw (MemName.holds_bufWord hmax), State.writeMem_of_writable rfl, decide_eq_true hprimed,
    Bool.or_true]

/-- Settles O22: the store marks the buffer as changed, which stops the reader's commands, and priming takes the mark
back. -/
theorem changedBufferStopsTheReader : Obligations.ChangedBufferStopsTheReader := by
  intro s rest d v hr hd hmax _ hw
  obtain ⟨hpos, hskip, hbits, hdecode⟩ := readerCommands_stop_of_dirty (s :=
    { s with requests := rest, mem := s.mem.storeWord (MemName.buf.wordAddr d) v, bufDirty := true }) hr rfl
  exact ⟨_, step_write_primedWord hr hd hmax hw, rfl, hpos, hskip, hbits, hdecode,
    fun h4 hlen => ⟨_, exec_brInit_of_legal h4 hlen, State.prime_primed _ _⟩⟩

end Sys2Proof.Machine
end
